-- ==== Sys2Proof/Word.lean ====
section
/-!
DEFINITION. The word types of PF7 (00_scope.md R9: the widths are fixed, not parameters).
-/

namespace Sys2Proof

/-- The 16-bit command word and the 16-bit register read value (00_scope.md R9). -/
abbrev Word := BitVec 16

/-- A byte, `u8` (00_scope.md R14): command data, a packed byte, an unpacker output value, a checksum. -/
abbrev Byte := BitVec 8

/-- A 7-bit value, `u7` (00_scope.md R14): the packer's input. -/
abbrev U7 := BitVec 7

end Sys2Proof
end

