-- ==== Sys2Proof/Syntax.lean ====
section
/-!
DEFINITION. The seventeen commands of 30_encoding.md R73, as operations, as instructions with their operands,
and the six DATA forms of R72. An operand's type has exactly the width its form gives it, so a word with a
must-be-0 bit set is no instruction. The assembler's lines (R80, R81), which carry raw numbers, stand here too.
-/

namespace Sys2Proof

/-- The six forms of `DATA` (30_encoding.md R72). -/
inductive Form where
  | d8 | d7 | f1 | c2 | m5 | z
  deriving DecidableEq, Repr

/-- The seventeen operations of 30_encoding.md R73, one per row. -/
inductive Op where
  | sysNop | sysWrctrl | sysClrstat | sysSreset
  | pkPush | pkEnd
  | upPush | upEnd | rxPush | rxEnd
  | frPush | frAbort
  | ftStart | ftData | ftEnd
  | ckInit | ckAdd
  deriving DecidableEq, Repr

/-- One command of 30_encoding.md R73 with its operand. -/
inductive Instr where
  | sysNop
  | sysWrctrl (c : BitVec 2)
  | sysClrstat (m : BitVec 5)
  | sysSreset
  | pkPush (v : U7)
  | pkEnd (f : Bool)
  | upPush (b : Byte)
  | upEnd (f : Bool)
  | rxPush (b : Byte)
  | rxEnd (f : Bool)
  | frPush (u : Byte)
  | frAbort
  | ftStart (i : Byte)
  | ftData (b : Byte)
  | ftEnd
  | ckInit (d : Byte)
  | ckAdd (d : Byte)
  deriving DecidableEq, Repr

/-- The row of 30_encoding.md R73 an instruction belongs to. -/
def Instr.op : Instr → Op
  | .sysNop => .sysNop
  | .sysWrctrl _ => .sysWrctrl
  | .sysClrstat _ => .sysClrstat
  | .sysSreset => .sysSreset
  | .pkPush _ => .pkPush
  | .pkEnd _ => .pkEnd
  | .upPush _ => .upPush
  | .upEnd _ => .upEnd
  | .rxPush _ => .rxPush
  | .rxEnd _ => .rxEnd
  | .frPush _ => .frPush
  | .frAbort => .frAbort
  | .ftStart _ => .ftStart
  | .ftData _ => .ftData
  | .ftEnd => .ftEnd
  | .ckInit _ => .ckInit
  | .ckAdd _ => .ckAdd

/-- The DATA form of each operation (30_encoding.md R73, column "DATA form"). -/
def Op.form : Op → Form
  | .sysNop => .z
  | .sysWrctrl => .c2
  | .sysClrstat => .m5
  | .sysSreset => .z
  | .pkPush => .d7
  | .pkEnd => .f1
  | .upPush => .d8
  | .upEnd => .f1
  | .rxPush => .d8
  | .rxEnd => .f1
  | .frPush => .d8
  | .frAbort => .z
  | .ftStart => .d8
  | .ftData => .d8
  | .ftEnd => .z
  | .ckInit => .d8
  | .ckAdd => .d8

/-- The bits of `DATA` a form says must be 0 (30_encoding.md R72, column "must be 0"). -/
def Form.mustBeZero : Form → Byte
  | .d8 => 0x00
  | .d7 => 0x80
  | .f1 => 0xFE
  | .c2 => 0xFC
  | .m5 => 0xE0
  | .z => 0xFF

/-- One line of assembly: a command (30_encoding.md R80), an illegal word written `.word`, or a
pseudo-instruction (R81). Operands are the numbers as written; `AsmLine.WellFormed` says which fit. -/
inductive AsmLine where
  | command (op : Op) (operand : Option Nat)
  | word (w : Nat)
  | pack (vs : List Nat) (flush : Bool)
  | unpack (bs : List Nat) (flush : Bool)
  | rxmsg (bs : List Nat) (flush : Bool)
  | txframe (id : Nat) (payload : List Nat)
  | cksum (bs : List Nat)
  | clrall
  deriving DecidableEq, Repr

end Sys2Proof
end

