-- ==== Sys2Proof/Decode.lean ====
section
/-!
DEFINITION. Decoding (30_encoding.md R70 to R79), total on all 65,536 words and rejecting by name, then the encoder,
and the opcode map of R73 as a table of its own.
-/

namespace Sys2Proof

/-- Why a word is illegal. -/
inductive IllegalReason where
  /-- `UNIT` 6 to 15 (30_encoding.md R75). -/
  | unassignedUnit
  /-- A `FUNC` its unit does not assign (R76). -/
  | unassignedFunc
  /-- A bit of `DATA` that the command's form says must be 0 is 1 (R77). -/
  | mustBeZeroBitSet
  deriving DecidableEq, Repr

/-- What a word decodes to: one command, or illegal (30_encoding.md R74). -/
inductive Decoded where
  | command (i : Instr)
  | illegal (r : IllegalReason)
  deriving DecidableEq, Repr

/-- `UNIT <- w[15:12]` (30_encoding.md R71). -/
def unitField (w : Word) : BitVec 4 := w.extractLsb' 12 4

/-- `FUNC <- w[11:8]` (30_encoding.md R71). -/
def funcField (w : Word) : BitVec 4 := w.extractLsb' 8 4

/-- `DATA <- w[7:0]` (30_encoding.md R71). -/
def dataField (w : Word) : Byte := w.extractLsb' 0 8

/-- The operation of a `(UNIT, FUNC)` pair (30_encoding.md R73); none where R75 or R76 leaves it unassigned. -/
def opOf (unit func : BitVec 4) : Option Op :=
  match unit.toNat, func.toNat with
  | 0, 0 => some .sysNop
  | 0, 1 => some .sysWrctrl
  | 0, 2 => some .sysClrstat
  | 0, 3 => some .sysSreset
  | 1, 0 => some .pkPush
  | 1, 1 => some .pkEnd
  | 2, 0 => some .upPush
  | 2, 1 => some .upEnd
  | 2, 2 => some .rxPush
  | 2, 3 => some .rxEnd
  | 3, 0 => some .frPush
  | 3, 1 => some .frAbort
  | 4, 0 => some .ftStart
  | 4, 1 => some .ftData
  | 4, 2 => some .ftEnd
  | 5, 0 => some .ckInit
  | 5, 1 => some .ckAdd
  | _, _ => none

/-- The instruction of an operation and its `DATA`: the operand is the used bits of the form (30_encoding.md R72). -/
def Op.withData (op : Op) (data : Byte) : Instr :=
  match op with
  | .sysNop => .sysNop
  | .sysWrctrl => .sysWrctrl (data.extractLsb' 0 2)
  | .sysClrstat => .sysClrstat (data.extractLsb' 0 5)
  | .sysSreset => .sysSreset
  | .pkPush => .pkPush (data.extractLsb' 0 7)
  | .pkEnd => .pkEnd (data.getLsbD 0)
  | .upPush => .upPush data
  | .upEnd => .upEnd (data.getLsbD 0)
  | .rxPush => .rxPush data
  | .rxEnd => .rxEnd (data.getLsbD 0)
  | .frPush => .frPush data
  | .frAbort => .frAbort
  | .ftStart => .ftStart data
  | .ftData => .ftData data
  | .ftEnd => .ftEnd
  | .ckInit => .ckInit data
  | .ckAdd => .ckAdd data

/-- The decoder (30_encoding.md R74 to R77): every word is one command or illegal. -/
def decode (w : Word) : Decoded :=
  if 6 ≤ (unitField w).toNat then .illegal .unassignedUnit
  else
    match opOf (unitField w) (funcField w) with
    | none => .illegal .unassignedFunc
    | some op =>
      if dataField w &&& op.form.mustBeZero = 0 then .command (op.withData (dataField w))
      else .illegal .mustBeZeroBitSet

/-- `UNIT` of each operation (30_encoding.md R73). -/
def Op.unit : Op → BitVec 4
  | .sysNop | .sysWrctrl | .sysClrstat | .sysSreset => 0
  | .pkPush | .pkEnd => 1
  | .upPush | .upEnd | .rxPush | .rxEnd => 2
  | .frPush | .frAbort => 3
  | .ftStart | .ftData | .ftEnd => 4
  | .ckInit | .ckAdd => 5

/-- `FUNC` of each operation (30_encoding.md R73). -/
def Op.func : Op → BitVec 4
  | .sysNop | .pkPush | .upPush | .frPush | .ftStart | .ckInit => 0
  | .sysWrctrl | .pkEnd | .upEnd | .frAbort | .ftData | .ckAdd => 1
  | .sysClrstat | .rxPush | .ftEnd => 2
  | .sysSreset | .rxEnd => 3

/-- `DATA` of an instruction: its operand in the low bits, 0 above (30_encoding.md R72). -/
def Instr.data : Instr → Byte
  | .sysNop | .sysSreset | .frAbort | .ftEnd => 0
  | .sysWrctrl c => c.setWidth 8
  | .sysClrstat m => m.setWidth 8
  | .pkPush v => v.setWidth 8
  | .pkEnd f | .upEnd f | .rxEnd f => (BitVec.ofBool f).setWidth 8
  | .upPush b | .rxPush b | .frPush b | .ftStart b | .ftData b | .ckInit b | .ckAdd b => b

/-- The encoder: the word of an instruction, `{UNIT, FUNC, DATA}` (30_encoding.md R70, R80). -/
def encode (i : Instr) : Word := i.op.unit ++ i.op.func ++ i.data

/-- One row of the opcode map of 30_encoding.md R73. -/
structure OpcodeRow where
  op    : Op
  form  : Form
  bits  : Word
  mask  : Word
  deriving DecidableEq, Repr

/-- A word selects a row when `(w & mask) = match` (30_encoding.md R73). -/
def OpcodeRow.selects (r : OpcodeRow) (w : Word) : Bool := w &&& r.mask == r.bits

/-- The opcode map as 30_encoding.md R73 prints it: form, match and mask of each command. -/
def opcodeMap : List OpcodeRow :=
  [ ⟨.sysNop, .z, 0x0000, 0xFFFF⟩, ⟨.sysWrctrl, .c2, 0x0100, 0xFFFC⟩,
    ⟨.sysClrstat, .m5, 0x0200, 0xFFE0⟩, ⟨.sysSreset, .z, 0x0300, 0xFFFF⟩,
    ⟨.pkPush, .d7, 0x1000, 0xFF80⟩, ⟨.pkEnd, .f1, 0x1100, 0xFFFE⟩,
    ⟨.upPush, .d8, 0x2000, 0xFF00⟩, ⟨.upEnd, .f1, 0x2100, 0xFFFE⟩,
    ⟨.rxPush, .d8, 0x2200, 0xFF00⟩, ⟨.rxEnd, .f1, 0x2300, 0xFFFE⟩,
    ⟨.frPush, .d8, 0x3000, 0xFF00⟩, ⟨.frAbort, .z, 0x3100, 0xFFFF⟩,
    ⟨.ftStart, .d8, 0x4000, 0xFF00⟩, ⟨.ftData, .d8, 0x4100, 0xFF00⟩,
    ⟨.ftEnd, .z, 0x4200, 0xFFFF⟩,
    ⟨.ckInit, .d8, 0x5000, 0xFF00⟩, ⟨.ckAdd, .d8, 0x5100, 0xFF00⟩ ]

/-- The command word of the bits `w` of a table row of `nbits` bits, the bits above `nbits` being 0. Every command is
one 16-bit word transferred whole, so there is no byte order to apply (30_encoding.md R70, 20_memory.md R55). -/
def wordOfBits (nbits w : Nat) : Word := BitVec.ofNat 16 (w % 2 ^ nbits)

/-- The instruction the decoder reads from the bits of an opcode-table row. -/
def decodeTableWord (nbits w : Nat) : Option Instr :=
  match decode (wordOfBits nbits w) with
  | .command i => some i
  | .illegal _ => none

end Sys2Proof
end

