-- ==== Sys2Proof/Config.lean ====
section
/-!
DEFINITION. What is fixed for one PF7: the implementation parameters (00_scope.md R8) and the numeric
literals of the protocol, kept as definitions of their own (93_implementation_defined.md I12).
-/

namespace Sys2Proof

/-- The implementation parameters of 00_scope.md R8. They are fixed for the life of the hardware (10_state.md R22). -/
structure Params where
  /-- `FR_DEPTH`: capacity of the frame buffer in bytes. -/
  frDepth  : Nat
  /-- `PKO_DEPTH`: entries of the `PKO` FIFO. -/
  pkoDepth : Nat
  /-- `UPO_DEPTH`: entries of the `UPO` FIFO. -/
  upoDepth : Nat
  /-- `FRO_DEPTH`: entries (whole frames) of the `FRO` FIFO. -/
  froDepth : Nat
  /-- `FTO_DEPTH`: entries of the `FTO` FIFO. -/
  ftoDepth : Nat
  deriving DecidableEq, Repr

/-- The legal ranges of 00_scope.md R8. -/
abbrev Params.Legal (p : Params) : Prop :=
  2 ≤ p.frDepth ∧ p.frDepth ≤ 255 ∧ 1 ≤ p.pkoDepth ∧ 2 ≤ p.upoDepth ∧ 1 ≤ p.froDepth ∧ 2 ≤ p.ftoDepth

namespace Config

/-- The parameters of the machine `State.reset` describes. `FR_DEPTH` is the default of R8.
DESIGN CHOICE (log entry 1): R8 leaves the four FIFO depths open, and 65536 stands for "deep enough"
(95_test_vectors.md section 1). -/
def params : Params :=
  { frDepth := 255, pkoDepth := 65536, upoDepth := 65536, froDepth := 65536, ftoDepth := 65536 }

/-- `frameStart` (00_scope.md R14). UNVERIFIED literal (R7; log entry 14). -/
def frameStart : Byte := 2

/-- `frameEnd` (00_scope.md R14). UNVERIFIED literal (R7; log entry 14). -/
def frameEnd : Byte := 3

/-- The floor threshold of 41_checksum.md R130: a fold below it is raised. UNVERIFIED literal (R7; log entry 14). -/
def floorThreshold : Byte := 10

/-- The floor offset of 41_checksum.md R130. UNVERIFIED literal (R7; log entry 14). -/
def floorOffset : Byte := 10

end Config

end Sys2Proof
end

