-- ==== Sys2Proof/Machine/State.lean ====
section
/-!
DEFINITION. The state of PF7 (10_state.md R35) as plain data, with the host side of its interfaces
(20_memory.md R51, R63), the reset state (70_reset_and_hazards.md R230), and the reasons a step can stop.
-/

namespace Sys2Proof.Machine

/-- PF7 takes no trap and no event stops it (60_exceptions.md R200, R209), so there is no fault to name:
the type is empty, and that no step faults is a theorem, not a convention (log entry 17). -/
inductive Fault where
  deriving DecidableEq, Repr

/-- The host's rejection of an instruction that has no meaning yet. -/
inductive Refusal where
  /-- Raised by an arm of `exec` without a meaning; no arm of this model raises it. Safe. -/
  | notModelled (mnemonic : String)
  deriving DecidableEq, Repr

/-- `FR.state` (10_state.md R28). The encoding 3 is never held, and no constructor expresses it. -/
inductive FrState where
  | idle | collecting | overrun
  deriving DecidableEq, Repr

/-- The packer's residual bits, right-justified, first bit most significant (10_state.md R25). -/
structure Packer where
  acc : BitVec 7
  n   : BitVec 3
  deriving DecidableEq, Repr

/-- An unpacker's residual bits (10_state.md R26 for `UP`, R27 for `RX`). -/
structure Unpacker where
  acc : BitVec 6
  n   : BitVec 3
  deriving DecidableEq, Repr

/-- The frame receiver: `FR.state` (10_state.md R28) and `FR.buf` (R29), `FR.len` being the buffer's length. -/
structure Receiver where
  state : FrState
  buf   : List Byte
  deriving DecidableEq, Repr

/-- The frame transmitter: `FT.open` and `FT.x` (10_state.md R30). -/
structure Transmitter where
  opened : Bool
  x      : Byte
  deriving DecidableEq, Repr

/-- An output FIFO (10_state.md R32): the entries it holds, head first, and the entries the host has removed since
reset, oldest first (log entry 6). -/
structure Fifo (α : Type) where
  taken   : List α
  entries : List α
  deriving DecidableEq, Repr

/-- The empty FIFO of reset (10_state.md R32). -/
def Fifo.empty {α : Type} : Fifo α := { taken := [], entries := [] }

/-- The full sequence emitted since reset, removed entries included (10_state.md R32, 70_reset_and_hazards.md R247). -/
def Fifo.emitted {α : Type} (q : Fifo α) : List α := q.taken ++ q.entries

/-- The four output FIFOs (10_state.md R32). -/
inductive FifoId where
  | pko | upo | fro | fto
  deriving DecidableEq, Repr

/-- The four interactions the host has with PF7 (20_memory.md R63). -/
inductive HostEvent where
  /-- Present a command word; it stays on the port until accepted. -/
  | present (w : Word)
  /-- Read the register at a 3-bit address. -/
  | read (a : BitVec 3)
  /-- Remove the head of a FIFO. -/
  | remove (f : FifoId)
  /-- Assert hardware reset. -/
  | reset
  deriving DecidableEq, Repr

/-- The state: the tuple of 10_state.md R35, the parameters (R22), and the host side of the interfaces. -/
@[ext]
structure State where
  /-- The parameters, an argument of the step (R22; log entry 1). -/
  params     : Params
  /-- `CTRL`: bit 0 `TAG`, bit 1 `TXFORM` (R23). -/
  ctrl       : BitVec 2
  /-- `STATUS`: bit 0 `CKERR`, 1 `SHORT`, 2 `OVF`, 3 `ILL`, 4 `SEQ` (R24). -/
  status     : BitVec 5
  /-- `PK.acc`, `PK.n` (R25). -/
  pk         : Packer
  /-- `UP.acc`, `UP.n` (R26). -/
  up         : Unpacker
  /-- `RX.acc`, `RX.n` (R27). -/
  rx         : Unpacker
  /-- `FR.state`, `FR.buf` (R28, R29). -/
  fr         : Receiver
  /-- `FT.open`, `FT.x` (R30). -/
  ft         : Transmitter
  /-- `CK.acc` (R31). -/
  ck         : Byte
  /-- The four output FIFOs (R32). -/
  pko        : Fifo Byte
  upo        : Fifo Byte
  fro        : Fifo (List Byte)
  fto        : Fifo Byte
  /-- The word presented on the command port and not yet accepted (20_memory.md R51). -/
  port       : Option Word
  /-- What the host does next, first to last (20_memory.md R63; log entry 2). -/
  hostEvents : List HostEvent
  /-- Address and value of every register read answered, oldest first (20_memory.md R52; log entry 7). -/
  answers    : List (BitVec 3 × Word)
  deriving DecidableEq, Repr

/-- The reset state of 70_reset_and_hazards.md R230 on hardware with parameters `p`, nothing presented. -/
def State.resetWith (p : Params) : State :=
  { params := p
    ctrl := 0, status := 0
    pk := { acc := 0, n := 0 }
    up := { acc := 0, n := 0 }
    rx := { acc := 0, n := 0 }
    fr := { state := .idle, buf := [] }
    ft := { opened := false, x := 0 }
    ck := 0
    pko := .empty, upo := .empty, fro := .empty, fto := .empty
    port := none, hostEvents := [], answers := [] }

/-- The machine right after reset (70_reset_and_hazards.md R230, R232), with the parameters of `Config.params`. -/
def State.reset : State := State.resetWith Config.params

end Sys2Proof.Machine
end

