-- ==== Sys2Proof/Machine/Flags.lean ====
section
/-!
DEFINITION. The sticky STATUS bits: every way a bit is set or cleared (10_state.md R24, 60_exceptions.md R200 to R207).
An error event is no trap (R209): raising one sets its bit, and nothing else is saved, changed or stopped.
-/

namespace Sys2Proof.Machine

/-- The five error events (60_exceptions.md R200). -/
inductive StatusBit where
  | ckerr | short | ovf | ill | seq
  deriving DecidableEq, Repr

/-- The cause code of an event, its STATUS bit number (60_exceptions.md R200). -/
def StatusBit.code : StatusBit → Nat
  | .ckerr => 0
  | .short => 1
  | .ovf => 2
  | .ill => 3
  | .seq => 4

/-- The STATUS word with only this bit set. -/
def StatusBit.mask (b : StatusBit) : BitVec 5 := 1#5 <<< b.code

/-- A STATUS bit of a state (10_state.md R24). -/
def State.stat (s : State) (b : StatusBit) : Bool := s.status.getLsbD b.code

/-- `setstat(B)`: set one sticky bit (00_scope.md R12, 60_exceptions.md R200). The one operation by which any
error event is recorded. -/
def State.setstat (b : StatusBit) (s : State) : State := { s with status := s.status ||| b.mask }

/-- Clear the STATUS bits a mask selects (44_system.md R192). -/
def State.clrstat (m : BitVec 5) (s : State) : State := { s with status := s.status &&& ~~~m }

end Sys2Proof.Machine
end

