-- ==== Sys2Proof/Machine/Operands.lean ====
section
/-!
DEFINITION. What the operands and the control fields mean to the commands that read them (30_encoding.md R72,
10_state.md R23). The `d8` and `d7` operands are used as they are, at 8 and 7 bits.
-/

namespace Sys2Proof.Machine

/-- The new `TAG` a `c2` operand carries (30_encoding.md R72). -/
def newTag (c : BitVec 2) : BitVec 1 := c.extractLsb' 0 1

/-- The new `TXFORM` a `c2` operand carries (30_encoding.md R72). -/
def newTxform (c : BitVec 2) : BitVec 1 := c.extractLsb' 1 1

/-- `CTRL.TAG` (10_state.md R23). -/
def State.tag (s : State) : Bool := s.ctrl.getLsbD 0

/-- `CTRL.TXFORM` (10_state.md R23). -/
def State.txform (s : State) : Bool := s.ctrl.getLsbD 1

/-- An unpacked value: the tag in bit 7, the low 7 bits of `x` below it (40_bitpack.md R108, R112). -/
def tagged (tag : Bool) (x : Nat) : Byte := BitVec.ofBool tag ++ BitVec.ofNat 7 x

end Sys2Proof.Machine
end

