-- ==== Sys2Proof/Machine/Ops.lean ====
section
/-!
DEFINITION. The operations the commands share: FIFO appends and removals, the bit regrouping of the packer and the
unpackers (40_bitpack.md R102, R103, R112), the checksum function (41_checksum.md R130), the receive step
(42_frame_rx.md R140), and the two resets (70_reset_and_hazards.md R230, R231).

PF7 takes no trap and has no return from one (60_exceptions.md R209, R210): its error events are `State.setstat`.
It has no memory (20_memory.md R50).
-/

namespace Sys2Proof.Machine

/-! ### FIFOs -/

/-- Append values at the tail, in order (00_scope.md R12, `emit`). -/
def Fifo.append {α : Type} (q : Fifo α) (vs : List α) : Fifo α := { q with entries := q.entries ++ vs }

/-- The free entries of a FIFO of a given depth (70_reset_and_hazards.md R240). -/
def Fifo.free {α : Type} (q : Fifo α) (depth : Nat) : Nat := depth - q.entries.length

/-- The host removes the head (20_memory.md R57). An empty FIFO has no head to remove and stays as it is
(DEDUCED, log entry 4). -/
def Fifo.remove {α : Type} (q : Fifo α) : Fifo α :=
  match q.entries with
  | [] => q
  | x :: xs => { taken := q.taken ++ [x], entries := xs }

def State.emitPko (bs : List Byte) (s : State) : State := { s with pko := s.pko.append bs }
def State.emitUpo (vs : List Byte) (s : State) : State := { s with upo := s.upo.append vs }
def State.emitFro (frame : List Byte) (s : State) : State := { s with fro := s.fro.append [frame] }
def State.emitFto (bs : List Byte) (s : State) : State := { s with fto := s.fto.append bs }

/-! ### Bit regrouping -/

/-- One value into the packer: the new residual bits and the bytes emitted, none or one (40_bitpack.md R102). -/
def packStep (r : Packer) (v : U7) : Packer × List Byte :=
  let t := r.acc.toNat * 128 + v.toNat
  let m := r.n.toNat + 7
  if 8 ≤ m then
    ({ acc := BitVec.ofNat 7 (t % 2 ^ (m - 8)), n := BitVec.ofNat 3 (m - 8) }, [BitVec.ofNat 8 (t >>> (m - 8))])
  else
    ({ acc := v, n := 7 }, [])

/-- The byte a flush emits: the residual bits left-justified, 0 below, if there are any (40_bitpack.md R103). -/
def packEnd (r : Packer) (f : Bool) : List Byte :=
  if f ∧ 0 < r.n.toNat then [BitVec.ofNat 8 (r.acc.toNat <<< (8 - r.n.toNat))] else []

/-- `unpack_step` (40_bitpack.md R112): the new residual bits and the one or two values emitted. -/
def unpackStep (r : Unpacker) (b : Byte) (tag : Bool) : Unpacker × List Byte :=
  let t := r.acc.toNat * 256 + b.toNat
  let m := r.n.toNat + 8 - 7
  let u := tagged tag (t >>> m)
  if 7 ≤ m then
    ({ acc := BitVec.ofNat 6 (t % 2 ^ (m - 7)), n := BitVec.ofNat 3 (m - 7) }, [u, tagged tag (t >>> (m - 7))])
  else
    ({ acc := BitVec.ofNat 6 (t % 2 ^ m), n := BitVec.ofNat 3 m }, [u])

/-- `unpack_end` (40_bitpack.md R112): the flushed value, if there is one. -/
def unpackEnd (r : Unpacker) (f : Bool) (tag : Bool) : List Byte :=
  if f ∧ 0 < r.n.toNat then [tagged tag (r.acc.toNat <<< (7 - r.n.toNat))] else []

/-- No residual bits: what reset and the `END` commands leave (10_state.md R25). -/
def Packer.clear : Packer := { acc := 0, n := 0 }

/-- No residual bits: what reset and the `END` commands leave (10_state.md R26, R27). -/
def Unpacker.clear : Unpacker := { acc := 0, n := 0 }

/-! ### Checksum -/

/-- `xorfold` (00_scope.md R11). -/
def xorfold (s : List Byte) : Byte := s.foldl (· ^^^ ·) 0

/-- `ck10`: the floor adjustment (41_checksum.md R130). -/
def ck10 (r : Byte) : Byte := if r < Config.floorThreshold then r + Config.floorOffset else r

/-- `checksum` (41_checksum.md R130). -/
def checksum (s : List Byte) : Byte := ck10 (xorfold s)

/-! ### The receive step -/

/-- What one value given to the receiver brings about beside its own state: at most one frame or one event
(42_frame_rx.md R140, R153). -/
inductive RxEvent where
  | none
  | frame (f : List Byte)
  | error (b : StatusBit)
  deriving DecidableEq, Repr

/-- `frame_close` (42_frame_rx.md R140, R145 to R147): the last buffered byte is the transmitted checksum, compared
with the checksum over `frameStart` and the bytes before it. -/
def frameClose (buf : List Byte) : RxEvent :=
  if buf.length ≤ 1 then .error .short
  else if checksum (Config.frameStart :: buf.dropLast) = buf.getLastD 0 then .frame buf.dropLast
  else .error .ckerr

/-- `fr_step` (42_frame_rx.md R140 to R144, R148) on the receiver alone, for a buffer of capacity `depth`. -/
def Receiver.step (depth : Nat) (r : Receiver) (u : Byte) : Receiver × RxEvent :=
  match r.state with
  | .idle =>
    if u = Config.frameStart then ({ state := .collecting, buf := [] }, .none) else (r, .none)
  | .collecting =>
    if u = Config.frameEnd then ({ state := .idle, buf := [] }, frameClose r.buf)
    else if r.buf.length < depth then ({ r with buf := r.buf ++ [u] }, .none)
    else ({ state := .overrun, buf := [] }, .error .ovf)
  | .overrun =>
    if u = Config.frameEnd then ({ r with state := .idle }, .none) else (r, .none)

/-- What a receive event does to the machine: emit to `FRO` or set a STATUS bit (42_frame_rx.md R140). -/
def State.onRxEvent : RxEvent → State → State
  | .none, s => s
  | .frame f, s => s.emitFro f
  | .error b, s => s.setstat b

/-- `fr_step(u)` (42_frame_rx.md R140). -/
def State.frStep (s : State) (u : Byte) : State :=
  let o := s.fr.step s.params.frDepth u
  { s with fr := o.1 }.onRxEvent o.2

/-- The receiver given several values in stream order (40_bitpack.md R109). -/
def State.frSteps (s : State) (us : List Byte) : State := us.foldl State.frStep s

/-- How many valid frames the receiver closes on these values (70_reset_and_hazards.md R240). -/
def Receiver.framesClosed (depth : Nat) (r : Receiver) : List Byte → Nat
  | [] => 0
  | u :: us =>
    let o := r.step depth u
    (match o.2 with | .frame _ => 1 | _ => 0) + Receiver.framesClosed depth o.1 us

/-! ### Reset -/

/-- Every state element of 70_reset_and_hazards.md R230 but the FIFOs at its reset value: what `SYS.SRESET` does
(44_system.md R193) and hardware reset does too (R231). -/
def State.resetUnits (s : State) : State :=
  { s with
    ctrl := 0, status := 0
    pk := Packer.clear, up := Unpacker.clear, rx := Unpacker.clear
    fr := { state := .idle, buf := [] }
    ft := { opened := false, x := 0 }
    ck := 0 }

/-- Hardware reset (70_reset_and_hazards.md R230): the units and the four FIFOs. A word the host is presenting stays
presented, since it is the host's until accepted (DESIGN CHOICE, log entry 5). -/
def State.hardReset (s : State) : State :=
  { s.resetUnits with pko := .empty, upo := .empty, fro := .empty, fto := .empty }

/-! ### Acceptance -/

/-- The port is free again: the word on it has been accepted (20_memory.md R51). -/
def State.release (s : State) : State := { s with port := none }

/-- An illegal word is accepted without being held and sets `ILL` only (30_encoding.md R78). -/
def State.acceptIllegal (s : State) : State := s.release.setstat .ill

end Sys2Proof.Machine
end

