-- ==== Sys2Proof/Machine/Hold.lean ====
section
/-!
DEFINITION. The hold rule (70_reset_and_hazards.md R240): how many entries each legal command would emit to each FIFO,
when a command is held, and how a command that is not held is accepted.
-/

namespace Sys2Proof.Machine

/-- Entries to be emitted, per FIFO. -/
structure Demand where
  pko : Nat := 0
  upo : Nat := 0
  fro : Nat := 0
  fto : Nat := 0
  deriving DecidableEq, Repr

/-- The table of 70_reset_and_hazards.md R240: the entries each legal command would emit, from the state before it. -/
def demand (i : Instr) (s : State) : Demand :=
  match i with
  | .pkPush _ => { pko := if 1 ≤ s.pk.n.toNat then 1 else 0 }
  | .pkEnd f => { pko := if f ∧ 1 ≤ s.pk.n.toNat then 1 else 0 }
  | .upPush _ => { upo := if 6 ≤ s.up.n.toNat then 2 else 1 }
  | .upEnd f => { upo := if f ∧ 1 ≤ s.up.n.toNat then 1 else 0 }
  | .rxPush b => { fro := s.fr.framesClosed s.params.frDepth (unpackStep s.rx b false).2 }
  | .rxEnd f => { fro := s.fr.framesClosed s.params.frDepth (unpackEnd s.rx f false) }
  | .frPush u => { fro := s.fr.framesClosed s.params.frDepth [u] }
  | .ftStart _ => { fto := if s.ft.opened then 0 else if s.txform then 2 else 1 }
  | .ftData _ => { fto := if s.ft.opened then 1 else 0 }
  | .ftEnd => { fto := if s.ft.opened then 2 else 0 }
  | .sysNop => {}
  | .sysWrctrl _ => {}
  | .sysClrstat _ => {}
  | .sysSreset => {}
  | .frAbort => {}
  | .ckInit _ => {}
  | .ckAdd _ => {}

/-- Room in the four FIFOs for a demand. -/
def State.hasRoom (s : State) (d : Demand) : Bool :=
  d.pko ≤ s.pko.free s.params.pkoDepth && d.upo ≤ s.upo.free s.params.upoDepth
    && d.fro ≤ s.fro.free s.params.froDepth && d.fto ≤ s.fto.free s.params.ftoDepth

/-- A command is held when it would emit more entries to some FIFO than that FIFO has free
(70_reset_and_hazards.md R240). -/
def held (i : Instr) (s : State) : Bool := !s.hasRoom (demand i s)

/-- A command offered to PF7: while held, it is not executed and the state does not change; otherwise it is accepted,
the port is released and its whole effect takes place (70_reset_and_hazards.md R240, 20_memory.md R57). -/
def offer (i : Instr) (effect : State → State) (s : State) : Host.Outcome State Fault Refusal :=
  if held i s then .next s else .next (effect s.release)

end Sys2Proof.Machine
end

