-- ==== Sys2Proof/Machine/Checksum.lean ====
section
/-!
DEFINITION. The meanings of the checksum unit's commands (41_checksum.md).
-/

namespace Sys2Proof.Machine

/-- `CK.INIT d` (41_checksum.md R132). -/
def execCkInit (d : Byte) (s : State) : Host.Outcome State Fault Refusal :=
  offer (.ckInit d) (fun t => { t with ck := d }) s

/-- `CK.ADD d` (41_checksum.md R133). -/
def execCkAdd (d : Byte) (s : State) : Host.Outcome State Fault Refusal :=
  offer (.ckAdd d) (fun t => { t with ck := t.ck ^^^ d }) s

end Sys2Proof.Machine
end

