-- ==== Sys2Proof/Machine/FrameRx.lean ====
section
/-!
DEFINITION. The meanings of the frame receiver's commands (42_frame_rx.md section 3).
-/

namespace Sys2Proof.Machine

/-- `FR.PUSH u` (42_frame_rx.md R149). -/
def execFrPush (u : Byte) (s : State) : Host.Outcome State Fault Refusal :=
  offer (.frPush u) (fun t => t.frStep u) s

/-- `FR.ABORT` (42_frame_rx.md R150). -/
def execFrAbort (s : State) : Host.Outcome State Fault Refusal :=
  offer .frAbort (fun t => { t with fr := { state := .idle, buf := [] } }) s

end Sys2Proof.Machine
end

