-- ==== Sys2Proof/Machine/FrameTx.lean ====
section
/-!
DEFINITION. The meanings of the frame transmitter's commands (43_frame_tx.md section 2). In the wrong transmitter
state each sets `SEQ` and does nothing else (60_exceptions.md R205).
-/

namespace Sys2Proof.Machine

/-- `FT.START i` (43_frame_tx.md R171). -/
def execFtStart (i : Byte) (s : State) : Host.Outcome State Fault Refusal :=
  offer (.ftStart i)
    (fun t =>
      if t.ft.opened then t.setstat .seq
      else if t.txform then
        { t with ft := { opened := true, x := Config.frameStart ^^^ i } }.emitFto [Config.frameStart, i]
      else { t with ft := { opened := true, x := i } }.emitFto [i]) s

/-- `FT.DATA b` (43_frame_tx.md R172). -/
def execFtData (b : Byte) (s : State) : Host.Outcome State Fault Refusal :=
  offer (.ftData b)
    (fun t =>
      if t.ft.opened then { t with ft := { t.ft with x := t.ft.x ^^^ b } }.emitFto [b] else t.setstat .seq) s

/-- `FT.END` (43_frame_tx.md R173): `FT.x` keeps its value. -/
def execFtEnd (s : State) : Host.Outcome State Fault Refusal :=
  offer .ftEnd
    (fun t =>
      if t.ft.opened then { t with ft := { t.ft with opened := false } }.emitFto [ck10 t.ft.x, Config.frameEnd]
      else t.setstat .seq) s

end Sys2Proof.Machine
end

