-- ==== Sys2Proof/Machine/Pack.lean ====
section
/-!
DEFINITION. The meanings of the packer's commands (40_bitpack.md section 1).
-/

namespace Sys2Proof.Machine

/-- `PK.PUSH v` (40_bitpack.md R102). -/
def execPkPush (v : U7) (s : State) : Host.Outcome State Fault Refusal :=
  offer (.pkPush v) (fun t => { t with pk := (packStep t.pk v).1 }.emitPko (packStep t.pk v).2) s

/-- `PK.END f` (40_bitpack.md R103). -/
def execPkEnd (f : Bool) (s : State) : Host.Outcome State Fault Refusal :=
  offer (.pkEnd f) (fun t => { t with pk := Packer.clear }.emitPko (packEnd t.pk f)) s

end Sys2Proof.Machine
end

