-- ==== Sys2Proof/Machine/Sys.lean ====
section
/-!
DEFINITION. The meanings of the `SYS` commands (44_system.md).
-/

namespace Sys2Proof.Machine

/-- `SYS.NOP` (44_system.md R190): no state change. -/
def execSysNop (s : State) : Host.Outcome State Fault Refusal := offer .sysNop id s

/-- `SYS.WRCTRL c` (44_system.md R191): bit 0 is the new `TAG`, bit 1 the new `TXFORM`. -/
def execSysWrctrl (c : BitVec 2) (s : State) : Host.Outcome State Fault Refusal :=
  offer (.sysWrctrl c) (fun t => { t with ctrl := newTxform c ++ newTag c }) s

/-- `SYS.CLRSTAT m` (44_system.md R192). -/
def execSysClrstat (m : BitVec 5) (s : State) : Host.Outcome State Fault Refusal :=
  offer (.sysClrstat m) (State.clrstat m) s

/-- `SYS.SRESET` (44_system.md R193): every unit to its reset state, the output FIFOs kept. -/
def execSysSreset (s : State) : Host.Outcome State Fault Refusal := offer .sysSreset State.resetUnits s

end Sys2Proof.Machine
end

