-- ==== Sys2Proof/Machine/Unpack.lean ====
section
/-!
DEFINITION. The meanings of the unpackers' commands (40_bitpack.md sections 2 and 3).
-/

namespace Sys2Proof.Machine

/-- `UP.PUSH b` (40_bitpack.md R105), the tag being `CTRL.TAG` as it stands (R108). -/
def execUpPush (b : Byte) (s : State) : Host.Outcome State Fault Refusal :=
  offer (.upPush b) (fun t => { t with up := (unpackStep t.up b t.tag).1 }.emitUpo (unpackStep t.up b t.tag).2) s

/-- `UP.END f` (40_bitpack.md R106), the tag being `CTRL.TAG` as it stands (R108). -/
def execUpEnd (f : Bool) (s : State) : Host.Outcome State Fault Refusal :=
  offer (.upEnd f) (fun t => { t with up := Unpacker.clear }.emitUpo (unpackEnd t.up f t.tag)) s

/-- `RX.PUSH b` (40_bitpack.md R109): the values, tag 0, go to the receiver in stream order. -/
def execRxPush (b : Byte) (s : State) : Host.Outcome State Fault Refusal :=
  offer (.rxPush b) (fun t => { t with rx := (unpackStep t.rx b false).1 }.frSteps (unpackStep t.rx b false).2) s

/-- `RX.END f` (40_bitpack.md R110). -/
def execRxEnd (f : Bool) (s : State) : Host.Outcome State Fault Refusal :=
  offer (.rxEnd f) (fun t => { t with rx := Unpacker.clear }.frSteps (unpackEnd t.rx f false)) s

end Sys2Proof.Machine
end

