-- ==== Sys2Proof/Machine/Dispatch.lean ====
section
/-!
DEFINITION. One arm per command of 30_encoding.md R73, each one call of its meaning.
-/

namespace Sys2Proof.Machine

def exec (i : Instr) (s : State) : Host.Outcome State Fault Refusal :=
  match i with
  | .sysNop => Sys2Proof.Machine.execSysNop s
  | .sysWrctrl c => Sys2Proof.Machine.execSysWrctrl c s
  | .sysClrstat m => Sys2Proof.Machine.execSysClrstat m s
  | .sysSreset => Sys2Proof.Machine.execSysSreset s
  | .pkPush v => Sys2Proof.Machine.execPkPush v s
  | .pkEnd f => Sys2Proof.Machine.execPkEnd f s
  | .upPush b => Sys2Proof.Machine.execUpPush b s
  | .upEnd f => Sys2Proof.Machine.execUpEnd f s
  | .rxPush b => Sys2Proof.Machine.execRxPush b s
  | .rxEnd f => Sys2Proof.Machine.execRxEnd f s
  | .frPush u => Sys2Proof.Machine.execFrPush u s
  | .frAbort => Sys2Proof.Machine.execFrAbort s
  | .ftStart d => Sys2Proof.Machine.execFtStart d s
  | .ftData b => Sys2Proof.Machine.execFtData b s
  | .ftEnd => Sys2Proof.Machine.execFtEnd s
  | .ckInit d => Sys2Proof.Machine.execCkInit d s
  | .ckAdd d => Sys2Proof.Machine.execCkAdd d s

end Sys2Proof.Machine
end

