-- ==== Sys2Proof/Machine/Regs.lean ====
section
/-!
DEFINITION. The register read port (10_state.md R33, 20_memory.md R52): eight 16-bit values, every bit not listed 0.
-/

namespace Sys2Proof.Machine

/-- The encoding of `FR.state` in `FR_ST[9:8]` (10_state.md R28, R33). -/
def FrState.code : FrState → BitVec 2
  | .idle => 0
  | .collecting => 1
  | .overrun => 2

/-- `CTRL`, address 0. -/
def State.ctrlReg (s : State) : Word := s.ctrl.setWidth 16

/-- `STATUS`, address 1. -/
def State.statusReg (s : State) : Word := s.status.setWidth 16

/-- `PK_ST`, address 2: `[2:0]` `PK.n`, `[14:8]` `PK.acc`. -/
def State.pkSt (s : State) : Word := 0#1 ++ s.pk.acc ++ 0#5 ++ s.pk.n

/-- `UP_ST`, address 3: `[2:0]` `UP.n`, `[13:8]` `UP.acc`. -/
def State.upSt (s : State) : Word := 0#2 ++ s.up.acc ++ 0#5 ++ s.up.n

/-- `RX_ST`, address 4: `[2:0]` `RX.n`, `[13:8]` `RX.acc`. -/
def State.rxSt (s : State) : Word := 0#2 ++ s.rx.acc ++ 0#5 ++ s.rx.n

/-- `FR_ST`, address 5: `[7:0]` `FR.len`, `[9:8]` `FR.state`. -/
def State.frSt (s : State) : Word := 0#6 ++ s.fr.state.code ++ BitVec.ofNat 8 s.fr.buf.length

/-- `FT_ST`, address 6: `[7:0]` `FT.x`, `[8]` `FT.open`. -/
def State.ftSt (s : State) : Word := 0#7 ++ BitVec.ofBool s.ft.opened ++ s.ft.x

/-- `CK_ST`, address 7: `[7:0]` `CK.acc`, `[15:8]` `ck10(CK.acc)`. -/
def State.ckSt (s : State) : Word := ck10 s.ck ++ s.ck

/-- The value the port answers at an address; all eight are defined (20_memory.md R52). -/
def State.readReg (s : State) (a : BitVec 3) : Word :=
  match a.toNat with
  | 0 => s.ctrlReg
  | 1 => s.statusReg
  | 2 => s.pkSt
  | 3 => s.upSt
  | 4 => s.rxSt
  | 5 => s.frSt
  | 6 => s.ftSt
  | _ => s.ckSt

end Sys2Proof.Machine
end

