-- ==== Sys2Proof/Machine/HostSide.lean ====
section
/-!
DEFINITION. What the host's interactions do (20_memory.md R52, R57, R63): reads, removals, reset, and presenting a word.
-/

namespace Sys2Proof.Machine

/-- Remove the head of one FIFO; nothing but that FIFO changes (20_memory.md R57). -/
def State.removeHead (f : FifoId) (s : State) : State :=
  match f with
  | .pko => { s with pko := s.pko.remove }
  | .upo => { s with upo := s.upo.remove }
  | .fro => { s with fro := s.fro.remove }
  | .fto => { s with fto := s.fto.remove }

/-- The register read port answers; PF7's state does not change (20_memory.md R52). -/
def State.answerRead (a : BitVec 3) (s : State) : State := { s with answers := s.answers ++ [(a, s.readReg a)] }

/-- The host takes its next action. A word waits while another is still presented, since commands are accepted in
order (70_reset_and_hazards.md R245); with nothing left to do, nothing happens (60_exceptions.md R215; log entry 3).
DESIGN CHOICE (log entry 2): the host does what its list says in the order of the list, so whatever follows a waiting
presentation waits too, be it the removal that would make room. -/
def hostTurn (s : State) : State :=
  match s.hostEvents with
  | [] => s
  | .present w :: rest => if s.port.isSome then s else { s with port := some w, hostEvents := rest }
  | .read a :: rest => { s with hostEvents := rest }.answerRead a
  | .remove f :: rest => { s with hostEvents := rest }.removeHead f
  | .reset :: rest => { s with hostEvents := rest }.hardReset

end Sys2Proof.Machine
end

