-- ==== Sys2Proof/Machine/Step.lean ====
section
/-!
DEFINITION. One step: the word on the command port is accepted if it can be; otherwise the host acts
(70_reset_and_hazards.md R240, 20_memory.md R60; log entries 2, 3).
-/

namespace Sys2Proof.Machine

/-- One step. A presented illegal word is accepted at once; a presented command runs unless it is held; while it is
held, and while nothing is presented, it is the host's turn. -/
def step (s : State) : Host.Outcome State Fault Refusal :=
  match s.port with
  | none => .next (hostTurn s)
  | some w =>
    match decode w with
    | .illegal _ => .next s.acceptIllegal
    | .command i => if held i s then .next (hostTurn s) else exec i s

/-- The state with the word of a table row presented on the command port, so that the next step runs it
(log entry 9: a program is what the host presents; PF7 holds none). -/
def State.withFetchWord (s : State) (nbits w : Nat) : State := { s with port := some (wordOfBits nbits w) }

end Sys2Proof.Machine
end

