-- ==== Sys2Proof/WellFormed.lean ====
section
/-!
DEFINITION. What the assembler accepts (30_encoding.md R80, R81). Every term of `Instr` is well formed by its
operand types; an assembly line carries the numbers as written, and these checks say which of them fit their form.
-/

namespace Sys2Proof

/-- The operand a form admits: none for `z`, else a number in the range of 30_encoding.md R80. -/
def Form.fits : Form → Option Nat → Bool
  | .d8, some n => n < 256
  | .d7, some n => n < 128
  | .f1, some n => n < 2
  | .c2, some n => n < 4
  | .m5, some n => n < 32
  | .z, none => true
  | _, _ => false

/-- An assembly line whose every number fits (30_encoding.md R80; R81 for the pseudo-instructions, through the
forms of the commands they expand to). A `.word` is any 16-bit number. -/
def AsmLine.WellFormed : AsmLine → Bool
  | .command op operand => op.form.fits operand
  | .word w => w < 65536
  | .pack vs _ => vs.all (· < 128)
  | .unpack bs _ => bs.all (· < 256)
  | .rxmsg bs _ => bs.all (· < 256)
  | .txframe id payload => id < 256 && payload.all (· < 256)
  | .cksum bs => bs.all (· < 256)
  | .clrall => true

end Sys2Proof
end

