-- ==== Sys2Proof/Machine/Assembler.lean ====
section
/-!
DEFINITION. The assembler of 30_encoding.md R80 and the pseudo-instructions of R81, from text to command words.
Text is a list of characters. Details of the text the rules leave open are log entry 16.
-/

namespace Sys2Proof.Machine

/-! ### Pseudo-instructions as commands (30_encoding.md R81) -/

/-- `PACK`. -/
def packCommands (vs : List U7) (flush : Bool) : List Instr := vs.map .pkPush ++ [.pkEnd flush]

/-- `UNPACK`. -/
def unpackCommands (bs : List Byte) (flush : Bool) : List Instr := bs.map .upPush ++ [.upEnd flush]

/-- `RXMSG`. -/
def rxmsgCommands (bs : List Byte) (flush : Bool) : List Instr := bs.map .rxPush ++ [.rxEnd flush]

/-- `TXFRAME`. -/
def txframeCommands (id : Byte) (payload : List Byte) : List Instr := .ftStart id :: payload.map .ftData ++ [.ftEnd]

/-- `CKSUM`. -/
def cksumCommands (bs : List Byte) : List Instr := .ckInit 0 :: bs.map .ckAdd

/-- `CLRALL`. -/
def clrallCommands : List Instr := [.sysClrstat 0x1F]

/-! ### Lines to words -/

/-- The number an instruction's operand is written as; a `z` command takes none (30_encoding.md R80). -/
def operandOf (i : Instr) : Option Nat := if i.op.form = .z then none else some i.data.toNat

/-- `w = (UNIT << 12) | (FUNC << 8) | operand` (30_encoding.md R80). -/
def commandWord (op : Op) (operand : Nat) : Word :=
  (op.unit.setWidth 16 <<< 12) ||| (op.func.setWidth 16 <<< 8) ||| BitVec.ofNat 16 operand

/-- The words of a well-formed line (30_encoding.md R80, R81); none for a line whose numbers do not fit. -/
def assemble (l : AsmLine) : Option (List Word) :=
  if l.WellFormed then
    some (match l with
      | .command op operand => [commandWord op (operand.getD 0)]
      | .word w => [BitVec.ofNat 16 w]
      | .pack vs f => vs.map (commandWord .pkPush) ++ [commandWord .pkEnd f.toNat]
      | .unpack bs f => bs.map (commandWord .upPush) ++ [commandWord .upEnd f.toNat]
      | .rxmsg bs f => bs.map (commandWord .rxPush) ++ [commandWord .rxEnd f.toNat]
      | .txframe id p => commandWord .ftStart id :: p.map (commandWord .ftData) ++ [commandWord .ftEnd 0]
      | .cksum bs => commandWord .ckInit 0 :: bs.map (commandWord .ckAdd)
      | .clrall => [commandWord .sysClrstat 0x1F])
  else none

/-! ### Text to lines -/

/-- The mnemonic of each operation (30_encoding.md R73). -/
def opName : Op → String
  | .sysNop => "SYS.NOP"
  | .sysWrctrl => "SYS.WRCTRL"
  | .sysClrstat => "SYS.CLRSTAT"
  | .sysSreset => "SYS.SRESET"
  | .pkPush => "PK.PUSH"
  | .pkEnd => "PK.END"
  | .upPush => "UP.PUSH"
  | .upEnd => "UP.END"
  | .rxPush => "RX.PUSH"
  | .rxEnd => "RX.END"
  | .frPush => "FR.PUSH"
  | .frAbort => "FR.ABORT"
  | .ftStart => "FT.START"
  | .ftData => "FT.DATA"
  | .ftEnd => "FT.END"
  | .ckInit => "CK.INIT"
  | .ckAdd => "CK.ADD"

/-- The operation of an upper-case mnemonic. -/
def opNamed (name : List Char) : Option Op :=
  (opcodeMap.map (·.op)).find? fun op => (opName op).toList == name

def isBlank (c : Char) : Bool := c == ' ' || c == '\t'

/-- A text without the blanks at its two ends. -/
def trimBlanks (l : List Char) : List Char := ((l.dropWhile isBlank).reverse.dropWhile isBlank).reverse

/-- The value of a digit in a base up to 16. -/
def digitValue (base : Nat) (c : Char) : Option Nat :=
  let c := c.toUpper
  let v := if '0' ≤ c ∧ c ≤ '9' then some (c.toNat - '0'.toNat)
    else if 'A' ≤ c ∧ c ≤ 'F' then some (c.toNat - 'A'.toNat + 10) else none
  v.filter (· < base)

/-- The number a nonempty digit string writes. -/
def digits (base : Nat) : List Char → Option Nat
  | [] => none
  | cs => cs.foldl (fun acc c => acc.bind fun a => (digitValue base c).map (a * base + ·)) (some 0)

/-- A number, decimal or `0x` hexadecimal (30_encoding.md R80). -/
def number : List Char → Option Nat
  | '0' :: 'x' :: cs => digits 16 cs
  | '0' :: 'X' :: cs => digits 16 cs
  | cs => digits 10 cs

/-- The operand of a command; `FLUSH` and `NOFLUSH` are 1 and 0 for the `f1` form (30_encoding.md R80). -/
def operandText (form : Form) (t : List Char) : Option Nat :=
  if form = .f1 ∧ t.map Char.toUpper = "FLUSH".toList then some 1
  else if form = .f1 ∧ t.map Char.toUpper = "NOFLUSH".toList then some 0
  else number t

/-- Operands and the optional `FLUSH` after them (30_encoding.md R81). -/
def operandsAndFlush (args : List (List Char)) : Option (List Nat × Bool) :=
  if args.getLast?.map (·.map Char.toUpper) = some "FLUSH".toList then
    (args.dropLast.mapM number).map (·, true)
  else (args.mapM number).map (·, false)

/-- A mnemonic, in upper case, with its operands. -/
def parseStatement (name : List Char) (args : List (List Char)) : Option AsmLine :=
  if name = "PACK".toList then (operandsAndFlush args).map fun o => .pack o.1 o.2
  else if name = "UNPACK".toList then (operandsAndFlush args).map fun o => .unpack o.1 o.2
  else if name = "RXMSG".toList then (operandsAndFlush args).map fun o => .rxmsg o.1 o.2
  else if name = "TXFRAME".toList then
    match args.mapM number with
    | some (id :: payload) => some (.txframe id payload)
    | _ => none
  else if name = "CKSUM".toList then (args.mapM number).map .cksum
  else if name = "CLRALL".toList then if args = [] then some .clrall else none
  else if name = ".WORD".toList then
    match args.mapM number with
    | some [w] => some (.word w)
    | _ => none
  else
    match opNamed name, args with
    | some op, [] => some (.command op none)
    | some op, [a] => (operandText op.form a).map fun n => .command op (some n)
    | _, _ => none

/-- One line of text (30_encoding.md R80): `some none` if there is nothing on it but a comment, `none` if it is not
assembly. DESIGN CHOICE (log entry 16): the first word is read in either case whatever it is, where R80 says so of the
mnemonics of R73 only, and not of the pseudo-instructions of R81 or of `.word`. -/
def parseLine (text : List Char) : Option (Option AsmLine) :=
  let body := trimBlanks (text.takeWhile (· != ';'))
  if body = [] then some none
  else
    let name := body.takeWhile (fun c => !isBlank c)
    let rest := trimBlanks (body.dropWhile (fun c => !isBlank c))
    let args := if rest = [] then [] else (rest.splitOn ',').map trimBlanks
    (parseStatement (name.map Char.toUpper) args).map some

/-- The words of one line of text. -/
def assembleText (text : List Char) : Option (List Word) :=
  match parseLine text with
  | none => none
  | some none => some []
  | some (some l) => assemble l

end Sys2Proof.Machine
end

