-- ==== Sys2Proof/Machine/Reference.lean ====
section
/-!
DEFINITION. The document's whole-sequence functions (40_bitpack.md R100, R101), written from their own pseudocode, and
the bit streams of 20_memory.md R54. No command calls them; the equivalences of 40_bitpack.md R104, R107, R111 and the
laws of R113 to R115 speak of them.
-/

namespace Sys2Proof.Machine

/-- The loop of `pack7to8` (40_bitpack.md R100) from an accumulator of `n` bits: what is left, and the bytes out. -/
def packLoop (acc n : Nat) : List U7 → (Nat × Nat) × List Byte
  | [] => ((acc, n), [])
  | v :: vs =>
    let acc := acc <<< 7 ||| v.toNat
    let n := n + 7
    if 8 ≤ n then
      let o := packLoop (acc &&& (2 ^ (n - 8) - 1)) (n - 8) vs
      (o.1, BitVec.ofNat 8 ((acc >>> (n - 8)) &&& 0xFF) :: o.2)
    else packLoop acc n vs

/-- `pack7to8(values, flushPartial)` (40_bitpack.md R100). -/
def pack7to8 (values : List U7) (flushPartial : Bool) : List Byte :=
  let o := packLoop 0 0 values
  let acc := o.1.1
  let n := o.1.2
  if flushPartial ∧ 0 < n then o.2 ++ [BitVec.ofNat 8 ((acc <<< (8 - n)) &&& 0xFF)] else o.2

/-- The value `(x & 0x7F) | (highBitTag << 7)` (40_bitpack.md R101). -/
def taggedValue (highBitTag : Bool) (x : Nat) : Byte :=
  BitVec.ofNat 8 ((x &&& 0x7F) ||| (highBitTag.toNat <<< 7))

/-- The inner loop of `unpack8to7` (40_bitpack.md R101), `while n >= 7`; `fuel` bounds the turns and `n` of them suffice. -/
def unpackDrain (tag : Bool) : (fuel acc n : Nat) → (Nat × Nat) × List Byte
  | 0, acc, n => ((acc, n), [])
  | fuel + 1, acc, n =>
    if 7 ≤ n then
      let o := unpackDrain tag fuel (acc &&& (2 ^ (n - 7) - 1)) (n - 7)
      (o.1, taggedValue tag (acc >>> (n - 7)) :: o.2)
    else ((acc, n), [])

/-- The loop of `unpack8to7` (40_bitpack.md R101). -/
def unpackLoop (tag : Bool) (acc n : Nat) : List Byte → (Nat × Nat) × List Byte
  | [] => ((acc, n), [])
  | b :: bs =>
    let d := unpackDrain tag (n + 8) (acc <<< 8 ||| b.toNat) (n + 8)
    let o := unpackLoop tag d.1.1 d.1.2 bs
    (o.1, d.2 ++ o.2)

/-- `unpack8to7(bytes, flushPartial, highBitTag)` (40_bitpack.md R101). -/
def unpack8to7 (bytes : List Byte) (flushPartial : Bool) (highBitTag : Bool) : List Byte :=
  let o := unpackLoop highBitTag 0 0 bytes
  let acc := o.1.1
  let n := o.1.2
  if flushPartial ∧ 0 < n then o.2 ++ [taggedValue highBitTag (acc <<< (7 - n))] else o.2

/-- The bits of a group, most significant first (20_memory.md R54). -/
def msbBits {w : Nat} (g : BitVec w) : List Bool := (List.range w).map fun i => g.getMsbD i

/-- The bit stream of a sequence of groups (20_memory.md R54). -/
def bitStream {w : Nat} (gs : List (BitVec w)) : List Bool := gs.flatMap msbBits

/-- The residual bits a packer or unpacker holds: the low `n` bits of `acc`, first bit most significant
(10_state.md R25). -/
def residualBits {w : Nat} (acc : BitVec w) (n : Nat) : List Bool := (msbBits acc).drop (w - n)

/-- The 7 data bits of an unpacked value (40_bitpack.md R108). -/
def dataBits (u : Byte) : U7 := u.setWidth 7

end Sys2Proof.Machine
end

