-- ==== Sys2Proof/Machine/Run.lean ====
section
/-!
DEFINITION. Programs, the end of a run and its result (00_scope.md R15, 70_reset_and_hazards.md R247), and what a
program does whenever its held commands get their room (R240).
-/

namespace Sys2Proof.Machine

/-! ### The end of a run -/

/-- The word of a presentation. -/
def HostEvent.word? : HostEvent → Option Word
  | .present w => some w
  | .read _ => none
  | .remove _ => none
  | .reset => none

/-- The words of the program still to be accepted: the one on the port, then those the host has yet to present, in
order (00_scope.md R15). -/
def State.program (s : State) : List Word := s.port.toList ++ s.hostEvents.filterMap HostEvent.word?

/-- Every command of the program has been accepted (70_reset_and_hazards.md R247). Reads, removals and a reset the host
may still do come after the end (log entry 18). -/
def State.finished (s : State) : Bool := s.program.isEmpty

/-- The eight register values, address 0 first (10_state.md R33). -/
def State.registers (s : State) : List Word := (List.range 8).map fun a => s.readReg (BitVec.ofNat 3 a)

/-- The result of a run: the register values and the full sequences emitted since reset (70_reset_and_hazards.md
R247). -/
structure RunResult where
  registers : List Word
  pko       : List Byte
  upo       : List Byte
  fro       : List (List Byte)
  fto       : List Byte
  deriving DecidableEq, Repr

/-- The result as a state shows it. -/
def State.result (s : State) : RunResult :=
  { registers := s.registers
    pko := s.pko.emitted, upo := s.upo.emitted, fro := s.fro.emitted, fto := s.fto.emitted }

/-- The result of the run from a state, if it ends within so many steps: a run with a command still held has not ended
(70_reset_and_hazards.md R247). -/
def runResult : Nat → State → Option RunResult
  | 0, s => if s.finished then some s.result else none
  | k + 1, s =>
    if s.finished then some s.result
    else
      match step s with
      | .next t => runResult k t
      | _ => none

/-- The result of a run from reset on hardware with parameters `p`, the host doing `events` (R232, R247). -/
def runFromReset (p : Params) (events : List HostEvent) (steps : Nat) : Option RunResult :=
  runResult steps { State.resetWith p with hostEvents := events }

/-! ### What the words of a program do, holds apart -/

/-- The same state on hardware whose four FIFOs have room for two more entries, as many as any command emits
(70_reset_and_hazards.md R240): where a command's emissions can be counted. -/
def State.roomy (s : State) : State :=
  { s with
    params :=
      { s.params with
        pkoDepth := s.pko.entries.length + 2, upoDepth := s.upo.entries.length + 2
        froDepth := s.fro.entries.length + 2, ftoDepth := s.fto.entries.length + 2 } }

/-- What a word does when it is accepted, be it at once or after the host has made room for it
(70_reset_and_hazards.md R240, 30_encoding.md R78). -/
def takeWord (w : Word) (s : State) : State :=
  match decode w with
  | .illegal _ => s.acceptIllegal
  | .command i =>
    match exec i s.roomy with
    | .next t => { t with params := s.params }
    | _ => s

/-- The words of a program taken one after another (00_scope.md R15). -/
def takeWords : List Word → State → State
  | [], s => s
  | w :: ws, s => takeWords ws (takeWord w s)

end Sys2Proof.Machine
end

