-- ==== Sys2Proof/Safety.lean ====
section
/-!
DEFINITION. The terms in which statements speak of PF7: the invariant of its state, the acceptance of a sequence of
commands, and the units' commands.
-/

namespace Sys2Proof

/-! ### The units' commands -/

/-- The commands of `PK` (30_encoding.md R73, and so for the units below). -/
def Instr.isPk : Instr → Bool
  | .pkPush _ | .pkEnd _ => true
  | _ => false

/-- The commands of `UP`. -/
def Instr.isUp : Instr → Bool
  | .upPush _ | .upEnd _ => true
  | _ => false

/-- The commands of `FT`. -/
def Instr.isFt : Instr → Bool
  | .ftStart _ | .ftData _ | .ftEnd => true
  | _ => false

/-- The commands of `CK`. -/
def Instr.isCk : Instr → Bool
  | .ckInit _ | .ckAdd _ => true
  | _ => false

/-- The commands that feed the frame receiver. -/
def Instr.feedsReceiver : Instr → Bool
  | .rxPush _ | .rxEnd _ | .frPush _ => true
  | _ => false

/-- The commands that write to a FIFO (10_state.md R32, column "written by"). -/
def Instr.writes (i : Instr) : Machine.FifoId → Bool
  | .pko => i.isPk
  | .upo => i.isUp
  | .fro => i.feedsReceiver
  | .fto => i.isFt

end Sys2Proof

namespace Sys2Proof.Machine

/-! ### The invariant -/

/-- `PK.acc < 2^PK.n` (10_state.md R25). -/
abbrev Packer.Wf (r : Packer) : Prop := r.acc.toNat < 2 ^ r.n.toNat

/-- `n` is 0 to 6 and `acc < 2^n` (10_state.md R26, R27). -/
abbrev Unpacker.Wf (r : Unpacker) : Prop := r.n.toNat ≤ 6 ∧ r.acc.toNat < 2 ^ r.n.toNat

/-- The buffer fits, is empty outside `Collecting` (10_state.md R29), and never holds `frameEnd` (42_frame_rx.md R151). -/
abbrev Receiver.Wf (depth : Nat) (r : Receiver) : Prop :=
  r.buf.length ≤ depth ∧ (r.state ≠ .collecting → r.buf = []) ∧ Config.frameEnd ∉ r.buf

/-- A frame as `FRO` holds it: 1 to `FR_DEPTH - 1` bytes, none of them `frameEnd` (10_state.md R32, 42_frame_rx.md R151). -/
abbrev FrameOk (depth : Nat) (f : List Byte) : Prop :=
  1 ≤ f.length ∧ f.length ≤ depth - 1 ∧ Config.frameEnd ∉ f

/-- What every state that a run reaches satisfies. -/
structure State.Inv (s : State) : Prop where
  legal  : s.params.Legal
  pk     : s.pk.Wf
  up     : s.up.Wf
  rx     : s.rx.Wf
  fr     : s.fr.Wf s.params.frDepth
  pko    : s.pko.entries.length ≤ s.params.pkoDepth
  upo    : s.upo.entries.length ≤ s.params.upoDepth
  fro    : s.fro.entries.length ≤ s.params.froDepth
  fto    : s.fto.entries.length ≤ s.params.ftoDepth
  frames : ∀ f ∈ s.fro.emitted, FrameOk s.params.frDepth f

/-! ### Sequences of commands -/

/-- The state after the commands have been accepted one after another; none if one of them is held
(00_scope.md R15, 70_reset_and_hazards.md R247). -/
def acceptAll : List Instr → State → Option State
  | [], s => some s
  | i :: rest, s =>
    if held i s then none
    else
      match exec i s with
      | .next t => acceptAll rest t
      | _ => none

/-! ### The host's side -/

/-- It is the host's turn: nothing is on the command port, or a command that is held (70_reset_and_hazards.md R240). -/
abbrev State.AwaitsHost (s : State) : Prop :=
  s.port = none ∨ ∃ w i, s.port = some w ∧ decode w = .command i ∧ held i s = true

/-- Two states that agree in every state element of 10_state.md R35, the FIFOs included. -/
abbrev State.SameUnits (s t : State) : Prop :=
  t.params = s.params ∧ t.ctrl = s.ctrl ∧ t.status = s.status ∧ t.pk = s.pk ∧ t.up = s.up ∧ t.rx = s.rx
    ∧ t.fr = s.fr ∧ t.ft = s.ft ∧ t.ck = s.ck ∧ t.pko = s.pko ∧ t.upo = s.upo ∧ t.fro = s.fro ∧ t.fto = s.fto

/-- The bytes of an outbound frame in the form `TXFORM` chooses (43_frame_tx.md R170). -/
def outboundFrame (txform : Bool) (id : Byte) (payload : List Byte) : List Byte :=
  if txform then Config.frameStart :: id :: payload ++ [checksum (Config.frameStart :: id :: payload), Config.frameEnd]
  else id :: payload ++ [checksum (id :: payload), Config.frameEnd]

/-- The bytes an outbound frame's checksum covers (43_frame_tx.md R170). -/
def coveredBytes (txform : Bool) (id : Byte) (payload : List Byte) : List Byte :=
  if txform then Config.frameStart :: id :: payload else id :: payload

end Sys2Proof.Machine
end

