-- ==== Sys2Proof/Certificates/Slice0/Obligations.lean ====
section
/-!
DEFINITION. The statements for the provers. Each docstring names the rule of spec/ it formalises. `port := none` in a
next state says that the word on the command port has been accepted; a held command leaves its state as it is.
-/

open Sys2Proof Sys2Proof.Machine

/-! ### Encoding -/

/-- Words written out from 30_encoding.md R70 to R73 and 95_test_vectors.md section 11, one or more per unit. -/
def Obligations.DecodeExamples : Prop :=
  decode 0b0000000000000000 = .command .sysNop ∧
  decode 0b0000000100000011 = .command (.sysWrctrl 3) ∧
  decode 0b0000001000011111 = .command (.sysClrstat 31) ∧
  decode 0b0000001100000000 = .command .sysSreset ∧
  decode 0b0001000001111111 = .command (.pkPush 0x7F) ∧
  decode 0b0001000100000001 = .command (.pkEnd true) ∧
  decode 0b0010000011111111 = .command (.upPush 0xFF) ∧
  decode 0b0010001100000000 = .command (.rxEnd false) ∧
  decode 0b0011000010101011 = .command (.frPush 0xAB) ∧
  decode 0b0100000111111111 = .command (.ftData 0xFF) ∧
  decode 0b0101000100000000 = .command (.ckAdd 0) ∧
  decode 0b0001000010000000 = .illegal .mustBeZeroBitSet ∧
  decode 0b0010010000000000 = .illegal .unassignedFunc ∧
  decode 0b0110000000000000 = .illegal .unassignedUnit

/-- Decoding what was encoded gives the instruction back, for every instruction and operand (30_encoding.md R70 to R74). -/
def Obligations.DecodeEncode : Prop := ∀ i : Instr, decode (encode i) = .command i

/-- A word that decodes to a command is that command's one encoding (30_encoding.md R74). -/
def Obligations.EncodeDecode : Prop := ∀ (w : Word) (i : Instr), decode w = .command i → encode i = w

/-- 30_encoding.md R74: a word is legal when exactly one row of the opcode map selects it, and is then that row's
command with the word's `DATA`; at most one row selects any word; every other word is illegal. -/
def Obligations.DecodeByMap : Prop :=
  ∀ w : Word,
    (∀ r₁ ∈ opcodeMap, ∀ r₂ ∈ opcodeMap, r₁.selects w = true → r₂.selects w = true → r₁ = r₂) ∧
    (∀ i, decode w = .command i ↔ ∃ r ∈ opcodeMap, r.selects w = true ∧ i = r.op.withData (dataField w)) ∧
    ((∃ e, decode w = .illegal e) ↔ ∀ r ∈ opcodeMap, r.selects w = false)

/-- 30_encoding.md R75 (units 6 to 15, which are the 40,960 words from 0x6000 on), R76 (unassigned functions of each
unit) and R77 (a command's must-be-0 bit set). -/
def Obligations.IllegalWords : Prop :=
  (∀ w : Word, 6 ≤ (unitField w).toNat → decode w = .illegal .unassignedUnit) ∧
  (∀ w : Word, 6 ≤ (unitField w).toNat ↔ 65536 - 40960 ≤ w.toNat) ∧
  (∀ w : Word, (unitField w = 0 ∧ 4 ≤ (funcField w).toNat) ∨ (unitField w = 1 ∧ 2 ≤ (funcField w).toNat) ∨
      (unitField w = 2 ∧ 4 ≤ (funcField w).toNat) ∨ (unitField w = 3 ∧ 2 ≤ (funcField w).toNat) ∨
      (unitField w = 4 ∧ 3 ≤ (funcField w).toNat) ∨ (unitField w = 5 ∧ 2 ≤ (funcField w).toNat) →
    decode w = .illegal .unassignedFunc) ∧
  (∀ (w : Word) (op : Op), unitField w = op.unit → funcField w = op.func →
    dataField w &&& op.form.mustBeZero ≠ 0 → decode w = .illegal .mustBeZeroBitSet) ∧
  decode 0x1080 = .illegal .mustBeZeroBitSet ∧ decode 0x1102 = .illegal .mustBeZeroBitSet ∧
  decode 0x0104 = .illegal .mustBeZeroBitSet ∧ decode 0x0001 = .illegal .mustBeZeroBitSet

/-- 30_encoding.md R80, R81: a command's line assembles to its word, a `.word` line of an illegal word to that word, and
each pseudo-instruction to the words of its exact expansion. Two things are the model's choice (DESIGN CHOICE, log entry
16): that `.word` takes a legal word too, and that a line whose numbers do not fit assembles to nothing. -/
def Obligations.Assembles : Prop :=
  (∀ i : Instr, assemble (.command i.op (operandOf i)) = some [encode i]) ∧
  (∀ w : Word, assemble (.word w.toNat) = some [w]) ∧
  (∀ (vs : List U7) (f : Bool),
    assemble (.pack (vs.map (·.toNat)) f) = some ((vs.map Instr.pkPush ++ [Instr.pkEnd f]).map encode)) ∧
  (∀ (bs : List Byte) (f : Bool),
    assemble (.unpack (bs.map (·.toNat)) f) = some ((bs.map Instr.upPush ++ [Instr.upEnd f]).map encode)) ∧
  (∀ (bs : List Byte) (f : Bool),
    assemble (.rxmsg (bs.map (·.toNat)) f) = some ((bs.map Instr.rxPush ++ [Instr.rxEnd f]).map encode)) ∧
  (∀ (id : Byte) (p : List Byte),
    assemble (.txframe id.toNat (p.map (·.toNat))) = some ((Instr.ftStart id :: p.map Instr.ftData ++ [Instr.ftEnd]).map encode)) ∧
  (∀ bs : List Byte, assemble (.cksum (bs.map (·.toNat))) = some ((Instr.ckInit 0 :: bs.map Instr.ckAdd).map encode)) ∧
  assemble .clrall = some [encode (.sysClrstat 0x1F)] ∧
  (∀ l : AsmLine, l.WellFormed = false → assemble l = none)

/-! ### The step, the hold, the host -/

/-- A word on the port that decodes to a command runs as that command (20_memory.md R60, 70_reset_and_hazards.md R240).
That the host acts, one action a step, while a command is held or nothing is presented is the model's choice (DESIGN
CHOICE, log entry 2), and so is that `withFetchWord` stands for the host's presenting of a word (DEDUCED, log entry 9). -/
def Obligations.StepRunsDecoded : Prop :=
  (∀ (s : State) (w : Word) (i : Instr), s.port = some w → decode w = .command i →
    (held i s = false → step s = exec i s) ∧ (held i s = true → step s = .next (hostTurn s))) ∧
  (∀ s : State, s.port = none → step s = .next (hostTurn s)) ∧
  (∀ (s : State) (i : Instr), held i s = false →
    step (s.withFetchWord 16 (encode i).toNat) = exec i (s.withFetchWord 16 (encode i).toNat))

/-- 30_encoding.md R78, 60_exceptions.md R204: an illegal word is accepted whatever the FIFOs hold, sets `ILL`, and
changes nothing else; from reset, 0x6000 gives `STATUS = 0x0008`. -/
def Obligations.IllegalEffect : Prop :=
  (∀ (s : State) (w : Word) (e : IllegalReason), s.port = some w → decode w = .illegal e →
    step s = .next { s with status := s.status ||| 0b01000, port := none }) ∧
  (∀ p : Params, ∃ t, step ((State.resetWith p).withFetchWord 16 0x6000) = .next t ∧ t.statusReg = 0x0008 ∧
    State.SameUnits (State.resetWith p) { t with status := 0 })

/-- 70_reset_and_hazards.md R240. `u` is where the command leads with room in every FIFO: a command is held exactly
when it would emit more entries there than its FIFO has free, held it changes nothing, and not held it does what it
does with room. The four counts are the rule's table, that of `UP.PUSH` for the values 0 to 6 `UP.n` can have (10_state.md
R26). Illegal words and `SEQ` commands are never held, and with legal parameters no command is held on empty FIFOs. -/
def Obligations.HoldRule : Prop :=
  (∀ (i : Instr) (s : State), ∃ u, exec i s.roomy = .next u ∧ u.port = none ∧
    u.pko.entries.length = s.pko.entries.length +
      (match i with
       | .pkPush _ => if 1 ≤ s.pk.n.toNat then 1 else 0
       | .pkEnd f => if f = true ∧ 1 ≤ s.pk.n.toNat then 1 else 0
       | _ => 0) ∧
    (s.up.n.toNat ≤ 6 → u.upo.entries.length = s.upo.entries.length +
      (match i with
       | .upPush _ => if s.up.n = 6 then 2 else 1
       | .upEnd f => if f = true ∧ 1 ≤ s.up.n.toNat then 1 else 0
       | _ => 0)) ∧ (i.isUp = false → u.upo = s.upo) ∧
    (u.fro.entries.length ≤ s.fro.entries.length + 1 ∧ (i.feedsReceiver = false → u.fro = s.fro)) ∧
    u.fto.entries.length = s.fto.entries.length +
      (match i with
       | .ftStart _ => if s.ft.opened = true then 0 else if s.txform = true then 2 else 1
       | .ftData _ => if s.ft.opened = true then 1 else 0
       | .ftEnd => if s.ft.opened = true then 2 else 0
       | _ => 0) ∧
    (held i s = true ↔
      s.pko.free s.params.pkoDepth < u.pko.entries.length - s.pko.entries.length ∨
      s.upo.free s.params.upoDepth < u.upo.entries.length - s.upo.entries.length ∨
      s.fro.free s.params.froDepth < u.fro.entries.length - s.fro.entries.length ∨
      s.fto.free s.params.ftoDepth < u.fto.entries.length - s.fto.entries.length) ∧
    (held i s = true → exec i s = .next s) ∧
    (held i s = false → exec i s = .next { u with params := s.params })) ∧
  (∀ (s : State) (w : Word) (e : IllegalReason), s.port = some w → decode w = .illegal e →
    ∃ t, step s = .next t ∧ t.port = none) ∧
  (∀ (s : State) (b : Byte), s.ft.opened = true → held (.ftStart b) s = false) ∧
  (∀ (s : State) (b : Byte), s.ft.opened = false → held (.ftData b) s = false ∧ held .ftEnd s = false) ∧
  (∀ (i : Instr) (s : State), s.params.Legal →
    s.pko.entries = [] → s.upo.entries = [] → s.fro.entries = [] → s.fto.entries = [] → held i s = false)

/-- 70_reset_and_hazards.md R245: while the host never removes an entry from the FIFO a held command writes to, and does
not assert reset, the command stays held and no word behind it is accepted, however many steps pass; the host may present,
read and remove from the other FIFOs. Nothing then changes but what the host removes. -/
def Obligations.HeldForever : Prop :=
  ∀ (k : Nat) (s : State) (w : Word) (i : Instr), s.port = some w → decode w = .command i → held i s = true →
    (∀ e ∈ s.hostEvents, (∃ v, e = .present v) ∨ (∃ a, e = .read a) ∨ ∃ f, e = .remove f ∧ i.writes f = false) →
    ∃ t, Host.Core.run Sys2Proof.core k s = .next t ∧ t.port = some w ∧ held i t = true ∧
      State.SameUnits s { t with pko := s.pko, upo := s.upo, fro := s.fro, fto := s.fto } ∧
      t.pko.emitted = s.pko.emitted ∧ t.upo.emitted = s.upo.emitted ∧
      t.fro.emitted = s.fro.emitted ∧ t.fto.emitted = s.fto.emitted ∧
      (i.writes .pko = true → t.pko = s.pko) ∧ (i.writes .upo = true → t.upo = s.upo) ∧
      (i.writes .fro = true → t.fro = s.fro) ∧ (i.writes .fto = true → t.fto = s.fto)

/-- Programs and their runs (00_scope.md R15, 20_memory.md R60, 70_reset_and_hazards.md R247). Presenting the words of
commands none of which is held takes the machine to the state their acceptance one after another gives. Whatever a host
without resets removes and reads, and whatever is held on the way, a run that ends has the result of its words, illegal
ones included, taken in order: holds only delay. A run whose words are never held ends, a run with a command still held
has not, and what the host does after the last acceptance is not part of the run (log entry 18). That a command takes two
steps, one to present and one to accept, with nothing of the host between them is the model's choice (DESIGN CHOICE, log
entry 2), and so is the list of the host's actions as the program's load (DEDUCED, log entry 9). -/
def Obligations.PresentedSequenceRuns : Prop :=
  (∀ (cs : List Instr) (rest : List HostEvent) (s t : State), s.port = none →
    s.hostEvents = cs.map (fun i => .present (encode i)) ++ rest → acceptAll cs s = some t →
    Host.Core.run Sys2Proof.core (2 * cs.length) s = .next { t with hostEvents := rest }) ∧
  (∀ (k : Nat) (s : State) (r : RunResult), .reset ∉ s.hostEvents → runResult k s = some r →
    r = (takeWords s.program s).result) ∧
  (∀ (ws : List Word) (s : State), s.port = none → s.hostEvents = ws.map .present →
    (∀ (before after : List Word) (w : Word) (i : Instr), ws = before ++ w :: after → decode w = .command i →
      held i (takeWords before s) = false) →
    runResult (2 * ws.length) s = some (takeWords ws s).result) ∧
  (∀ (k : Nat) (s : State) (w : Word) (i : Instr), s.port = some w → decode w = .command i → held i s = true →
    (∀ e ∈ s.hostEvents, (∃ v, e = .present v) ∨ ∃ a, e = .read a) → runResult k s = none) ∧
  (∀ (k : Nat) (s : State), s.port = none → (∀ v, .present v ∉ s.hostEvents) → runResult k s = some s.result)

/-- 20_memory.md R52: the read port answers with the register of the state after the last accepted command, and the
read changes no state but the host's record of the answer, with nothing presented and while a command is held. -/
def Obligations.HostRead : Prop :=
  ∀ (s : State) (a : BitVec 3) (rest : List HostEvent), s.AwaitsHost → s.hostEvents = .read a :: rest →
    step s = .next { s with hostEvents := rest, answers := s.answers ++ [(a, s.readReg a)] }

/-- 20_memory.md R57: the host removes the head entry of a FIFO, which changes nothing but that FIFO; what has been
emitted since reset stays the same (70_reset_and_hazards.md R247); with nothing presented and while a command is held.
The last clause covers a removal from an empty FIFO too, which R57 and R63 do not give; that it changes nothing is the
model's (DEDUCED, log entry 4). -/
def Obligations.HostRemove : Prop :=
  ∀ (s : State) (rest : List HostEvent), s.AwaitsHost →
    (∀ x xs, s.pko.entries = x :: xs → s.hostEvents = .remove .pko :: rest →
      step s = .next { s with pko := ⟨s.pko.taken ++ [x], xs⟩, hostEvents := rest }) ∧
    (∀ x xs, s.upo.entries = x :: xs → s.hostEvents = .remove .upo :: rest →
      step s = .next { s with upo := ⟨s.upo.taken ++ [x], xs⟩, hostEvents := rest }) ∧
    (∀ x xs, s.fro.entries = x :: xs → s.hostEvents = .remove .fro :: rest →
      step s = .next { s with fro := ⟨s.fro.taken ++ [x], xs⟩, hostEvents := rest }) ∧
    (∀ x xs, s.fto.entries = x :: xs → s.hostEvents = .remove .fto :: rest →
      step s = .next { s with fto := ⟨s.fto.taken ++ [x], xs⟩, hostEvents := rest }) ∧
    (∀ f t, s.hostEvents = .remove f :: rest → step s = .next t →
      t.pko.emitted = s.pko.emitted ∧ t.upo.emitted = s.upo.emitted ∧
      t.fro.emitted = s.fro.emitted ∧ t.fto.emitted = s.fto.emitted)

/-- 70_reset_and_hazards.md R230: hardware reset sets every piece of state, whatever it held, and empties the FIFOs;
the registers then read as 10_state.md R33 says; with nothing presented and while a command is held.
What becomes of the held word is log entry 5 and not stated here. -/
def Obligations.HostReset : Prop :=
  ∀ (s : State) (rest : List HostEvent), s.AwaitsHost → s.hostEvents = .reset :: rest →
    ∃ t, step s = .next t ∧
      t.tag = false ∧ t.txform = false ∧ (∀ b, t.stat b = false) ∧
      t.pk.acc = 0 ∧ t.pk.n = 0 ∧ t.up.acc = 0 ∧ t.up.n = 0 ∧ t.rx.acc = 0 ∧ t.rx.n = 0 ∧
      t.fr.state = .idle ∧ t.fr.buf = [] ∧ t.ft.opened = false ∧ t.ft.x = 0 ∧ t.ck = 0 ∧
      t.pko.emitted = [] ∧ t.upo.emitted = [] ∧ t.fro.emitted = [] ∧ t.fto.emitted = [] ∧
      t.registers = [0, 0, 0, 0, 0, 0, 0, 0x0A00] ∧ t.params = s.params ∧ t.hostEvents = rest

/-- 60_exceptions.md R200, R209: no event stops PF7, and no step changes a parameter (10_state.md R22). That every state
has a next state, one with nothing to accept and nothing left for the host to do too, which then stays as it is, is the
model's reading of waiting (DEDUCED, log entry 3). -/
def Obligations.StepAlwaysAnswers : Prop := ∀ s : State, ∃ t, step s = .next t ∧ t.params = s.params

/-! ### Registers -/

/-- 10_state.md R33: the read map, address by address, each field at its bits and every other bit 0; the values after
reset; and a read has no side effect. -/
def Obligations.ReadMap : Prop :=
  (∀ s : State,
    (s.readReg 0).toNat = s.tag.toNat + 2 * s.txform.toNat ∧
    (s.readReg 1).toNat = (s.stat .ckerr).toNat + 2 * (s.stat .short).toNat + 4 * (s.stat .ovf).toNat +
      8 * (s.stat .ill).toNat + 16 * (s.stat .seq).toNat ∧
    (s.readReg 2).toNat = s.pk.n.toNat + 256 * s.pk.acc.toNat ∧
    (s.readReg 3).toNat = s.up.n.toNat + 256 * s.up.acc.toNat ∧
    (s.readReg 4).toNat = s.rx.n.toNat + 256 * s.rx.acc.toNat ∧
    (s.fr.buf.length ≤ 255 → (s.readReg 5).toNat = s.fr.buf.length +
      256 * (match s.fr.state with | .idle => 0 | .collecting => 1 | .overrun => 2)) ∧
    (s.readReg 6).toNat = s.ft.x.toNat + 256 * s.ft.opened.toNat ∧
    (s.readReg 7).toNat = s.ck.toNat + 256 * (ck10 s.ck).toNat) ∧
  (∀ (s : State) (a : BitVec 3) (rest : List HostEvent), s.port = none → s.hostEvents = .read a :: rest →
    ∃ t, step s = .next t ∧ State.SameUnits s t ∧ ∀ b, t.readReg b = s.readReg b) ∧
  (∀ p : Params, (State.resetWith p).registers = [0, 0, 0, 0, 0, 0, 0, 0x0A00])

/-- 60_exceptions.md R214: every piece of unit state but the contents of `FR.buf` shows in the eight registers: two
states that meet the invariant and read alike agree in all of it. -/
def Obligations.RegistersShowUnits : Prop :=
  ∀ s t : State, s.Inv → t.Inv → s.registers = t.registers →
    t.ctrl = s.ctrl ∧ t.status = s.status ∧ t.pk = s.pk ∧ t.up = s.up ∧ t.rx = s.rx ∧
    t.fr.state = s.fr.state ∧ t.fr.buf.length = s.fr.buf.length ∧ t.ft = s.ft ∧ t.ck = s.ck

/-! ### SYS -/

/-- 44_system.md R190: `SYS.NOP` does nothing; `0x0001` to `0x00FF` are illegal. -/
def Obligations.SysNop : Prop :=
  encode .sysNop = 0x0000 ∧
  (∀ w : Word, 0x0001 ≤ w.toNat → w.toNat ≤ 0x00FF → decode w = .illegal .mustBeZeroBitSet) ∧
  (∀ s : State, exec .sysNop s = .next { s with port := none }) ∧
  (∀ s t : State, exec .sysNop s = .next t → t.registers = s.registers)

/-- 44_system.md R191: `SYS.WRCTRL c` writes `TAG` from bit 0 and `TXFORM` from bit 1, is never held, and nothing else
changes; `0x0104` to `0x01FF` are illegal and leave `CTRL` unchanged. -/
def Obligations.SysWrctrl : Prop :=
  (∀ c : BitVec 2, encode (.sysWrctrl c) = 0x0100 ||| c.setWidth 16) ∧
  (∀ (s : State) (w : Word), 0x0104 ≤ w.toNat → w.toNat ≤ 0x01FF → s.port = some w →
    decode w = .illegal .mustBeZeroBitSet ∧ ∃ t, step s = .next t ∧ t.stat .ill = true ∧ t.ctrl = s.ctrl) ∧
  (∀ (c : BitVec 2) (s : State), ∃ t, exec (.sysWrctrl c) s = .next t ∧
    t.tag = c.getLsbD 0 ∧ t.txform = c.getLsbD 1 ∧ t = { s with ctrl := t.ctrl, port := none }) ∧
  (∀ s t : State, exec (.sysWrctrl 3) s = .next t → t.readReg 0 = 0x0003)

/-- 44_system.md R192: `SYS.CLRSTAT m` clears exactly the STATUS bits whose mask bit is 1, is never held, and nothing
else changes; an illegal mask word sets `ILL` and clears nothing. -/
def Obligations.SysClrstat : Prop :=
  (∀ m : BitVec 5, encode (.sysClrstat m) = 0x0200 ||| m.setWidth 16) ∧
  (∀ (s : State) (w : Word), 0x0220 ≤ w.toNat → w.toNat ≤ 0x02FF → s.port = some w →
    ∃ t, step s = .next t ∧ t.stat .ill = true ∧ ∀ b, s.stat b = true → t.stat b = true) ∧
  (∀ (m : BitVec 5) (s : State), ∃ t, exec (.sysClrstat m) s = .next t ∧
    (∀ i < 5, t.status.getLsbD i = (s.status.getLsbD i && !m.getLsbD i)) ∧
    t = { s with status := t.status, port := none }) ∧
  (∀ s t : State, s.readReg 1 = 0x0019 → exec (.sysClrstat 0x09) s = .next t → t.readReg 1 = 0x0010)

/-- 44_system.md R193, 70_reset_and_hazards.md R231: `SYS.SRESET` puts every state element where hardware reset puts
it, except the four FIFOs, which keep their entries; it is never held. -/
def Obligations.SysSreset : Prop :=
  encode .sysSreset = 0x0300 ∧
  (∀ s : State, exec .sysSreset s =
    .next { State.resetWith s.params with
      pko := s.pko, upo := s.upo, fro := s.fro, fto := s.fto, hostEvents := s.hostEvents, answers := s.answers }) ∧
  (∀ s t : State, exec .sysSreset s = .next t →
    t = { s.hardReset with pko := s.pko, upo := s.upo, fro := s.fro, fto := s.fto, port := none } ∧
    t.registers = [0, 0, 0, 0, 0, 0, 0, 0x0A00])

/-! ### STATUS -/

/-- 60_exceptions.md R207: one step sets at most one STATUS bit. -/
def Obligations.AtMostOneStatusBit : Prop :=
  ∀ (s t : State) (b c : StatusBit), step s = .next t →
    s.stat b = false → t.stat b = true → s.stat c = false → t.stat c = true → b = c

/-- 10_state.md R24: a STATUS bit goes from 1 to 0 only in a step that accepts `SYS.CLRSTAT` with its mask bit 1 or
`SYS.SRESET`, or that takes the host's hardware reset. -/
def Obligations.StatusSticky : Prop :=
  ∀ (s t : State) (b : StatusBit), step s = .next t → s.stat b = true → t.stat b = false →
    (∃ w i, s.port = some w ∧ decode w = .command i ∧ held i s = false ∧
      (i = .sysSreset ∨ ∃ m, i = .sysClrstat m ∧ m.getLsbD b.code = true)) ∨
    (s.AwaitsHost ∧ ∃ rest, s.hostEvents = .reset :: rest)

/-- 60_exceptions.md R200, column "raised by": a step that sets a STATUS bit accepted a word that may raise that event. -/
def Obligations.StatusCauses : Prop :=
  ∀ (s t : State) (b : StatusBit), step s = .next t → s.stat b = false → t.stat b = true →
    ∃ w, s.port = some w ∧
      match b with
      | .ill => ∃ e, decode w = .illegal e
      | .seq => ∃ i, decode w = .command i ∧ held i s = false ∧ i.isFt = true
      | .ckerr => ∃ i, decode w = .command i ∧ held i s = false ∧ i.feedsReceiver = true
      | .short => ∃ i, decode w = .command i ∧ held i s = false ∧ i.feedsReceiver = true
      | .ovf => ∃ i, decode w = .command i ∧ held i s = false ∧ i.feedsReceiver = true

/-- 10_state.md R24, R21: no command changes its behaviour because a STATUS bit is set: with other STATUS bits it is
held alike and leads to the same state but for STATUS. -/
def Obligations.StatusIgnored : Prop :=
  ∀ (i : Instr) (s t : State) (bits : BitVec 5),
    held i { s with status := bits } = held i s ∧
    (exec i s = .next t → ∃ bits', exec i { s with status := bits } = .next { t with status := bits' })

/-! ### The packer -/

/-- 40_bitpack.md R102: `PK.PUSH v`. With no residual bits the value stays; otherwise the top 8 of the `PK.n + 7` bits
go to `PKO` and the rest stay; held while `PKO` is full and a byte would be emitted. With the rule's examples. -/
def Obligations.PkPush : Prop :=
  (∀ v : U7, encode (.pkPush v) = 0x1000 ||| v.setWidth 16) ∧
  (∀ w : Word, 0x1080 ≤ w.toNat → w.toNat ≤ 0x10FF → decode w = .illegal .mustBeZeroBitSet) ∧
  (∀ (v : U7) (s : State), s.pk.n = 0 → exec (.pkPush v) s = .next { s with pk := ⟨v, 7⟩, port := none }) ∧
  (∀ (v : U7) (s : State) (k : Nat), s.pk.n.toNat = k + 1 → 1 ≤ s.pko.free s.params.pkoDepth →
    exec (.pkPush v) s = .next { s with
      pk := ⟨BitVec.ofNat 7 ((s.pk.acc.toNat * 128 + v.toNat) % 2 ^ k), BitVec.ofNat 3 k⟩
      pko := ⟨s.pko.taken, s.pko.entries ++ [BitVec.ofNat 8 ((s.pk.acc.toNat * 128 + v.toNat) / 2 ^ k)]⟩
      port := none }) ∧
  (∀ (v : U7) (s : State), s.pk.n ≠ 0 → s.pko.free s.params.pkoDepth = 0 → exec (.pkPush v) s = .next s) ∧
  (∀ (vs : List U7) (s t : State), vs.length = 8 → s.pk.n = 0 → acceptAll (vs.map .pkPush) s = some t →
    t.pk.n = 0 ∧ t.pko.entries.length = s.pko.entries.length + 7) ∧
  (∀ p : Params, p.Legal →
    (acceptAll [.pkPush 0x41] (State.resetWith p)).map (fun t => (t.pko.entries, t.readReg 2)) = some ([], 0x4107) ∧
    (acceptAll [.pkPush 0x41, .pkPush 0x7F] (State.resetWith p)).map (fun t => (t.pko.entries, t.readReg 2)) =
      some ([0x83], 0x3F06))

/-- 40_bitpack.md R103: `PK.END f`. The residual bits are flushed, left-justified over zeros, if `f` is 1 and there are
any, and are gone afterwards; held while `PKO` is full and a byte would be emitted. With the rule's examples. -/
def Obligations.PkEnd : Prop :=
  (∀ f : Bool, encode (.pkEnd f) = 0x1100 ||| (BitVec.ofBool f).setWidth 16) ∧
  (∀ (f : Bool) (s : State), f = false ∨ s.pk.n = 0 →
    exec (.pkEnd f) s = .next { s with pk := ⟨0, 0⟩, port := none }) ∧
  (∀ s : State, s.pk.n ≠ 0 → 1 ≤ s.pko.free s.params.pkoDepth →
    exec (.pkEnd true) s = .next { s with
      pk := ⟨0, 0⟩
      pko := ⟨s.pko.taken, s.pko.entries ++ [BitVec.ofNat 8 (s.pk.acc.toNat * 2 ^ (8 - s.pk.n.toNat))]⟩
      port := none }) ∧
  (∀ s : State, s.pk.n ≠ 0 → s.pko.free s.params.pkoDepth = 0 → exec (.pkEnd true) s = .next s) ∧
  (∀ s : State, s.readReg 2 = 0x3F06 → 1 ≤ s.pko.free s.params.pkoDepth →
    (∃ t, exec (.pkEnd true) s = .next t ∧ t.pko.entries = s.pko.entries ++ [0xFC] ∧ t.readReg 2 = 0x0000) ∧
    ∃ t, exec (.pkEnd false) s = .next t ∧ t.pko = s.pko)

/-- 20_memory.md R54 with 10_state.md R25, R26: no bit is lost, gained or reordered. The emitted groups followed by the
new residual bits are the old residual bits followed by the pushed group, most significant bit first. -/
def Obligations.PushKeepsBitStream : Prop :=
  (∀ (v : U7) (s t : State), s.pk.Wf → held (.pkPush v) s = false → exec (.pkPush v) s = .next t →
    ∃ out, t.pko.entries = s.pko.entries ++ out ∧
      bitStream out ++ residualBits t.pk.acc t.pk.n.toNat = residualBits s.pk.acc s.pk.n.toNat ++ msbBits v) ∧
  (∀ (b : Byte) (s t : State), s.up.Wf → held (.upPush b) s = false → exec (.upPush b) s = .next t →
    ∃ out, t.upo.entries = s.upo.entries ++ out ∧
      bitStream (out.map dataBits) ++ residualBits t.up.acc t.up.n.toNat =
        residualBits s.up.acc s.up.n.toNat ++ msbBits b)

/-- 20_memory.md R54 for `pack7to8` (40_bitpack.md R100): the bytes are the input's bit stream cut into groups of 8 from
its start; with a flush, padded with zeros to whole bytes. -/
def Obligations.PackIsMsbFirst : Prop :=
  ∀ vs : List U7,
    bitStream (pack7to8 vs false) = (bitStream vs).take (8 * (7 * vs.length / 8)) ∧
    bitStream (pack7to8 vs true) = bitStream vs ++ List.replicate ((8 - 7 * vs.length % 8) % 8) false

/-- 20_memory.md R54 for `unpack8to7` (40_bitpack.md R101): the data bits are the input's bit stream cut into groups of
7; with a flush, padded with zeros to whole groups; bit 7 of every value is the tag. -/
def Obligations.UnpackIsMsbFirst : Prop :=
  ∀ (bs : List Byte) (tag : Bool),
    bitStream ((unpack8to7 bs false tag).map dataBits) = (bitStream bs).take (7 * (8 * bs.length / 7)) ∧
    bitStream ((unpack8to7 bs true tag).map dataBits) =
      bitStream bs ++ List.replicate ((7 - 8 * bs.length % 7) % 7) false ∧
    (∀ f, ∀ u ∈ unpack8to7 bs f tag, u.getLsbD 7 = tag)

/-- 40_bitpack.md R104: the commands of one packing call compute `pack7to8`, also with commands of other units between
them (but `SYS.SRESET`, which resets the packer; log entry 15); with room for its bytes the call is accepted whole. -/
def Obligations.PackEquivalence : Prop :=
  (∀ (cs : List Instr) (vs : List U7) (f : Bool) (s t : State), s.pk.n = 0 →
    cs.filter Instr.isPk = packCommands vs f → .sysSreset ∉ cs → acceptAll cs s = some t →
    t.pko.taken = s.pko.taken ∧ t.pko.entries = s.pko.entries ++ pack7to8 vs f ∧ t.pk.n = 0 ∧ t.pk.acc = 0) ∧
  (∀ (vs : List U7) (f : Bool) (s : State), s.pk.n = 0 →
    (pack7to8 vs f).length ≤ s.pko.free s.params.pkoDepth → ∃ t, acceptAll (packCommands vs f) s = some t)

/-- 40_bitpack.md R113: the numbers of bytes and values, and of residual bits after `k` pushes. -/
def Obligations.RegroupCounts : Prop :=
  (∀ vs : List U7, (pack7to8 vs false).length = 7 * vs.length / 8 ∧
    (pack7to8 vs true).length = (7 * vs.length + 7) / 8) ∧
  (∀ (bs : List Byte) (tag : Bool), (unpack8to7 bs false tag).length = 8 * bs.length / 7 ∧
    (unpack8to7 bs true tag).length = (8 * bs.length + 6) / 7) ∧
  (∀ (vs : List U7) (s t : State), s.pk.n = 0 → acceptAll (vs.map .pkPush) s = some t →
    t.pk.n.toNat = 7 * vs.length % 8) ∧
  (∀ (bs : List Byte) (s t : State), s.up.n = 0 → acceptAll (bs.map .upPush) s = some t →
    t.up.n.toNat = 8 * bs.length % 7) ∧
  (∀ (bs : List Byte) (s t : State), s.rx.n = 0 → acceptAll (bs.map .rxPush) s = some t →
    t.rx.n.toNat = 8 * bs.length % 7)

/-- 40_bitpack.md R114: packing and unpacking without flush give back the values whose bits fill whole bytes, all of
them exactly when their count is a multiple of 8; and for bytes, exactly when it is a multiple of 7. A tagged value is
no 7-bit value, and the word that would push it is illegal. -/
def Obligations.RoundTripNoFlush : Prop :=
  (∀ vs : List U7,
    unpack8to7 (pack7to8 vs false) false false =
      (vs.map (·.setWidth 8)).take (8 * (7 * vs.length / 8) / 7) ∧
    (unpack8to7 (pack7to8 vs false) false false = vs.map (·.setWidth 8) ↔ vs.length % 8 = 0)) ∧
  (∀ bs : List Byte,
    pack7to8 ((unpack8to7 bs false false).map dataBits) false <+: bs ∧
    (pack7to8 ((unpack8to7 bs false false).map dataBits) false = bs ↔ bs.length % 7 = 0)) ∧
  (∀ (bs : List Byte) (f : Bool), ∀ u ∈ unpack8to7 bs f true,
    128 ≤ u.toNat ∧ decode (0x1000 ||| u.setWidth 16) = .illegal .mustBeZeroBitSet)

/-- 40_bitpack.md R115: with flush both ways the tagged values come back, followed by one value of data bits 0 exactly
when the packed bits did not fill whole bytes. -/
def Obligations.RoundTripFlush : Prop :=
  ∀ (vs : List U7) (tag : Bool),
    unpack8to7 (pack7to8 vs true) true tag =
      vs.map (fun v => BitVec.ofBool tag ++ v) ++
        (if 7 * vs.length % 8 = 0 then [] else [BitVec.ofBool tag ++ (0 : U7)])

/-! ### The unpackers -/

/-- 40_bitpack.md R105, R112: `UP.PUSH b`. The top 7 of the `UP.n + 8` bits, tagged with `CTRL.TAG`, go to `UPO`, and a
second value when 7 bits are left; held while `UPO` has fewer free entries. With the rule's example. -/
def Obligations.UpPush : Prop :=
  (∀ b : Byte, encode (.upPush b) = 0x2000 ||| b.setWidth 16) ∧
  (∀ (b : Byte) (s : State), s.up.n.toNat ≤ 5 → 1 ≤ s.upo.free s.params.upoDepth →
    exec (.upPush b) s = .next { s with
      up := ⟨BitVec.ofNat 6 ((s.up.acc.toNat * 256 + b.toNat) % 2 ^ (s.up.n.toNat + 1)), s.up.n + 1⟩
      upo := ⟨s.upo.taken, s.upo.entries ++
        [BitVec.ofNat 8 ((s.up.acc.toNat * 256 + b.toNat) / 2 ^ (s.up.n.toNat + 1) % 128 + 128 * s.tag.toNat)]⟩
      port := none }) ∧
  (∀ (b : Byte) (s : State), s.up.n.toNat ≤ 5 → s.upo.free s.params.upoDepth < 1 → exec (.upPush b) s = .next s) ∧
  (∀ (b : Byte) (s : State), s.up.n = 6 → 2 ≤ s.upo.free s.params.upoDepth →
    exec (.upPush b) s = .next { s with
      up := ⟨0, 0⟩
      upo := ⟨s.upo.taken, s.upo.entries ++
        [BitVec.ofNat 8 ((s.up.acc.toNat * 256 + b.toNat) / 128 % 128 + 128 * s.tag.toNat),
         BitVec.ofNat 8 (b.toNat % 128 + 128 * s.tag.toNat)]⟩
      port := none }) ∧
  (∀ (b : Byte) (s : State), s.up.n = 6 → s.upo.free s.params.upoDepth < 2 → exec (.upPush b) s = .next s) ∧
  (∀ p : Params, p.Legal → (acceptAll [.upPush 0x83] (State.resetWith p)).map
    (fun t => (t.upo.entries, t.readReg 3)) = some ([0x41], 0x0101))

/-- 40_bitpack.md R106, R112: `UP.END f`. The residual bits are flushed left-justified over zeros and tagged, if `f` is
1 and there are any, and are gone afterwards; held while `UPO` is full and a value would be emitted. -/
def Obligations.UpEnd : Prop :=
  (∀ f : Bool, encode (.upEnd f) = 0x2100 ||| (BitVec.ofBool f).setWidth 16) ∧
  (∀ (f : Bool) (s : State), f = false ∨ s.up.n = 0 →
    exec (.upEnd f) s = .next { s with up := ⟨0, 0⟩, port := none }) ∧
  (∀ s : State, s.up.n ≠ 0 → 1 ≤ s.upo.free s.params.upoDepth →
    exec (.upEnd true) s = .next { s with
      up := ⟨0, 0⟩
      upo := ⟨s.upo.taken, s.upo.entries ++
        [BitVec.ofNat 8 (s.up.acc.toNat * 2 ^ (7 - s.up.n.toNat) % 128 + 128 * s.tag.toNat)]⟩
      port := none }) ∧
  (∀ s : State, s.up.n ≠ 0 → s.upo.free s.params.upoDepth = 0 → exec (.upEnd true) s = .next s) ∧
  (∀ (p : Params) (c : BitVec 2), p.Legal →
    (acceptAll [.sysWrctrl c, .upPush 0xFF, .upEnd true] (State.resetWith p)).map (·.upo.entries) =
      some (if c.getLsbD 0 then [0xFF, 0xC0] else [0x7F, 0x40]))

/-- 40_bitpack.md R107: the commands of one unpacking call compute `unpack8to7` with the tag `CTRL.TAG` keeps, also with
commands of other units between them (but `SYS.SRESET`; log entry 15); with room for its values the call is accepted
whole. -/
def Obligations.UnpackEquivalence : Prop :=
  (∀ (cs : List Instr) (bs : List Byte) (f : Bool) (s t : State), s.up.n = 0 →
    cs.filter Instr.isUp = unpackCommands bs f → .sysSreset ∉ cs →
    (∀ c, .sysWrctrl c ∈ cs → c.getLsbD 0 = s.tag) → acceptAll cs s = some t →
    t.upo.taken = s.upo.taken ∧ t.upo.entries = s.upo.entries ++ unpack8to7 bs f s.tag ∧ t.up.n = 0) ∧
  (∀ (bs : List Byte) (f : Bool) (s : State), s.up.n = 0 →
    (unpack8to7 bs f s.tag).length ≤ s.upo.free s.params.upoDepth → ∃ t, acceptAll (unpackCommands bs f) s = some t)

/-- 40_bitpack.md R108: the tag is never stored and never affects the data bits: with another `CTRL.TAG` the same `UP`
command leaves the same residual bits and emits the same data bits, and bit 7 of what it emits is `CTRL.TAG`. -/
def Obligations.TagIsAppliedAtEmission : Prop :=
  ∀ (i : Instr) (s t : State) (c : BitVec 2), i.isUp = true → held i s = false → exec i s = .next t →
    ∃ out out' t', exec i { s with ctrl := c } = .next t' ∧ t'.up = t.up ∧
      t.upo.entries = s.upo.entries ++ out ∧ t'.upo.entries = s.upo.entries ++ out' ∧
      out'.map dataBits = out.map dataBits ∧
      (∀ u ∈ out, u.getLsbD 7 = s.tag) ∧ (∀ u ∈ out', u.getLsbD 7 = c.getLsbD 0)

/-- 40_bitpack.md R109, R112: `RX.PUSH b` gives the top 7 of the `RX.n + 8` bits to `fr_step`, tag 0 whatever `CTRL.TAG`
is, and then a second value when 7 bits are left; held while the frame these values would close finds `FRO` full. With
the rule's example. -/
def Obligations.RxPush : Prop :=
  (∀ b : Byte, encode (.rxPush b) = 0x2200 ||| b.setWidth 16) ∧
  (∀ (b u : Byte) (s : State), s.rx.n.toNat ≤ 5 →
    u.toNat = (s.rx.acc.toNat * 256 + b.toNat) / 2 ^ (s.rx.n.toNat + 1) % 128 →
    (s.fr.framesClosed s.params.frDepth [u] ≤ s.fro.free s.params.froDepth →
      exec (.rxPush b) s = .next ({ s with
        rx := ⟨BitVec.ofNat 6 ((s.rx.acc.toNat * 256 + b.toNat) % 2 ^ (s.rx.n.toNat + 1)), s.rx.n + 1⟩
        port := none }.frStep u)) ∧
    (s.fro.free s.params.froDepth < s.fr.framesClosed s.params.frDepth [u] → exec (.rxPush b) s = .next s)) ∧
  (∀ (b u v : Byte) (s : State), s.rx.n = 6 →
    u.toNat = (s.rx.acc.toNat * 256 + b.toNat) / 128 % 128 → v.toNat = b.toNat % 128 →
    (s.fr.framesClosed s.params.frDepth [u, v] ≤ s.fro.free s.params.froDepth →
      exec (.rxPush b) s = .next (({ s with rx := ⟨0, 0⟩, port := none }.frStep u).frStep v)) ∧
    (s.fro.free s.params.froDepth < s.fr.framesClosed s.params.frDepth [u, v] → exec (.rxPush b) s = .next s)) ∧
  (∀ p : Params, (acceptAll [.rxPush 0x04] (State.resetWith p)).map (fun t => (t.fr.state, t.readReg 4)) =
    some (.collecting, 0x0001))

/-- 40_bitpack.md R110, R112: `RX.END f` gives the residual bits, left-justified over zeros, to `fr_step` if `f` is 1
and there are any, and they are gone afterwards. With the rule's example. That the flushed value can so change `FR.state`, against the rule's
own sentence that `RX.END` does not touch it, is the model's reading (DEDUCED, log entry 15). -/
def Obligations.RxEnd : Prop :=
  (∀ f : Bool, encode (.rxEnd f) = 0x2300 ||| (BitVec.ofBool f).setWidth 16) ∧
  (∀ (f : Bool) (s : State), f = false ∨ s.rx.n = 0 →
    exec (.rxEnd f) s = .next { s with rx := ⟨0, 0⟩, port := none }) ∧
  (∀ (u : Byte) (s : State), s.rx.n ≠ 0 → u.toNat = s.rx.acc.toNat * 2 ^ (7 - s.rx.n.toNat) % 128 →
    s.fr.framesClosed s.params.frDepth [u] ≤ s.fro.free s.params.froDepth →
    exec (.rxEnd true) s = .next ({ s with rx := ⟨0, 0⟩, port := none }.frStep u)) ∧
  (∀ p : Params, p.Legal → (acceptAll [.rxPush 0x04, .rxEnd true] (State.resetWith p)).map
    (fun t => (t.fr.state, t.fr.buf)) = some (.collecting, [0x00]))

/-- 40_bitpack.md R110: `RX.END` ends no frame by a close: the flushed value is even, so it is never `frameEnd`; the
command is never held and emits nothing to `FRO`. -/
def Obligations.RxEndNeverCloses : Prop :=
  ∀ (f : Bool) (s : State), s.rx.n.toNat ≤ 6 →
    ∃ t, exec (.rxEnd f) s = .next t ∧ t.port = none ∧ t.fro = s.fro ∧
      t.stat .short = s.stat .short ∧ t.stat .ckerr = s.stat .ckerr

/-- 40_bitpack.md R111: one inbound message applies `fr_step` to each value of `unpack8to7` with tag 0, in order; with
room for the frames they close it is accepted whole. -/
def Obligations.RxEquivalence : Prop :=
  (∀ (bs : List Byte) (f : Bool) (s t : State), s.rx.n = 0 → acceptAll (rxmsgCommands bs f) s = some t →
    t = { (unpack8to7 bs f false).foldl State.frStep s with rx := ⟨0, 0⟩, port := none }) ∧
  (∀ (bs : List Byte) (f : Bool) (s : State), s.rx.n = 0 →
    s.fr.framesClosed s.params.frDepth (unpack8to7 bs f false) ≤ s.fro.free s.params.froDepth →
    ∃ t, acceptAll (rxmsgCommands bs f) s = some t)

/-- 10_state.md R27: no command of `UP` reads or writes the state of `RX`, nor the other way round. -/
def Obligations.UnpackersIndependent : Prop :=
  ∀ (i : Instr) (s t : State) (r : Unpacker), exec i s = .next t →
    (i.isUp = true → t.rx = s.rx ∧ exec i { s with rx := r } = .next { t with rx := r }) ∧
    (i.op = .rxPush ∨ i.op = .rxEnd → t.up = s.up ∧ exec i { s with up := r } = .next { t with up := r })

/-! ### Checksum -/

/-- 41_checksum.md R130, R131: the checksum is the XOR fold, raised by 10 when below 10, so it is in [10, 255], never a
delimiter, below 128 when every byte is, and independent of the order of the bytes. With the rule's examples. -/
def Obligations.ChecksumFunction : Prop :=
  (∀ r : Byte, (ck10 r).toNat = if r.toNat < 10 then r.toNat + 10 else r.toNat) ∧
  (∀ s : List Byte, checksum s = ck10 (xorfold s) ∧ xorfold s = s.foldr (· ^^^ ·) 0) ∧
  (∀ s : List Byte, 10 ≤ (checksum s).toNat ∧ (checksum s).toNat ≤ 255) ∧
  (∀ s : List Byte, (∀ b ∈ s, b.toNat < 128) → (checksum s).toNat ≤ 127) ∧
  (∀ s : List Byte, ((xorfold s).toNat ≤ 9 → (checksum s).toNat = (xorfold s).toNat + 10) ∧
    (9 < (xorfold s).toNat → checksum s = xorfold s)) ∧
  (∀ s : List Byte, checksum s ≠ Config.frameStart ∧ checksum s ≠ Config.frameEnd) ∧
  (∀ s s' : List Byte, s.Perm s' → checksum s' = checksum s) ∧
  checksum [] = 10 ∧ checksum [9] = 19 ∧ checksum [10] = 10 ∧ checksum [2, 5, 1, 2] = 14 ∧
  checksum [2, 5, 3, 4] = 10 ∧ checksum [0x80, 0x7F] = 0xFF

/-- 41_checksum.md R135, R136: two raw folds share a checksum exactly when they are `j` and `j + 10` for a `j` below 10;
inverting one bit of one byte always changes the checksum. -/
def Obligations.ChecksumDetection : Prop :=
  (∀ r r' : Byte, r ≠ r' →
    (ck10 r = ck10 r' ↔ ∃ j < 10, (r.toNat = j ∧ r'.toNat = j + 10) ∨ (r'.toNat = j ∧ r.toNat = j + 10))) ∧
  checksum [2, 5, 3, 4] = 10 ∧ checksum [2, 5, 9, 4] = 10 ∧
  (∀ (before after : List Byte) (b : Byte) (k : Nat), k < 8 →
    xorfold (before ++ (b ^^^ 1#8 <<< k) :: after) = xorfold (before ++ b :: after) ^^^ 1#8 <<< k ∧
    checksum (before ++ (b ^^^ 1#8 <<< k) :: after) ≠ checksum (before ++ b :: after))

/-- 41_checksum.md R132, R133: `CK.INIT d` loads the accumulator and `CK.ADD d` folds a byte into it; neither is ever
held, sets a STATUS bit or emits. With the rules' examples. -/
def Obligations.CkCommands : Prop :=
  (∀ d : Byte, encode (.ckInit d) = 0x5000 ||| d.setWidth 16 ∧ encode (.ckAdd d) = 0x5100 ||| d.setWidth 16) ∧
  (∀ (d : Byte) (s : State), exec (.ckInit d) s = .next { s with ck := d, port := none }) ∧
  (∀ (d : Byte) (s : State), exec (.ckAdd d) s = .next { s with ck := s.ck ^^^ d, port := none }) ∧
  (∀ (d : Byte) (s : State), (acceptAll [.ckAdd d, .ckAdd d] s).map (·.ck) = some s.ck) ∧
  (∀ s : State, (acceptAll [.ckInit 0x02] s).map (·.readReg 7) = some 0x0C02 ∧
    (acceptAll [.ckInit 0x02, .ckAdd 0x05, .ckAdd 0x03, .ckAdd 0x04] s).map (·.readReg 7) = some 0x0A00)

/-- 41_checksum.md R134: after `CK.INIT 0` and a `CK.ADD` for each byte, other units' commands between them or not (but
`SYS.SRESET`; log entry 15), `CK.acc` is the fold and `CK_ST[15:8]` the checksum; by themselves they are always accepted. -/
def Obligations.CkEquivalence : Prop :=
  (∀ (cs : List Instr) (bs : List Byte) (s t : State),
    cs.filter Instr.isCk = cksumCommands bs → .sysSreset ∉ cs → acceptAll cs s = some t →
    t.ck = xorfold bs ∧ (t.readReg 7).extractLsb' 8 8 = checksum bs) ∧
  (∀ (bs : List Byte) (s : State), ∃ t, acceptAll (cksumCommands bs) s = some t)

/-! ### The frame receiver -/

/-- 42_frame_rx.md R141, R142, R143, R148, through `FR.PUSH u` (R149): every arm of `fr_step` but the close. -/
def Obligations.ReceiverArms : Prop :=
  (∀ u : Byte, encode (.frPush u) = 0x3000 ||| u.setWidth 16) ∧
  (∀ s : State, s.fr.state = .idle → exec (.frPush 2) s = .next { s with fr := ⟨.collecting, []⟩, port := none }) ∧
  (∀ (u : Byte) (s : State), s.fr.state = .idle → u ≠ 2 → exec (.frPush u) s = .next { s with port := none }) ∧
  (∀ (u : Byte) (s : State), s.fr.state = .collecting → u ≠ 3 → s.fr.buf.length < s.params.frDepth →
    exec (.frPush u) s = .next { s with fr := ⟨.collecting, s.fr.buf ++ [u]⟩, port := none }) ∧
  (∀ (u : Byte) (s : State), s.fr.state = .collecting → u ≠ 3 → s.fr.buf.length = s.params.frDepth →
    exec (.frPush u) s =
      .next { s with fr := ⟨.overrun, []⟩, status := s.status ||| 0b00100, port := none }) ∧
  (∀ s : State, s.fr.state = .overrun →
    exec (.frPush 3) s = .next { s with fr := ⟨.idle, s.fr.buf⟩, port := none }) ∧
  (∀ (u : Byte) (s : State), s.fr.state = .overrun → u ≠ 3 → exec (.frPush u) s = .next { s with port := none })

/-- 42_frame_rx.md R144 to R147, through `FR.PUSH 3`: a close with 0 or 1 buffered bytes sets `SHORT`; with more, the
last byte is compared with the checksum over `frameStart` and the others, and the frame goes to `FRO` without it, held
while `FRO` is full; or `CKERR` is set. With the example of R149. -/
def Obligations.FrameClose : Prop :=
  (∀ s : State, s.fr.state = .collecting → s.fr.buf.length ≤ 1 →
    exec (.frPush 3) s = .next { s with fr := ⟨.idle, []⟩, status := s.status ||| 0b00010, port := none }) ∧
  (∀ (body : List Byte) (c : Byte) (s : State), s.fr = ⟨.collecting, body ++ [c]⟩ → body ≠ [] →
    (checksum (2 :: body) = c → 1 ≤ s.fro.free s.params.froDepth →
      exec (.frPush 3) s =
        .next { s with fr := ⟨.idle, []⟩, fro := ⟨s.fro.taken, s.fro.entries ++ [body]⟩, port := none }) ∧
    (s.fr.Wf s.params.frDepth → FrameOk s.params.frDepth body) ∧
    (checksum (2 :: body) = c → s.fro.free s.params.froDepth = 0 → exec (.frPush 3) s = .next s) ∧
    (checksum (2 :: body) ≠ c →
      exec (.frPush 3) s = .next { s with fr := ⟨.idle, []⟩, status := s.status ||| 0b00001, port := none })) ∧
  (∀ p : Params, 4 ≤ p.frDepth → p.Legal →
    (acceptAll [.frPush 2, .frPush 5, .frPush 1, .frPush 2, .frPush 14, .frPush 3] (State.resetWith p)).map
      (fun t => (t.fro.entries, t.readReg 5)) = some ([[5, 1, 2]], 0x0000))

/-- 42_frame_rx.md R150: `FR.ABORT` abandons the frame without a STATUS bit, is never held and changes nothing else. -/
def Obligations.FrAbort : Prop :=
  encode .frAbort = 0x3100 ∧
  (∀ s : State, exec .frAbort s = .next { s with fr := ⟨.idle, []⟩, port := none }) ∧
  (∀ p : Params, p.Legal →
    (acceptAll [.frPush 2, .frPush 5] (State.resetWith p)).map (·.readReg 5) = some 0x0101 ∧
    (acceptAll [.frPush 2, .frPush 5, .frAbort] (State.resetWith p)).map (fun t => (t.readReg 5, t.fro.entries)) =
      some (0x0000, []))

/-- 42_frame_rx.md R153: at most one `FRO` entry per command, and at most one of `SHORT`, `CKERR` and `OVF` per value
given to `fr_step`. -/
def Obligations.OneFramePerCommand : Prop :=
  (∀ (i : Instr) (s t : State), exec i s = .next t →
    ∃ fs, t.fro.entries = s.fro.entries ++ fs ∧ fs.length ≤ 1) ∧
  (∀ (s : State) (u : Byte), (s.frStep u).status = s.status ∨ (s.frStep u).status = s.status ||| 0b00001 ∨
    (s.frStep u).status = s.status ||| 0b00010 ∨ (s.frStep u).status = s.status ||| 0b00100)

/-! ### The frame transmitter -/

/-- 43_frame_tx.md R171: `FT.START i` opens a frame in the form `CTRL.TXFORM` chooses; while one is open it sets `SEQ`
and nothing else; held while `FTO` lacks room, never in the `SEQ` case. With the rule's examples. -/
def Obligations.FtStart : Prop :=
  (∀ i : Byte, encode (.ftStart i) = 0x4000 ||| i.setWidth 16) ∧
  (∀ (i : Byte) (s : State), s.ft.opened = true →
    exec (.ftStart i) s = .next { s with status := s.status ||| 0b10000, port := none }) ∧
  (∀ (i : Byte) (s : State), s.ft.opened = false → s.txform = false → 1 ≤ s.fto.free s.params.ftoDepth →
    exec (.ftStart i) s =
      .next { s with ft := ⟨true, i⟩, fto := ⟨s.fto.taken, s.fto.entries ++ [i]⟩, port := none }) ∧
  (∀ (i : Byte) (s : State), s.ft.opened = false → s.txform = true → 2 ≤ s.fto.free s.params.ftoDepth →
    exec (.ftStart i) s =
      .next { s with ft := ⟨true, 2 ^^^ i⟩, fto := ⟨s.fto.taken, s.fto.entries ++ [2, i]⟩, port := none }) ∧
  (∀ (i : Byte) (s : State), s.ft.opened = false →
    s.fto.free s.params.ftoDepth < (if s.txform then 2 else 1) → exec (.ftStart i) s = .next s) ∧
  (∀ p : Params, p.Legal →
    (acceptAll [.ftStart 5] (State.resetWith p)).map (fun t => (t.fto.entries, t.readReg 6)) = some ([5], 0x0105) ∧
    (acceptAll [.sysWrctrl 2, .ftStart 5] (State.resetWith p)).map (fun t => (t.fto.entries, t.readReg 6)) =
      some ([2, 5], 0x0107))

/-- 43_frame_tx.md R172: `FT.DATA b` emits a payload byte as it is and folds it into `FT.x`; with no frame open it sets
`SEQ` and nothing else; held while `FTO` is full and a byte would be emitted. With the rule's example. -/
def Obligations.FtData : Prop :=
  (∀ b : Byte, encode (.ftData b) = 0x4100 ||| b.setWidth 16) ∧
  (∀ (b : Byte) (s : State), s.ft.opened = false →
    exec (.ftData b) s = .next { s with status := s.status ||| 0b10000, port := none }) ∧
  (∀ (b : Byte) (s : State), s.ft.opened = true → 1 ≤ s.fto.free s.params.ftoDepth →
    exec (.ftData b) s =
      .next { s with ft := ⟨true, s.ft.x ^^^ b⟩, fto := ⟨s.fto.taken, s.fto.entries ++ [b]⟩, port := none }) ∧
  (∀ (b : Byte) (s : State), s.ft.opened = true → s.fto.free s.params.ftoDepth = 0 →
    exec (.ftData b) s = .next s) ∧
  (∀ p : Params, p.Legal →
    (acceptAll [.ftStart 5, .ftData 65] (State.resetWith p)).map (fun t => (t.fto.entries, t.readReg 6)) =
      some ([5, 65], 0x0144))

/-- 43_frame_tx.md R173: `FT.END` emits the checksum and `frameEnd` and closes the frame, `FT.x` keeping its value; with
no frame open it sets `SEQ` and nothing else; held while a frame is open and `FTO` has fewer than 2 free entries. -/
def Obligations.FtEnd : Prop :=
  encode .ftEnd = 0x4200 ∧
  (∀ s : State, s.ft.opened = false →
    exec .ftEnd s = .next { s with status := s.status ||| 0b10000, port := none }) ∧
  (∀ s : State, s.ft.opened = true → 2 ≤ s.fto.free s.params.ftoDepth →
    exec .ftEnd s = .next { s with
      ft := ⟨false, s.ft.x⟩, fto := ⟨s.fto.taken, s.fto.entries ++ [ck10 s.ft.x, 3]⟩, port := none }) ∧
  (∀ s : State, s.ft.opened = true → s.fto.free s.params.ftoDepth < 2 → exec .ftEnd s = .next s) ∧
  (∀ x : Byte, 10 ≤ (ck10 x).toNat ∧ (ck10 x).toNat ≤ 255) ∧
  (∀ (i : Byte) (p : Params), p.Legal → 3 ≤ p.ftoDepth →
    (acceptAll [.ftStart i, .ftEnd] (State.resetWith p)).map (·.fto.entries) = some [i, checksum [i], 3]) ∧
  (∀ p : Params, p.Legal → 4 ≤ p.ftoDepth →
    (acceptAll [.ftStart 5, .ftData 65, .ftEnd] (State.resetWith p)).map (fun t => (t.fto.entries, t.readReg 6)) =
      some ([5, 65, 68, 3], 0x0044))

/-- 43_frame_tx.md R174: `FT.START`, the payload and `FT.END`, other units' commands between them or not (but
`SYS.SRESET`; log entry 15), append the frame of R170 in the form `CTRL.TXFORM` chose at `FT.START`; with room for it the
frame is accepted whole. -/
def Obligations.TxFrame : Prop :=
  (∀ (cs : List Instr) (id : Byte) (p : List Byte) (s t : State), s.ft.opened = false →
    cs.filter Instr.isFt = p.map .ftData ++ [.ftEnd] → .sysSreset ∉ cs →
    acceptAll (.ftStart id :: cs) s = some t →
    t.fto.taken = s.fto.taken ∧ t.fto.entries = s.fto.entries ++ outboundFrame s.txform id p ∧
    t.ft.opened = false ∧ t.ft.x = xorfold (coveredBytes s.txform id p)) ∧
  (∀ (id : Byte) (p : List Byte) (s : State), s.ft.opened = false →
    (outboundFrame s.txform id p).length ≤ s.fto.free s.params.ftoDepth →
    ∃ t, acceptAll (txframeCommands id p) s = some t)

/-- 43_frame_tx.md R177, first sentence: a frame in the framed form, with bytes below 128 and none of them 3, sent, packed
with flush and received with flush, gives exactly one `FRO` entry, the id and the payload. -/
def Obligations.Loopback : Prop :=
  ∀ (id : Byte) (p : List Byte) (s : State),
    (∀ b ∈ id :: p, b.toNat < 128 ∧ b ≠ 3) → p.length + 2 ≤ s.params.frDepth →
    s.txform = true → s.ft.opened = false → s.pk.n = 0 → s.rx.n = 0 → s.fr.state = .idle →
    p.length + 4 ≤ s.fto.free s.params.ftoDepth → p.length + 4 ≤ s.pko.free s.params.pkoDepth →
    1 ≤ s.fro.free s.params.froDepth →
    ∃ t, acceptAll (txframeCommands id p ++ packCommands ((outboundFrame true id p).map dataBits) true ++
        rxmsgCommands (pack7to8 ((outboundFrame true id p).map dataBits) true) true) s = some t ∧
      t.fto.entries = s.fto.entries ++ outboundFrame true id p ∧
      t.pko.entries = s.pko.entries ++ pack7to8 ((outboundFrame true id p).map dataBits) true ∧
      t.fro.entries = s.fro.entries ++ [id :: p] ∧ t.fr.state = .idle ∧ t.status = s.status

/-- 43_frame_tx.md R177, last sentence, for a buffer with room for one value more than the frame needs (log entry 15):
packed without flush, the frame is received exactly when its length is a multiple of 8; otherwise nothing is emitted
and the receiver stays in `Collecting`. -/
def Obligations.LoopbackUnflushed : Prop :=
  ∀ (id : Byte) (p : List Byte) (s t : State),
    (∀ b ∈ id :: p, b.toNat < 128 ∧ b ≠ 3) → p.length + 3 ≤ s.params.frDepth → s.rx.n = 0 → s.fr.state = .idle →
    acceptAll (rxmsgCommands (pack7to8 ((outboundFrame true id p).map dataBits) false) true) s = some t →
    ((p.length + 4) % 8 = 0 → t.fro.entries = s.fro.entries ++ [id :: p]) ∧
    ((p.length + 4) % 8 ≠ 0 → t.fro = s.fro ∧ t.fr.state = .collecting)

/-! ### Whole-machine statements -/

/-- The frame of every command (10_state.md R23 to R32, "written by"): what it does not name stays as it was; the FIFOs
only grow at their tails; parameters, the host's events and its records are never touched. -/
def Obligations.FrameRule : Prop :=
  ∀ (i : Instr) (s t : State), exec i s = .next t →
    t.params = s.params ∧ t.hostEvents = s.hostEvents ∧ t.answers = s.answers ∧
    t.pko.taken = s.pko.taken ∧ t.upo.taken = s.upo.taken ∧ t.fro.taken = s.fro.taken ∧ t.fto.taken = s.fto.taken ∧
    (t.ctrl = s.ctrl ∨ i.op = .sysWrctrl ∨ i.op = .sysSreset) ∧
    (t.status = s.status ∨ i.op = .sysClrstat ∨ i.op = .sysSreset ∨ i.feedsReceiver = true ∨ i.isFt = true) ∧
    (t.pk = s.pk ∨ i.isPk = true ∨ i.op = .sysSreset) ∧
    (t.up = s.up ∨ i.isUp = true ∨ i.op = .sysSreset) ∧
    (t.rx = s.rx ∨ i.op = .rxPush ∨ i.op = .rxEnd ∨ i.op = .sysSreset) ∧
    (t.fr = s.fr ∨ i.feedsReceiver = true ∨ i.op = .frAbort ∨ i.op = .sysSreset) ∧
    (t.ft = s.ft ∨ i.isFt = true ∨ i.op = .sysSreset) ∧
    (t.ck = s.ck ∨ i.isCk = true ∨ i.op = .sysSreset) ∧
    s.pko.entries <+: t.pko.entries ∧ (t.pko = s.pko ∨ i.isPk = true) ∧
    s.upo.entries <+: t.upo.entries ∧ (t.upo = s.upo ∨ i.isUp = true) ∧
    s.fro.entries <+: t.fro.entries ∧ (t.fro = s.fro ∨ i.feedsReceiver = true) ∧
    s.fto.entries <+: t.fto.entries ∧ (t.fto = s.fto ∨ i.isFt = true)

/-- Every step keeps the invariant: residual counts and bits in range (10_state.md R25 to R27), the frame buffer within
`FR_DEPTH` and empty outside `Collecting` (R29), no FIFO over its depth (R32), every frame of `FRO` of 1 to
`FR_DEPTH - 1` bytes without `frameEnd` (42_frame_rx.md R151), the parameters legal (00_scope.md R8). -/
def Obligations.StepKeepsInv : Prop := ∀ s t : State, s.Inv → step s = .next t → t.Inv

/-- The reset state meets the invariant, for all legal parameters, those of `State.reset` among them. -/
def Obligations.ResetInv : Prop := (∀ p : Params, p.Legal → (State.resetWith p).Inv) ∧ State.reset.Inv
end

