-- ==== Sys2Proof/Laws/Encoding.lean ====
section
/-!
SUPPORT. The fields of a word, and what decoding and encoding say field by field (30_encoding.md R70 to R77).
-/

namespace Sys2Proof

/-- A word is its three fields, `{UNIT, FUNC, DATA}`. -/
theorem word_eq_fields (w : Word) : w = unitField w ++ funcField w ++ dataField w := by
  apply BitVec.eq_of_getLsbD_eq
  intro i hi
  simp only [unitField, funcField, dataField, BitVec.getLsbD_append, BitVec.getLsbD_extractLsb']
  by_cases h1 : i < 8
  · simp [h1]
  · by_cases h2 : i - 8 < 4
    · simp [h1, h2, show 8 + (i - 8) = i by omega]
    · simp [h1, h2, show 12 + (i - 8 - 4) = i by omega, show i - 8 - 4 < 4 by omega]

/-- The bits of the word of three fields. -/
theorem getLsbD_fields (u f : BitVec 4) (d : Byte) (i : Nat) :
    BitVec.getLsbD (u ++ f ++ d : Word) i =
      if i < 8 then d.getLsbD i else if i - 8 < 4 then f.getLsbD (i - 8) else u.getLsbD (i - 8 - 4) := by
  refine (BitVec.getLsbD_append (x := u ++ f) (y := d) (i := i)).trans ?_
  rw [BitVec.getLsbD_append]

theorem unitField_append (u f : BitVec 4) (d : Byte) : unitField (u ++ f ++ d) = u := by
  apply BitVec.eq_of_getLsbD_eq
  intro i hi
  have h1 : ¬ 12 + i < 8 := by omega
  have h2 : ¬ 12 + i - 8 < 4 := by omega
  have h3 : 12 + i - 8 - 4 = i := by omega
  rw [unitField, BitVec.getLsbD_extractLsb', getLsbD_fields]
  simp [hi, h1, h2, h3]

theorem funcField_append (u f : BitVec 4) (d : Byte) : funcField (u ++ f ++ d) = f := by
  apply BitVec.eq_of_getLsbD_eq
  intro i hi
  have h2 : 8 + i - 8 = i := by omega
  rw [funcField, BitVec.getLsbD_extractLsb', getLsbD_fields]
  simp [hi]

theorem dataField_append (u f : BitVec 4) (d : Byte) : dataField (u ++ f ++ d) = d := by
  apply BitVec.eq_of_getLsbD_eq
  intro i hi
  rw [dataField, BitVec.getLsbD_extractLsb', getLsbD_fields]
  simp [hi]

/-- A word is an instruction's encoding exactly when its three fields are the instruction's. -/
theorem encode_eq_iff (i : Instr) (w : Word) :
    encode i = w ↔ unitField w = i.op.unit ∧ funcField w = i.op.func ∧ dataField w = i.data := by
  constructor
  · rintro rfl
    exact ⟨unitField_append .., funcField_append .., dataField_append ..⟩
  · rintro ⟨hu, hf, hd⟩
    rw [word_eq_fields w, hu, hf, hd, encode]

/-- The pair `(UNIT, FUNC)` names an operation exactly when it is that operation's (30_encoding.md R73). -/
theorem opOf_eq_some_iff (op : Op) (u f : BitVec 4) : opOf u f = some op ↔ u = op.unit ∧ f = op.func := by
  revert u f
  cases op <;> decide

/-- Everything a word that decodes to a command says. -/
theorem decode_eq_command_iff (w : Word) (i : Instr) :
    decode w = .command i ↔
      ∃ op : Op, unitField w = op.unit ∧ funcField w = op.func ∧ dataField w &&& op.form.mustBeZero = 0 ∧
        i = op.withData (dataField w) := by
  have hlt : ∀ op : Op, ¬ 6 ≤ op.unit.toNat := by intro op; cases op <;> decide
  unfold decode
  constructor
  · intro h
    split at h
    · cases h
    · split at h
      · cases h
      · next op hop =>
        obtain ⟨hu, hf⟩ := (opOf_eq_some_iff ..).1 hop
        split at h
        · next hz => exact ⟨op, hu, hf, hz, by simpa using h.symm⟩
        · cases h
  · rintro ⟨op, hu, hf, hz, rfl⟩
    simp [hu, hf, hz, hlt op, (opOf_eq_some_iff op op.unit op.func).2 ⟨rfl, rfl⟩]

/-- An instruction made from `DATA` has that operation, and that `DATA` where the form's must-be-0 bits are 0. -/
@[simp] theorem op_withData (op : Op) (d : Byte) : (op.withData d).op = op := by cases op <;> rfl

set_option maxRecDepth 4000 in
theorem data_withData (op : Op) (d : Byte) (h : d &&& op.form.mustBeZero = 0) : (op.withData d).data = d := by
  revert d
  cases op <;> decide

set_option maxRecDepth 4000 in
/-- An instruction's `DATA` has its form's must-be-0 bits 0, and gives the instruction back (30_encoding.md R72). -/
theorem withData_data (i : Instr) : i.data &&& i.op.form.mustBeZero = 0 ∧ i.op.withData i.data = i := by
  cases i with
  | sysNop | sysSreset | frAbort | ftEnd => decide
  | sysWrctrl c => revert c; decide
  | sysClrstat m => revert m; decide
  | pkPush v => revert v; decide
  | pkEnd f => revert f; decide
  | upEnd f => revert f; decide
  | rxEnd f => revert f; decide
  | upPush b | rxPush b | frPush b | ftStart b | ftData b | ckInit b | ckAdd b => exact ⟨BitVec.and_zero, rfl⟩

end Sys2Proof
end

