-- ==== Sys2Proof/Laws/State.lean ====
section
/-!
SUPPORT. One lemma per field per update of `State`, so that no later proof unfolds a record update.
-/

namespace Sys2Proof.Machine

variable (s : State)

/-! ### setstat -/

@[simp] theorem setstat_params (b : StatusBit) : (s.setstat b).params = s.params := rfl
@[simp] theorem setstat_ctrl (b : StatusBit) : (s.setstat b).ctrl = s.ctrl := rfl
@[simp] theorem setstat_status (b : StatusBit) : (s.setstat b).status = s.status ||| b.mask := rfl
@[simp] theorem setstat_pk (b : StatusBit) : (s.setstat b).pk = s.pk := rfl
@[simp] theorem setstat_up (b : StatusBit) : (s.setstat b).up = s.up := rfl
@[simp] theorem setstat_rx (b : StatusBit) : (s.setstat b).rx = s.rx := rfl
@[simp] theorem setstat_fr (b : StatusBit) : (s.setstat b).fr = s.fr := rfl
@[simp] theorem setstat_ft (b : StatusBit) : (s.setstat b).ft = s.ft := rfl
@[simp] theorem setstat_ck (b : StatusBit) : (s.setstat b).ck = s.ck := rfl
@[simp] theorem setstat_pko (b : StatusBit) : (s.setstat b).pko = s.pko := rfl
@[simp] theorem setstat_upo (b : StatusBit) : (s.setstat b).upo = s.upo := rfl
@[simp] theorem setstat_fro (b : StatusBit) : (s.setstat b).fro = s.fro := rfl
@[simp] theorem setstat_fto (b : StatusBit) : (s.setstat b).fto = s.fto := rfl
@[simp] theorem setstat_port (b : StatusBit) : (s.setstat b).port = s.port := rfl
@[simp] theorem setstat_hostEvents (b : StatusBit) : (s.setstat b).hostEvents = s.hostEvents := rfl
@[simp] theorem setstat_answers (b : StatusBit) : (s.setstat b).answers = s.answers := rfl

/-! ### clrstat -/

@[simp] theorem clrstat_params (m : BitVec 5) : (s.clrstat m).params = s.params := rfl
@[simp] theorem clrstat_ctrl (m : BitVec 5) : (s.clrstat m).ctrl = s.ctrl := rfl
@[simp] theorem clrstat_status (m : BitVec 5) : (s.clrstat m).status = s.status &&& ~~~m := rfl
@[simp] theorem clrstat_pk (m : BitVec 5) : (s.clrstat m).pk = s.pk := rfl
@[simp] theorem clrstat_up (m : BitVec 5) : (s.clrstat m).up = s.up := rfl
@[simp] theorem clrstat_rx (m : BitVec 5) : (s.clrstat m).rx = s.rx := rfl
@[simp] theorem clrstat_fr (m : BitVec 5) : (s.clrstat m).fr = s.fr := rfl
@[simp] theorem clrstat_ft (m : BitVec 5) : (s.clrstat m).ft = s.ft := rfl
@[simp] theorem clrstat_ck (m : BitVec 5) : (s.clrstat m).ck = s.ck := rfl
@[simp] theorem clrstat_pko (m : BitVec 5) : (s.clrstat m).pko = s.pko := rfl
@[simp] theorem clrstat_upo (m : BitVec 5) : (s.clrstat m).upo = s.upo := rfl
@[simp] theorem clrstat_fro (m : BitVec 5) : (s.clrstat m).fro = s.fro := rfl
@[simp] theorem clrstat_fto (m : BitVec 5) : (s.clrstat m).fto = s.fto := rfl
@[simp] theorem clrstat_port (m : BitVec 5) : (s.clrstat m).port = s.port := rfl
@[simp] theorem clrstat_hostEvents (m : BitVec 5) : (s.clrstat m).hostEvents = s.hostEvents := rfl
@[simp] theorem clrstat_answers (m : BitVec 5) : (s.clrstat m).answers = s.answers := rfl

/-! ### emitPko -/

@[simp] theorem emitPko_params (bs : List Byte) : (s.emitPko bs).params = s.params := rfl
@[simp] theorem emitPko_ctrl (bs : List Byte) : (s.emitPko bs).ctrl = s.ctrl := rfl
@[simp] theorem emitPko_status (bs : List Byte) : (s.emitPko bs).status = s.status := rfl
@[simp] theorem emitPko_pk (bs : List Byte) : (s.emitPko bs).pk = s.pk := rfl
@[simp] theorem emitPko_up (bs : List Byte) : (s.emitPko bs).up = s.up := rfl
@[simp] theorem emitPko_rx (bs : List Byte) : (s.emitPko bs).rx = s.rx := rfl
@[simp] theorem emitPko_fr (bs : List Byte) : (s.emitPko bs).fr = s.fr := rfl
@[simp] theorem emitPko_ft (bs : List Byte) : (s.emitPko bs).ft = s.ft := rfl
@[simp] theorem emitPko_ck (bs : List Byte) : (s.emitPko bs).ck = s.ck := rfl
@[simp] theorem emitPko_pko (bs : List Byte) : (s.emitPko bs).pko = s.pko.append bs := rfl
@[simp] theorem emitPko_upo (bs : List Byte) : (s.emitPko bs).upo = s.upo := rfl
@[simp] theorem emitPko_fro (bs : List Byte) : (s.emitPko bs).fro = s.fro := rfl
@[simp] theorem emitPko_fto (bs : List Byte) : (s.emitPko bs).fto = s.fto := rfl
@[simp] theorem emitPko_port (bs : List Byte) : (s.emitPko bs).port = s.port := rfl
@[simp] theorem emitPko_hostEvents (bs : List Byte) : (s.emitPko bs).hostEvents = s.hostEvents := rfl
@[simp] theorem emitPko_answers (bs : List Byte) : (s.emitPko bs).answers = s.answers := rfl

/-! ### emitUpo -/

@[simp] theorem emitUpo_params (vs : List Byte) : (s.emitUpo vs).params = s.params := rfl
@[simp] theorem emitUpo_ctrl (vs : List Byte) : (s.emitUpo vs).ctrl = s.ctrl := rfl
@[simp] theorem emitUpo_status (vs : List Byte) : (s.emitUpo vs).status = s.status := rfl
@[simp] theorem emitUpo_pk (vs : List Byte) : (s.emitUpo vs).pk = s.pk := rfl
@[simp] theorem emitUpo_up (vs : List Byte) : (s.emitUpo vs).up = s.up := rfl
@[simp] theorem emitUpo_rx (vs : List Byte) : (s.emitUpo vs).rx = s.rx := rfl
@[simp] theorem emitUpo_fr (vs : List Byte) : (s.emitUpo vs).fr = s.fr := rfl
@[simp] theorem emitUpo_ft (vs : List Byte) : (s.emitUpo vs).ft = s.ft := rfl
@[simp] theorem emitUpo_ck (vs : List Byte) : (s.emitUpo vs).ck = s.ck := rfl
@[simp] theorem emitUpo_pko (vs : List Byte) : (s.emitUpo vs).pko = s.pko := rfl
@[simp] theorem emitUpo_upo (vs : List Byte) : (s.emitUpo vs).upo = s.upo.append vs := rfl
@[simp] theorem emitUpo_fro (vs : List Byte) : (s.emitUpo vs).fro = s.fro := rfl
@[simp] theorem emitUpo_fto (vs : List Byte) : (s.emitUpo vs).fto = s.fto := rfl
@[simp] theorem emitUpo_port (vs : List Byte) : (s.emitUpo vs).port = s.port := rfl
@[simp] theorem emitUpo_hostEvents (vs : List Byte) : (s.emitUpo vs).hostEvents = s.hostEvents := rfl
@[simp] theorem emitUpo_answers (vs : List Byte) : (s.emitUpo vs).answers = s.answers := rfl

/-! ### emitFro -/

@[simp] theorem emitFro_params (f : List Byte) : (s.emitFro f).params = s.params := rfl
@[simp] theorem emitFro_ctrl (f : List Byte) : (s.emitFro f).ctrl = s.ctrl := rfl
@[simp] theorem emitFro_status (f : List Byte) : (s.emitFro f).status = s.status := rfl
@[simp] theorem emitFro_pk (f : List Byte) : (s.emitFro f).pk = s.pk := rfl
@[simp] theorem emitFro_up (f : List Byte) : (s.emitFro f).up = s.up := rfl
@[simp] theorem emitFro_rx (f : List Byte) : (s.emitFro f).rx = s.rx := rfl
@[simp] theorem emitFro_fr (f : List Byte) : (s.emitFro f).fr = s.fr := rfl
@[simp] theorem emitFro_ft (f : List Byte) : (s.emitFro f).ft = s.ft := rfl
@[simp] theorem emitFro_ck (f : List Byte) : (s.emitFro f).ck = s.ck := rfl
@[simp] theorem emitFro_pko (f : List Byte) : (s.emitFro f).pko = s.pko := rfl
@[simp] theorem emitFro_upo (f : List Byte) : (s.emitFro f).upo = s.upo := rfl
@[simp] theorem emitFro_fro (f : List Byte) : (s.emitFro f).fro = s.fro.append [f] := rfl
@[simp] theorem emitFro_fto (f : List Byte) : (s.emitFro f).fto = s.fto := rfl
@[simp] theorem emitFro_port (f : List Byte) : (s.emitFro f).port = s.port := rfl
@[simp] theorem emitFro_hostEvents (f : List Byte) : (s.emitFro f).hostEvents = s.hostEvents := rfl
@[simp] theorem emitFro_answers (f : List Byte) : (s.emitFro f).answers = s.answers := rfl

/-! ### emitFto -/

@[simp] theorem emitFto_params (bs : List Byte) : (s.emitFto bs).params = s.params := rfl
@[simp] theorem emitFto_ctrl (bs : List Byte) : (s.emitFto bs).ctrl = s.ctrl := rfl
@[simp] theorem emitFto_status (bs : List Byte) : (s.emitFto bs).status = s.status := rfl
@[simp] theorem emitFto_pk (bs : List Byte) : (s.emitFto bs).pk = s.pk := rfl
@[simp] theorem emitFto_up (bs : List Byte) : (s.emitFto bs).up = s.up := rfl
@[simp] theorem emitFto_rx (bs : List Byte) : (s.emitFto bs).rx = s.rx := rfl
@[simp] theorem emitFto_fr (bs : List Byte) : (s.emitFto bs).fr = s.fr := rfl
@[simp] theorem emitFto_ft (bs : List Byte) : (s.emitFto bs).ft = s.ft := rfl
@[simp] theorem emitFto_ck (bs : List Byte) : (s.emitFto bs).ck = s.ck := rfl
@[simp] theorem emitFto_pko (bs : List Byte) : (s.emitFto bs).pko = s.pko := rfl
@[simp] theorem emitFto_upo (bs : List Byte) : (s.emitFto bs).upo = s.upo := rfl
@[simp] theorem emitFto_fro (bs : List Byte) : (s.emitFto bs).fro = s.fro := rfl
@[simp] theorem emitFto_fto (bs : List Byte) : (s.emitFto bs).fto = s.fto.append bs := rfl
@[simp] theorem emitFto_port (bs : List Byte) : (s.emitFto bs).port = s.port := rfl
@[simp] theorem emitFto_hostEvents (bs : List Byte) : (s.emitFto bs).hostEvents = s.hostEvents := rfl
@[simp] theorem emitFto_answers (bs : List Byte) : (s.emitFto bs).answers = s.answers := rfl

/-! ### release -/

@[simp] theorem release_params : (s.release).params = s.params := rfl
@[simp] theorem release_ctrl : (s.release).ctrl = s.ctrl := rfl
@[simp] theorem release_status : (s.release).status = s.status := rfl
@[simp] theorem release_pk : (s.release).pk = s.pk := rfl
@[simp] theorem release_up : (s.release).up = s.up := rfl
@[simp] theorem release_rx : (s.release).rx = s.rx := rfl
@[simp] theorem release_fr : (s.release).fr = s.fr := rfl
@[simp] theorem release_ft : (s.release).ft = s.ft := rfl
@[simp] theorem release_ck : (s.release).ck = s.ck := rfl
@[simp] theorem release_pko : (s.release).pko = s.pko := rfl
@[simp] theorem release_upo : (s.release).upo = s.upo := rfl
@[simp] theorem release_fro : (s.release).fro = s.fro := rfl
@[simp] theorem release_fto : (s.release).fto = s.fto := rfl
@[simp] theorem release_port : (s.release).port = none := rfl
@[simp] theorem release_hostEvents : (s.release).hostEvents = s.hostEvents := rfl
@[simp] theorem release_answers : (s.release).answers = s.answers := rfl

/-! ### answerRead -/

@[simp] theorem answerRead_params (a : BitVec 3) : (s.answerRead a).params = s.params := rfl
@[simp] theorem answerRead_ctrl (a : BitVec 3) : (s.answerRead a).ctrl = s.ctrl := rfl
@[simp] theorem answerRead_status (a : BitVec 3) : (s.answerRead a).status = s.status := rfl
@[simp] theorem answerRead_pk (a : BitVec 3) : (s.answerRead a).pk = s.pk := rfl
@[simp] theorem answerRead_up (a : BitVec 3) : (s.answerRead a).up = s.up := rfl
@[simp] theorem answerRead_rx (a : BitVec 3) : (s.answerRead a).rx = s.rx := rfl
@[simp] theorem answerRead_fr (a : BitVec 3) : (s.answerRead a).fr = s.fr := rfl
@[simp] theorem answerRead_ft (a : BitVec 3) : (s.answerRead a).ft = s.ft := rfl
@[simp] theorem answerRead_ck (a : BitVec 3) : (s.answerRead a).ck = s.ck := rfl
@[simp] theorem answerRead_pko (a : BitVec 3) : (s.answerRead a).pko = s.pko := rfl
@[simp] theorem answerRead_upo (a : BitVec 3) : (s.answerRead a).upo = s.upo := rfl
@[simp] theorem answerRead_fro (a : BitVec 3) : (s.answerRead a).fro = s.fro := rfl
@[simp] theorem answerRead_fto (a : BitVec 3) : (s.answerRead a).fto = s.fto := rfl
@[simp] theorem answerRead_port (a : BitVec 3) : (s.answerRead a).port = s.port := rfl
@[simp] theorem answerRead_hostEvents (a : BitVec 3) : (s.answerRead a).hostEvents = s.hostEvents := rfl
@[simp] theorem answerRead_answers (a : BitVec 3) : (s.answerRead a).answers = s.answers ++ [(a, s.readReg a)] := rfl

/-! ### resetUnits -/

@[simp] theorem resetUnits_params : (s.resetUnits).params = s.params := rfl
@[simp] theorem resetUnits_ctrl : (s.resetUnits).ctrl = 0 := rfl
@[simp] theorem resetUnits_status : (s.resetUnits).status = 0 := rfl
@[simp] theorem resetUnits_pk : (s.resetUnits).pk = Packer.clear := rfl
@[simp] theorem resetUnits_up : (s.resetUnits).up = Unpacker.clear := rfl
@[simp] theorem resetUnits_rx : (s.resetUnits).rx = Unpacker.clear := rfl
@[simp] theorem resetUnits_fr : (s.resetUnits).fr = { state := .idle, buf := [] } := rfl
@[simp] theorem resetUnits_ft : (s.resetUnits).ft = { opened := false, x := 0 } := rfl
@[simp] theorem resetUnits_ck : (s.resetUnits).ck = 0 := rfl
@[simp] theorem resetUnits_pko : (s.resetUnits).pko = s.pko := rfl
@[simp] theorem resetUnits_upo : (s.resetUnits).upo = s.upo := rfl
@[simp] theorem resetUnits_fro : (s.resetUnits).fro = s.fro := rfl
@[simp] theorem resetUnits_fto : (s.resetUnits).fto = s.fto := rfl
@[simp] theorem resetUnits_port : (s.resetUnits).port = s.port := rfl
@[simp] theorem resetUnits_hostEvents : (s.resetUnits).hostEvents = s.hostEvents := rfl
@[simp] theorem resetUnits_answers : (s.resetUnits).answers = s.answers := rfl

/-! ### hardReset -/

@[simp] theorem hardReset_params : (s.hardReset).params = s.params := rfl
@[simp] theorem hardReset_ctrl : (s.hardReset).ctrl = 0 := rfl
@[simp] theorem hardReset_status : (s.hardReset).status = 0 := rfl
@[simp] theorem hardReset_pk : (s.hardReset).pk = Packer.clear := rfl
@[simp] theorem hardReset_up : (s.hardReset).up = Unpacker.clear := rfl
@[simp] theorem hardReset_rx : (s.hardReset).rx = Unpacker.clear := rfl
@[simp] theorem hardReset_fr : (s.hardReset).fr = { state := .idle, buf := [] } := rfl
@[simp] theorem hardReset_ft : (s.hardReset).ft = { opened := false, x := 0 } := rfl
@[simp] theorem hardReset_ck : (s.hardReset).ck = 0 := rfl
@[simp] theorem hardReset_pko : (s.hardReset).pko = .empty := rfl
@[simp] theorem hardReset_upo : (s.hardReset).upo = .empty := rfl
@[simp] theorem hardReset_fro : (s.hardReset).fro = .empty := rfl
@[simp] theorem hardReset_fto : (s.hardReset).fto = .empty := rfl
@[simp] theorem hardReset_port : (s.hardReset).port = s.port := rfl
@[simp] theorem hardReset_hostEvents : (s.hardReset).hostEvents = s.hostEvents := rfl
@[simp] theorem hardReset_answers : (s.hardReset).answers = s.answers := rfl

/-! ### onRxEvent, frStep, frSteps: only `STATUS`, `FR` and `FRO` can change -/

@[simp] theorem onRxEvent_params (e : RxEvent) : (s.onRxEvent e).params = s.params := by cases e <;> rfl
@[simp] theorem onRxEvent_ctrl (e : RxEvent) : (s.onRxEvent e).ctrl = s.ctrl := by cases e <;> rfl
@[simp] theorem onRxEvent_pk (e : RxEvent) : (s.onRxEvent e).pk = s.pk := by cases e <;> rfl
@[simp] theorem onRxEvent_up (e : RxEvent) : (s.onRxEvent e).up = s.up := by cases e <;> rfl
@[simp] theorem onRxEvent_rx (e : RxEvent) : (s.onRxEvent e).rx = s.rx := by cases e <;> rfl
@[simp] theorem onRxEvent_ft (e : RxEvent) : (s.onRxEvent e).ft = s.ft := by cases e <;> rfl
@[simp] theorem onRxEvent_ck (e : RxEvent) : (s.onRxEvent e).ck = s.ck := by cases e <;> rfl
@[simp] theorem onRxEvent_pko (e : RxEvent) : (s.onRxEvent e).pko = s.pko := by cases e <;> rfl
@[simp] theorem onRxEvent_upo (e : RxEvent) : (s.onRxEvent e).upo = s.upo := by cases e <;> rfl
@[simp] theorem onRxEvent_fto (e : RxEvent) : (s.onRxEvent e).fto = s.fto := by cases e <;> rfl
@[simp] theorem onRxEvent_port (e : RxEvent) : (s.onRxEvent e).port = s.port := by cases e <;> rfl
@[simp] theorem onRxEvent_hostEvents (e : RxEvent) : (s.onRxEvent e).hostEvents = s.hostEvents := by cases e <;> rfl
@[simp] theorem onRxEvent_answers (e : RxEvent) : (s.onRxEvent e).answers = s.answers := by cases e <;> rfl
@[simp] theorem onRxEvent_fr (e : RxEvent) : (s.onRxEvent e).fr = s.fr := by cases e <;> rfl

@[simp] theorem frStep_params (u : Byte) : (s.frStep u).params = s.params := by simp [State.frStep]
@[simp] theorem frStep_ctrl (u : Byte) : (s.frStep u).ctrl = s.ctrl := by simp [State.frStep]
@[simp] theorem frStep_pk (u : Byte) : (s.frStep u).pk = s.pk := by simp [State.frStep]
@[simp] theorem frStep_up (u : Byte) : (s.frStep u).up = s.up := by simp [State.frStep]
@[simp] theorem frStep_rx (u : Byte) : (s.frStep u).rx = s.rx := by simp [State.frStep]
@[simp] theorem frStep_ft (u : Byte) : (s.frStep u).ft = s.ft := by simp [State.frStep]
@[simp] theorem frStep_ck (u : Byte) : (s.frStep u).ck = s.ck := by simp [State.frStep]
@[simp] theorem frStep_pko (u : Byte) : (s.frStep u).pko = s.pko := by simp [State.frStep]
@[simp] theorem frStep_upo (u : Byte) : (s.frStep u).upo = s.upo := by simp [State.frStep]
@[simp] theorem frStep_fto (u : Byte) : (s.frStep u).fto = s.fto := by simp [State.frStep]
@[simp] theorem frStep_port (u : Byte) : (s.frStep u).port = s.port := by simp [State.frStep]
@[simp] theorem frStep_hostEvents (u : Byte) : (s.frStep u).hostEvents = s.hostEvents := by simp [State.frStep]
@[simp] theorem frStep_answers (u : Byte) : (s.frStep u).answers = s.answers := by simp [State.frStep]
@[simp] theorem frStep_fr (u : Byte) : (s.frStep u).fr = (s.fr.step s.params.frDepth u).1 := by simp [State.frStep]

@[simp] theorem frSteps_nil : s.frSteps [] = s := rfl
@[simp] theorem frSteps_cons (u : Byte) (us : List Byte) : s.frSteps (u :: us) = (s.frStep u).frSteps us := rfl
@[simp] theorem frSteps_params (us : List Byte) : (s.frSteps us).params = s.params := by
  induction us generalizing s <;> simp [*]
@[simp] theorem frSteps_ctrl (us : List Byte) : (s.frSteps us).ctrl = s.ctrl := by
  induction us generalizing s <;> simp [*]
@[simp] theorem frSteps_pk (us : List Byte) : (s.frSteps us).pk = s.pk := by
  induction us generalizing s <;> simp [*]
@[simp] theorem frSteps_up (us : List Byte) : (s.frSteps us).up = s.up := by
  induction us generalizing s <;> simp [*]
@[simp] theorem frSteps_rx (us : List Byte) : (s.frSteps us).rx = s.rx := by
  induction us generalizing s <;> simp [*]
@[simp] theorem frSteps_ft (us : List Byte) : (s.frSteps us).ft = s.ft := by
  induction us generalizing s <;> simp [*]
@[simp] theorem frSteps_ck (us : List Byte) : (s.frSteps us).ck = s.ck := by
  induction us generalizing s <;> simp [*]
@[simp] theorem frSteps_pko (us : List Byte) : (s.frSteps us).pko = s.pko := by
  induction us generalizing s <;> simp [*]
@[simp] theorem frSteps_upo (us : List Byte) : (s.frSteps us).upo = s.upo := by
  induction us generalizing s <;> simp [*]
@[simp] theorem frSteps_fto (us : List Byte) : (s.frSteps us).fto = s.fto := by
  induction us generalizing s <;> simp [*]
@[simp] theorem frSteps_port (us : List Byte) : (s.frSteps us).port = s.port := by
  induction us generalizing s <;> simp [*]
@[simp] theorem frSteps_hostEvents (us : List Byte) : (s.frSteps us).hostEvents = s.hostEvents := by
  induction us generalizing s <;> simp [*]
@[simp] theorem frSteps_answers (us : List Byte) : (s.frSteps us).answers = s.answers := by
  induction us generalizing s <;> simp [*]

end Sys2Proof.Machine
end

