-- ==== Sys2Proof/Laws/Ops.lean ====
section
/-!
SUPPORT. One lemma per shared operation: what it gives, and that it keeps the bounds the invariant speaks of.
-/

namespace Sys2Proof.Machine

/-! ### FIFOs -/

section Fifo
variable {α : Type} (q : Fifo α) (vs : List α)

@[simp] theorem append_entries : (q.append vs).entries = q.entries ++ vs := rfl
@[simp] theorem append_taken : (q.append vs).taken = q.taken := rfl
@[simp] theorem append_nil : q.append [] = q := by simp [Fifo.append]
@[simp] theorem empty_entries : (Fifo.empty : Fifo α).entries = [] := rfl
@[simp] theorem empty_taken : (Fifo.empty : Fifo α).taken = [] := rfl
@[simp] theorem append_emitted : (q.append vs).emitted = q.emitted ++ vs := by simp [Fifo.emitted]

/-- A removal keeps what has been emitted. -/
@[simp] theorem remove_emitted : q.remove.emitted = q.emitted := by
  unfold Fifo.remove Fifo.emitted
  split <;> simp_all

theorem remove_length_le : q.remove.entries.length ≤ q.entries.length := by
  unfold Fifo.remove
  split <;> simp_all

end Fifo

/-! ### Bit regrouping -/

/-- `PK.PUSH` on no residual bits. -/
theorem packStep_empty {r : Packer} (v : U7) (h : r.n = 0) : packStep r v = (⟨v, 7⟩, []) := by
  simp [packStep, h]

/-- `PK.PUSH` on `k + 1` residual bits. -/
theorem packStep_some {r : Packer} (v : U7) {k : Nat} (h : r.n.toNat = k + 1) :
    packStep r v =
      (⟨BitVec.ofNat 7 ((r.acc.toNat * 128 + v.toNat) % 2 ^ k), BitVec.ofNat 3 k⟩,
       [BitVec.ofNat 8 ((r.acc.toNat * 128 + v.toNat) / 2 ^ k)]) := by
  simp [packStep, h, Nat.shiftRight_eq_div_pow]

/-- How many bytes `PK.PUSH` emits. -/
theorem packStep_length (r : Packer) (v : U7) :
    (packStep r v).2.length = if 1 ≤ r.n.toNat then 1 else 0 := by
  rcases Nat.eq_zero_or_pos r.n.toNat with h | h
  · simp [packStep, h]
  · obtain ⟨k, hk⟩ : ∃ k, r.n.toNat = k + 1 := ⟨r.n.toNat - 1, by omega⟩
    simp [packStep_some v hk, hk]

/-- `PK.PUSH` keeps `PK.acc < 2^PK.n` (10_state.md R25). -/
theorem packStep_wf (r : Packer) (v : U7) : (packStep r v).1.Wf := by
  rcases Nat.eq_zero_or_pos r.n.toNat with h | h
  · simpa [packStep, h] using v.isLt
  · obtain ⟨k, hk⟩ : ∃ k, r.n.toNat = k + 1 := ⟨r.n.toNat - 1, by omega⟩
    have hk7 : k < 8 := by have := r.n.isLt; omega
    have hmod := Nat.mod_lt (r.acc.toNat * 128 + v.toNat) (Nat.two_pow_pos k)
    rw [packStep_some v hk]
    simp only [Packer.Wf, BitVec.toNat_ofNat, Nat.mod_eq_of_lt (show k < 2 ^ 3 from hk7)]
    exact lt_of_le_of_lt (Nat.mod_le _ _) hmod

theorem packEnd_length (r : Packer) (f : Bool) :
    (packEnd r f).length = if f ∧ 1 ≤ r.n.toNat then 1 else 0 := by
  unfold packEnd
  split <;> split <;> simp_all

/-- A tagged value as a number (40_bitpack.md R112). -/
theorem tagged_eq (tag : Bool) (x : Nat) : tagged tag x = BitVec.ofNat 8 (x % 128 + 128 * tag.toNat) := by
  have h : x % 128 < 128 := Nat.mod_lt _ (by decide)
  apply BitVec.eq_of_toNat_eq
  simp only [tagged, BitVec.toNat_append, BitVec.toNat_ofNat, BitVec.toNat_ofBool]
  rw [← Nat.shiftLeft_add_eq_or_of_lt h]
  cases tag <;> simp [Nat.shiftLeft_eq] <;> omega

/-- An unpack step that gives one value. -/
theorem unpackStep_one {r : Unpacker} (b : Byte) (tag : Bool) (h : r.n.toNat ≤ 5) :
    unpackStep r b tag =
      (⟨BitVec.ofNat 6 ((r.acc.toNat * 256 + b.toNat) % 2 ^ (r.n.toNat + 1)), r.n + 1⟩,
       [tagged tag ((r.acc.toNat * 256 + b.toNat) / 2 ^ (r.n.toNat + 1))]) := by
  have hn : BitVec.ofNat 3 (r.n.toNat + 1) = r.n + 1#3 := by
    apply BitVec.eq_of_toNat_eq
    simp
  simp [unpackStep, show ¬ 7 ≤ r.n.toNat + 1 by omega, Nat.shiftRight_eq_div_pow, hn]

/-- An unpack step that gives two values. -/
theorem unpackStep_two {r : Unpacker} (b : Byte) (tag : Bool) (h : r.n.toNat = 6) :
    unpackStep r b tag =
      (⟨0, 0⟩, [tagged tag ((r.acc.toNat * 256 + b.toNat) / 128), tagged tag (r.acc.toNat * 256 + b.toNat)]) := by
  simp [unpackStep, h, Nat.shiftRight_eq_div_pow, Nat.mod_one]

theorem unpackStep_length (r : Unpacker) (b : Byte) (tag : Bool) :
    (unpackStep r b tag).2.length = if 6 ≤ r.n.toNat then 2 else 1 := by
  by_cases h : 6 ≤ r.n.toNat
  · simp [unpackStep, h]
  · simp [unpackStep, h, show ¬ 7 ≤ r.n.toNat + 1 by omega]

/-- An unpack step keeps `n ≤ 6` and `acc < 2^n` (10_state.md R26). -/
theorem unpackStep_wf (r : Unpacker) (b : Byte) (tag : Bool) (h : r.n.toNat ≤ 6) : (unpackStep r b tag).1.Wf := by
  rcases Nat.lt_or_ge r.n.toNat 6 with h6 | h6
  · have hmod := Nat.mod_lt (r.acc.toNat * 256 + b.toNat) (Nat.two_pow_pos (r.n.toNat + 1))
    have hn : (r.n + 1).toNat = r.n.toNat + 1 := by simp; omega
    rw [unpackStep_one b tag (by omega)]
    refine ⟨by simp only [hn]; omega, ?_⟩
    simp only [hn, BitVec.toNat_ofNat]
    exact lt_of_le_of_lt (Nat.mod_le _ _) hmod
  · rw [unpackStep_two b tag (by omega)]
    simp [Unpacker.Wf]

theorem unpackEnd_length (r : Unpacker) (f : Bool) (tag : Bool) :
    (unpackEnd r f tag).length = if f ∧ 1 ≤ r.n.toNat then 1 else 0 := by
  unfold unpackEnd
  split <;> split <;> simp_all

/-! ### The receive step -/

/-- Everything one value can do to the receiver (42_frame_rx.md R141 to R148). -/
theorem step_receiver_cases (depth : Nat) (r : Receiver) (u : Byte) :
    (r.state = .idle ∧ u = Config.frameStart ∧ r.step depth u = (⟨.collecting, []⟩, .none)) ∨
    (r.state = .idle ∧ u ≠ Config.frameStart ∧ r.step depth u = (r, .none)) ∨
    (r.state = .collecting ∧ u = Config.frameEnd ∧ r.step depth u = (⟨.idle, []⟩, frameClose r.buf)) ∨
    (r.state = .collecting ∧ u ≠ Config.frameEnd ∧ r.buf.length < depth ∧
      r.step depth u = (⟨.collecting, r.buf ++ [u]⟩, .none)) ∨
    (r.state = .collecting ∧ u ≠ Config.frameEnd ∧ depth ≤ r.buf.length ∧
      r.step depth u = (⟨.overrun, []⟩, .error .ovf)) ∨
    (r.state = .overrun ∧ u = Config.frameEnd ∧ r.step depth u = (⟨.idle, r.buf⟩, .none)) ∨
    (r.state = .overrun ∧ u ≠ Config.frameEnd ∧ r.step depth u = (r, .none)) := by
  obtain ⟨st, buf⟩ := r
  cases st with
  | idle => by_cases h : u = Config.frameStart <;> simp [Receiver.step, h]
  | collecting =>
    by_cases h : u = Config.frameEnd
    · simp [Receiver.step, h]
    · by_cases hb : buf.length < depth
      · simp [Receiver.step, h, hb]
      · simp [Receiver.step, h, hb]; omega
  | overrun => by_cases h : u = Config.frameEnd <;> simp [Receiver.step, h]

/-- Everything a close can bring about (42_frame_rx.md R145 to R147). -/
theorem frameClose_cases (buf : List Byte) :
    (buf.length ≤ 1 ∧ frameClose buf = .error .short) ∨
    (2 ≤ buf.length ∧ frameClose buf = .frame buf.dropLast) ∨
    (2 ≤ buf.length ∧ frameClose buf = .error .ckerr) := by
  unfold frameClose
  split
  · exact .inl ⟨‹_›, rfl⟩
  · split
    · exact .inr (.inl ⟨by omega, rfl⟩)
    · exact .inr (.inr ⟨by omega, rfl⟩)

/-- A value keeps the receiver's bounds (10_state.md R29), and a frame it closes is one `FRO` may hold (R32). -/
theorem step_receiver_wf {depth : Nat} {r : Receiver} (u : Byte) (h : r.Wf depth) :
    (r.step depth u).1.Wf depth ∧ ∀ f, (r.step depth u).2 = .frame f → FrameOk depth f := by
  obtain ⟨hl, hb, hm⟩ := h
  rcases step_receiver_cases depth r u with h | h | h | h | h | h | h
  · rw [h.2.2]; simp [Receiver.Wf]
  · rw [h.2.2]; exact ⟨⟨hl, hb, hm⟩, by simp⟩
  · rw [h.2.2]
    refine ⟨by simp [Receiver.Wf], fun f hf => ?_⟩
    rcases frameClose_cases r.buf with h' | h' | h'
    · simp [h'.2] at hf
    · simp only [h'.2, RxEvent.frame.injEq] at hf
      subst hf
      exact ⟨by simp; omega, by simp; omega, fun hc => hm (List.dropLast_subset _ hc)⟩
    · simp [h'.2] at hf
  · rw [h.2.2.2]
    refine ⟨⟨by simp; omega, by simp, ?_⟩, by simp⟩
    simpa [not_or] using ⟨hm, Ne.symm h.2.1⟩
  · rw [h.2.2.2]; simp [Receiver.Wf]
  · rw [h.2.2]; exact ⟨⟨hl, fun _ => hb (by simp [h.1]), hm⟩, by simp⟩
  · rw [h.2.2]; exact ⟨⟨hl, hb, hm⟩, by simp⟩

/-- The frames an event appends to `FRO`, none or one. -/
def RxEvent.frames : RxEvent → List (List Byte)
  | .none => []
  | .frame f => [f]
  | .error _ => []

/-- The STATUS bits an event sets, none or one. -/
def RxEvent.bits : RxEvent → BitVec 5
  | .none => 0
  | .frame _ => 0
  | .error b => b.mask

theorem onRxEvent_eq (s : State) (e : RxEvent) :
    s.onRxEvent e = { s with fro := s.fro.append e.frames, status := s.status ||| e.bits } := by
  cases e <;> simp [State.onRxEvent, RxEvent.frames, RxEvent.bits, State.emitFro, State.setstat]

/-- Everything one value given to `fr_step` does (42_frame_rx.md R140). -/
theorem frStep_eq (s : State) (u : Byte) :
    s.frStep u =
      { s with
        fr := (s.fr.step s.params.frDepth u).1
        fro := s.fro.append (s.fr.step s.params.frDepth u).2.frames
        status := s.status ||| (s.fr.step s.params.frDepth u).2.bits } := by
  simp [State.frStep, onRxEvent_eq]

theorem frames_length_le (e : RxEvent) : e.frames.length ≤ 1 := by cases e <;> simp [RxEvent.frames]

theorem framesClosed_nil (depth : Nat) (r : Receiver) : r.framesClosed depth [] = 0 := rfl

theorem framesClosed_cons (depth : Nat) (r : Receiver) (u : Byte) (us : List Byte) :
    r.framesClosed depth (u :: us) =
      (r.step depth u).2.frames.length + (r.step depth u).1.framesClosed depth us := by
  rw [Receiver.framesClosed]
  cases (r.step depth u).2 <;> simp [RxEvent.frames]

/-- What several values do to `FRO`: they append as many frames as they close (70_reset_and_hazards.md R240). -/
theorem frSteps_fro (s : State) (us : List Byte) :
    ∃ fs, (s.frSteps us).fro = s.fro.append fs ∧ fs.length = s.fr.framesClosed s.params.frDepth us := by
  induction us generalizing s with
  | nil => exact ⟨[], by simp, rfl⟩
  | cons u us ih =>
    obtain ⟨fs, h1, h2⟩ := ih (s.frStep u)
    refine ⟨(s.fr.step s.params.frDepth u).2.frames ++ fs, ?_, ?_⟩
    · rw [frSteps_cons, h1, frStep_eq]
      simp [Fifo.append]
    · simp [h2, framesClosed_cons]

/-- Only a receiver that is collecting closes a frame, and then it is idle. -/
theorem frames_ne_nil {depth : Nat} {r : Receiver} {u : Byte} (h : (r.step depth u).2.frames ≠ []) :
    r.state = .collecting ∧ (r.step depth u).1.state = .idle := by
  rcases step_receiver_cases depth r u with h' | h' | h' | h' | h' | h' | h'
  case inr.inr.inl => exact ⟨h'.1, by rw [h'.2.2]⟩
  all_goals
    first
    | rw [h'.2.2] at h
    | rw [h'.2.2.2] at h
    simp [RxEvent.frames] at h

/-- Two values close at most one frame (42_frame_rx.md R153). -/
theorem framesClosed_le_one (depth : Nat) (r : Receiver) (us : List Byte) (h : us.length ≤ 2) :
    r.framesClosed depth us ≤ 1 := by
  have hle := fun (r : Receiver) (u : Byte) => frames_length_le (r.step depth u).2
  match us, h with
  | [], _ => simp [framesClosed_nil]
  | [u], _ => simpa [framesClosed_cons, framesClosed_nil] using hle r u
  | [u, v], _ =>
    simp only [framesClosed_cons, framesClosed_nil, Nat.add_zero]
    by_cases h1 : (r.step depth u).2.frames = []
    · simpa [h1] using hle _ v
    · have h2 : ((r.step depth u).1.step depth v).2.frames = [] := by
        by_contra hv
        have := (frames_ne_nil hv).1
        simp [(frames_ne_nil h1).2] at this
      simpa [h2] using hle r u

end Sys2Proof.Machine
end

