-- ==== Sys2Proof/Laws/Hold.lean ====
section
/-!
SUPPORT. When each command is held (70_reset_and_hazards.md R240), and what holding depends on.
-/

namespace Sys2Proof.Machine

theorem hasRoom_iff (s : State) (d : Demand) :
    s.hasRoom d = true ↔
      d.pko ≤ s.pko.free s.params.pkoDepth ∧ d.upo ≤ s.upo.free s.params.upoDepth ∧
      d.fro ≤ s.fro.free s.params.froDepth ∧ d.fto ≤ s.fto.free s.params.ftoDepth := by
  simp [State.hasRoom, and_assoc]

theorem held_false_iff (i : Instr) (s : State) :
    held i s = false ↔
      (demand i s).pko ≤ s.pko.free s.params.pkoDepth ∧ (demand i s).upo ≤ s.upo.free s.params.upoDepth ∧
      (demand i s).fro ≤ s.fro.free s.params.froDepth ∧ (demand i s).fto ≤ s.fto.free s.params.ftoDepth := by
  simp [held, hasRoom_iff]

/-- A command demands nothing of a FIFO it does not write to (10_state.md R32). -/
theorem demand_of_not_writes (i : Instr) (s : State) :
    (i.writes .pko = false → (demand i s).pko = 0) ∧ (i.writes .upo = false → (demand i s).upo = 0) ∧
    (i.writes .fro = false → (demand i s).fro = 0) ∧ (i.writes .fto = false → (demand i s).fto = 0) := by
  cases i <;> simp [Instr.writes, Instr.isPk, Instr.isUp, Instr.isFt, Instr.feedsReceiver, demand]

/-- Holding depends on the parameters, `CTRL`, the units and the FIFOs alone. -/
theorem held_congr (i : Instr) {s t : State} (hp : t.params = s.params) (hc : t.ctrl = s.ctrl) (hpk : t.pk = s.pk)
    (hup : t.up = s.up) (hrx : t.rx = s.rx) (hfr : t.fr = s.fr) (hft : t.ft = s.ft) (h1 : t.pko = s.pko)
    (h2 : t.upo = s.upo) (h3 : t.fro = s.fro) (h4 : t.fto = s.fto) : held i t = held i s := by
  have hd : demand i t = demand i s := by
    cases i <;> simp [demand, State.txform, hp, hc, hpk, hup, hrx, hfr, hft]
  simp [held, State.hasRoom, hd, hp, h1, h2, h3, h4]

@[simp] theorem held_release (i : Instr) (s : State) : held i s.release = held i s :=
  held_congr i rfl rfl rfl rfl rfl rfl rfl rfl rfl rfl rfl

variable (s : State)

/-! The commands that are never held. -/

@[simp] theorem held_sysNop : held .sysNop s = false := by simp [held_false_iff, demand]
@[simp] theorem held_sysWrctrl (c : BitVec 2) : held (.sysWrctrl c) s = false := by simp [held_false_iff, demand]
@[simp] theorem held_sysClrstat (m : BitVec 5) : held (.sysClrstat m) s = false := by simp [held_false_iff, demand]
@[simp] theorem held_sysSreset : held .sysSreset s = false := by simp [held_false_iff, demand]
@[simp] theorem held_frAbort : held .frAbort s = false := by simp [held_false_iff, demand]
@[simp] theorem held_ckInit (d : Byte) : held (.ckInit d) s = false := by simp [held_false_iff, demand]
@[simp] theorem held_ckAdd (d : Byte) : held (.ckAdd d) s = false := by simp [held_false_iff, demand]

/-! The commands that may be held, each on one FIFO. -/

theorem held_pkPush (v : U7) :
    held (.pkPush v) s = false ↔ (if 1 ≤ s.pk.n.toNat then 1 else 0) ≤ s.pko.free s.params.pkoDepth := by
  simp [held_false_iff, demand]

theorem held_pkEnd (f : Bool) :
    held (.pkEnd f) s = false ↔ (if f ∧ 1 ≤ s.pk.n.toNat then 1 else 0) ≤ s.pko.free s.params.pkoDepth := by
  simp [held_false_iff, demand]

theorem held_upPush (b : Byte) :
    held (.upPush b) s = false ↔ (if 6 ≤ s.up.n.toNat then 2 else 1) ≤ s.upo.free s.params.upoDepth := by
  simp [held_false_iff, demand]

theorem held_upEnd (f : Bool) :
    held (.upEnd f) s = false ↔ (if f ∧ 1 ≤ s.up.n.toNat then 1 else 0) ≤ s.upo.free s.params.upoDepth := by
  simp [held_false_iff, demand]

theorem held_rxPush (b : Byte) :
    held (.rxPush b) s = false ↔
      s.fr.framesClosed s.params.frDepth (unpackStep s.rx b false).2 ≤ s.fro.free s.params.froDepth := by
  simp [held_false_iff, demand]

theorem held_rxEnd (f : Bool) :
    held (.rxEnd f) s = false ↔
      s.fr.framesClosed s.params.frDepth (unpackEnd s.rx f false) ≤ s.fro.free s.params.froDepth := by
  simp [held_false_iff, demand]

theorem held_frPush (u : Byte) :
    held (.frPush u) s = false ↔ s.fr.framesClosed s.params.frDepth [u] ≤ s.fro.free s.params.froDepth := by
  simp [held_false_iff, demand]

theorem held_ftStart (i : Byte) :
    held (.ftStart i) s = false ↔
      (if s.ft.opened then 0 else if s.txform then 2 else 1) ≤ s.fto.free s.params.ftoDepth := by
  simp [held_false_iff, demand]

theorem held_ftData (b : Byte) :
    held (.ftData b) s = false ↔ (if s.ft.opened then 1 else 0) ≤ s.fto.free s.params.ftoDepth := by
  simp [held_false_iff, demand]

theorem held_ftEnd :
    held .ftEnd s = false ↔ (if s.ft.opened then 2 else 0) ≤ s.fto.free s.params.ftoDepth := by
  simp [held_false_iff, demand]

end Sys2Proof.Machine
end

