-- ==== Sys2Proof/Laws/Exec.lean ====
section
/-!
SUPPORT. What `exec` and `step` can do, said once: every command is either held, and leaves the state as it is, or
accepted, and has its whole effect.
-/

namespace Sys2Proof.Machine

/-- What an accepted command does, for every command. -/
def effect (i : Instr) (s : State) : State :=
  match i with
  | .sysNop => s
  | .sysWrctrl c => { s with ctrl := newTxform c ++ newTag c }
  | .sysClrstat m => s.clrstat m
  | .sysSreset => s.resetUnits
  | .pkPush v => { s with pk := (packStep s.pk v).1 }.emitPko (packStep s.pk v).2
  | .pkEnd f => { s with pk := Packer.clear }.emitPko (packEnd s.pk f)
  | .upPush b => { s with up := (unpackStep s.up b s.tag).1 }.emitUpo (unpackStep s.up b s.tag).2
  | .upEnd f => { s with up := Unpacker.clear }.emitUpo (unpackEnd s.up f s.tag)
  | .rxPush b => { s with rx := (unpackStep s.rx b false).1 }.frSteps (unpackStep s.rx b false).2
  | .rxEnd f => { s with rx := Unpacker.clear }.frSteps (unpackEnd s.rx f false)
  | .frPush u => s.frStep u
  | .frAbort => { s with fr := { state := .idle, buf := [] } }
  | .ftStart i =>
    if s.ft.opened then s.setstat .seq
    else if s.txform then
      { s with ft := { opened := true, x := Config.frameStart ^^^ i } }.emitFto [Config.frameStart, i]
    else { s with ft := { opened := true, x := i } }.emitFto [i]
  | .ftData b =>
    if s.ft.opened then { s with ft := { s.ft with x := s.ft.x ^^^ b } }.emitFto [b] else s.setstat .seq
  | .ftEnd =>
    if s.ft.opened then { s with ft := { s.ft with opened := false } }.emitFto [ck10 s.ft.x, Config.frameEnd]
    else s.setstat .seq
  | .ckInit d => { s with ck := d }
  | .ckAdd d => { s with ck := s.ck ^^^ d }

/-! ### The transmitter's cases -/

section
variable {s : State}

theorem effect_ftStart_seq {i : Byte} (h : s.ft.opened = true) : effect (.ftStart i) s = s.setstat .seq := if_pos h

theorem effect_ftStart_framed {i : Byte} (h : s.ft.opened = false) (hx : s.txform = true) :
    effect (.ftStart i) s =
      { s with ft := { opened := true, x := Config.frameStart ^^^ i } }.emitFto [Config.frameStart, i] :=
  (if_neg (by simp [h])).trans (if_pos hx)

theorem effect_ftStart_plain {i : Byte} (h : s.ft.opened = false) (hx : s.txform = false) :
    effect (.ftStart i) s = { s with ft := { opened := true, x := i } }.emitFto [i] :=
  (if_neg (by simp [h])).trans (if_neg (by simp [hx]))

theorem effect_ftData_seq {b : Byte} (h : s.ft.opened = false) : effect (.ftData b) s = s.setstat .seq :=
  if_neg (by simp [h])

theorem effect_ftData_open {b : Byte} (h : s.ft.opened = true) :
    effect (.ftData b) s = { s with ft := { s.ft with x := s.ft.x ^^^ b } }.emitFto [b] := if_pos h

theorem effect_ftEnd_seq (h : s.ft.opened = false) : effect .ftEnd s = s.setstat .seq := if_neg (by simp [h])

theorem effect_ftEnd_open (h : s.ft.opened = true) :
    effect .ftEnd s = { s with ft := { s.ft with opened := false } }.emitFto [ck10 s.ft.x, Config.frameEnd] := if_pos h

end

/-! ### exec and step -/

/-- Everything `exec` can do. -/
theorem exec_eq (i : Instr) (s : State) :
    exec i s = if held i s then .next s else .next (effect i s.release) := by cases i <;> rfl

theorem exec_held {i : Instr} {s : State} (h : held i s = true) : exec i s = .next s := by simp [exec_eq, h]

theorem exec_accepted {i : Instr} {s : State} (h : held i s = false) :
    exec i s = .next (effect i s.release) := by simp [exec_eq, h]

theorem exec_next_iff {i : Instr} {s t : State} :
    exec i s = .next t ↔ (held i s = true ∧ t = s) ∨ (held i s = false ∧ t = effect i s.release) := by
  rw [exec_eq]
  cases held i s <;> simp [eq_comm]

/-- Everything `step` can do. -/
theorem step_cases {s t : State} (h : step s = .next t) :
    ((s.port = none ∨ ∃ w i, s.port = some w ∧ decode w = .command i ∧ held i s = true) ∧ t = hostTurn s) ∨
    (∃ w e, s.port = some w ∧ decode w = .illegal e ∧ t = s.acceptIllegal) ∨
    (∃ w i, s.port = some w ∧ decode w = .command i ∧ held i s = false ∧ t = effect i s.release) := by
  unfold step at h
  split at h
  · next hp => exact .inl ⟨.inl hp, by simpa using h.symm⟩
  · next w hp =>
    split at h
    · next e hd => exact .inr (.inl ⟨w, e, hp, hd, by simpa using h.symm⟩)
    · next i hd =>
      split at h
      · next hh => exact .inl ⟨.inr ⟨w, i, hp, hd, hh⟩, by simpa using h.symm⟩
      · next hh =>
        have hh : held i s = false := by simpa using hh
        rw [exec_accepted hh] at h
        exact .inr (.inr ⟨w, i, hp, hd, hh, by simpa using h.symm⟩)

end Sys2Proof.Machine
end

