-- ==== Sys2Proof/Laws/PerInstr.lean ====
section
/-!
SUPPORT. Statements made per instruction. `EncodedInMap`: an instruction's word is selected by its own row of the
opcode map, and by no other row (30_encoding.md R73, R74).
-/

namespace Sys2Proof.Laws.EncodedInMap

/-- The rows of the opcode map that select the instruction's word are the one row of its operation. -/
def Statement (i : Instr) : Prop :=
  (opcodeMap.filter fun r => r.selects (encode i)).map (·.op) = [i.op]

theorem sysNop : Statement .sysNop := by unfold Statement; decide
theorem sysWrctrl (c : BitVec 2) : Statement (.sysWrctrl c) := by revert c; unfold Statement; decide
theorem sysClrstat (m : BitVec 5) : Statement (.sysClrstat m) := by revert m; unfold Statement; decide
theorem sysSreset : Statement .sysSreset := by unfold Statement; decide
theorem pkPush (v : U7) : Statement (.pkPush v) := by revert v; unfold Statement; decide
theorem pkEnd (f : Bool) : Statement (.pkEnd f) := by revert f; unfold Statement; decide
theorem upPush (b : Byte) : Statement (.upPush b) := by revert b; unfold Statement; decide
theorem upEnd (f : Bool) : Statement (.upEnd f) := by revert f; unfold Statement; decide
theorem rxPush (b : Byte) : Statement (.rxPush b) := by revert b; unfold Statement; decide
theorem rxEnd (f : Bool) : Statement (.rxEnd f) := by revert f; unfold Statement; decide
theorem frPush (u : Byte) : Statement (.frPush u) := by revert u; unfold Statement; decide
theorem frAbort : Statement .frAbort := by unfold Statement; decide
theorem ftStart (i : Byte) : Statement (.ftStart i) := by revert i; unfold Statement; decide
theorem ftData (b : Byte) : Statement (.ftData b) := by revert b; unfold Statement; decide
theorem ftEnd : Statement .ftEnd := by unfold Statement; decide
theorem ckInit (d : Byte) : Statement (.ckInit d) := by revert d; unfold Statement; decide
theorem ckAdd (d : Byte) : Statement (.ckAdd d) := by revert d; unfold Statement; decide

end Sys2Proof.Laws.EncodedInMap
end

