-- ==== Sys2Proof/Laws/Regroup.lean ====
section
/-!
SUPPORT. The whole-sequence functions of 40_bitpack.md R100 and R101, one push at a time: each turn of their loops is
one `packStep` or `unpackStep`.
-/

namespace Sys2Proof.Machine

/-- The low bits a mask keeps. -/
theorem and_mask (x k : Nat) : x &&& (2 ^ k - 1) = x % 2 ^ k := Nat.and_two_pow_sub_one_eq_mod x k

/-- `acc <<< 7 ||| v` as a sum. -/
theorem shift_or (acc : Nat) {w : Nat} (v : BitVec w) : acc <<< w ||| v.toNat = acc * 2 ^ w + v.toNat := by
  rw [← Nat.shiftLeft_add_eq_or_of_lt v.isLt, Nat.shiftLeft_eq]

/-- One turn of `pack7to8`'s loop is one `PK.PUSH` (40_bitpack.md R100, R102). -/
theorem packLoop_cons {r : Packer} (h : r.Wf) (v : U7) (vs : List U7) :
    packLoop r.acc.toNat r.n.toNat (v :: vs) =
      let r' := (packStep r v).1
      let o := packLoop r'.acc.toNat r'.n.toNat vs
      (o.1, (packStep r v).2 ++ o.2) := by
  have hn := r.n.isLt
  rcases Nat.eq_zero_or_pos r.n.toNat with h0 | h0
  · have hacc : r.acc.toNat = 0 := by have := h; simp [Packer.Wf, h0] at this; omega
    simp [packLoop, packStep, h0, hacc]
  · obtain ⟨k, hk⟩ : ∃ k, r.n.toNat = k + 1 := ⟨r.n.toNat - 1, by omega⟩
    have hmod := Nat.mod_lt (r.acc.toNat * 128 + v.toNat) (Nat.two_pow_pos k)
    have hk7 : (2 : Nat) ^ k ≤ 128 := Nat.pow_le_pow_right (n := 2) (by decide) (show k ≤ 7 by omega)
    have hm : (r.acc.toNat * 128 + v.toNat) % 2 ^ k % 128 = (r.acc.toNat * 128 + v.toNat) % 2 ^ k :=
      Nat.mod_eq_of_lt (lt_of_lt_of_le hmod hk7)
    have e : k + 1 + 7 - 8 = k := by omega
    have hb : BitVec.ofNat 8 ((r.acc.toNat * 128 + v.toNat) / 2 ^ k &&& 255) =
        BitVec.ofNat 8 ((r.acc.toNat * 128 + v.toNat) / 2 ^ k) := by
      apply BitVec.eq_of_toNat_eq
      rw [show 255 = 2 ^ 8 - 1 from rfl, and_mask]
      simp
    rw [packStep_some v hk, packLoop, hk]
    simp only [shift_or, and_mask, e, show 8 ≤ k + 1 + 7 by omega, if_true, Nat.shiftRight_eq_div_pow,
      BitVec.toNat_ofNat, Nat.mod_eq_of_lt (show k < 2 ^ 3 by omega), List.singleton_append, hb,
      show (2 : Nat) ^ 7 = 128 from rfl, hm]

/-- `taggedValue` and `tagged` are the same value (40_bitpack.md R101, R112). -/
theorem taggedValue_eq (tag : Bool) (x : Nat) : taggedValue tag x = tagged tag x := by
  rw [tagged_eq, taggedValue]
  congr 1
  have h : x % 128 < 128 := Nat.mod_lt _ (by decide)
  rw [show 127 = 2 ^ 7 - 1 from rfl, and_mask, Nat.or_comm, ← Nat.shiftLeft_add_eq_or_of_lt h, Nat.shiftLeft_eq]
  omega

/-- One turn of `unpack8to7`'s loop is one `UP.PUSH` (40_bitpack.md R101, R112). -/
theorem unpackLoop_cons {r : Unpacker} (h : r.n.toNat ≤ 6) (tag : Bool) (b : Byte) (bs : List Byte) :
    unpackLoop tag r.acc.toNat r.n.toNat (b :: bs) =
      let r' := (unpackStep r b tag).1
      let o := unpackLoop tag r'.acc.toNat r'.n.toNat bs
      (o.1, (unpackStep r b tag).2 ++ o.2) := by
  rcases Nat.lt_or_ge r.n.toNat 6 with h6 | h6
  · have hmod := Nat.mod_lt (r.acc.toNat * 256 + b.toNat) (Nat.two_pow_pos (r.n.toNat + 1))
    have hk : (2 : Nat) ^ (r.n.toNat + 1) ≤ 2 ^ 6 := Nat.pow_le_pow_right (by decide) (by omega)
    have hn : (r.n + 1).toNat = r.n.toNat + 1 := by simp; omega
    rw [unpackStep_one b tag (by omega)]
    simp only [unpackLoop, unpackDrain, show 7 ≤ r.n.toNat + 8 by omega, if_true,
      show r.n.toNat + 8 - 7 = r.n.toNat + 1 by omega, show ¬ 7 ≤ r.n.toNat + 1 by omega, if_false,
      show r.n.toNat + 8 = r.n.toNat + 6 + 1 + 1 by omega, shift_or, and_mask, hn, BitVec.toNat_ofNat,
      Nat.mod_eq_of_lt (lt_of_lt_of_le hmod hk), Nat.shiftRight_eq_div_pow, taggedValue_eq]
    rfl
  · have hn : r.n.toNat = 6 := by omega
    rw [unpackStep_two b tag hn]
    simp [unpackLoop, unpackDrain, hn, shift_or, Nat.shiftRight_eq_div_pow, taggedValue_eq]
    rw [show 127 = 2 ^ 7 - 1 from rfl, and_mask]
    simp [tagged_eq]

end Sys2Proof.Machine
end

