-- ==== Sys2Proof/Laws/Sequences.lean ====
section
/-!
SUPPORT. Sequences of commands and runs of steps, one command or step at a time.
-/

namespace Sys2Proof.Machine

/-! ### What no command touches -/

/-- Several values given to the receiver change the receiver, `FRO` and STATUS alone. -/
theorem frSteps_frame (s : State) (us : List Byte) :
    s.frSteps us =
      { s with fr := (s.frSteps us).fr, fro := (s.frSteps us).fro, status := (s.frSteps us).status } := by
  induction us generalizing s with
  | nil => rfl
  | cons u us ih => rw [frSteps_cons, ih, frStep_eq]

/-- No command changes the parameters or the host's side of the interfaces. -/
theorem effect_host_side (i : Instr) (s : State) :
    (effect i s).params = s.params ∧ (effect i s).port = s.port ∧
      (effect i s).hostEvents = s.hostEvents ∧ (effect i s).answers = s.answers := by
  cases i with
  | rxPush b =>
    rw [effect, frSteps_frame]
    exact ⟨rfl, rfl, rfl, rfl⟩
  | rxEnd f =>
    rw [effect, frSteps_frame]
    exact ⟨rfl, rfl, rfl, rfl⟩
  | frPush u =>
    rw [effect, frStep_eq]
    exact ⟨rfl, rfl, rfl, rfl⟩
  | ftStart d => simp only [effect]; split <;> (try split) <;> exact ⟨rfl, rfl, rfl, rfl⟩
  | ftData b => simp only [effect]; split <;> exact ⟨rfl, rfl, rfl, rfl⟩
  | ftEnd => simp only [effect]; split <;> exact ⟨rfl, rfl, rfl, rfl⟩
  | _ => exact ⟨rfl, rfl, rfl, rfl⟩

/-! ### Sequences -/

@[simp] theorem acceptAll_nil (s : State) : acceptAll [] s = some s := rfl

/-- A sequence is accepted when its first command is not held and the rest is accepted after it. -/
theorem acceptAll_cons (i : Instr) (is : List Instr) (s : State) :
    acceptAll (i :: is) s = if held i s then none else acceptAll is (effect i s.release) := by
  rw [acceptAll]
  cases h : held i s
  · simp [exec_accepted h]
  · simp

theorem acceptAll_cons_eq_some {i : Instr} {is : List Instr} {s t : State} :
    acceptAll (i :: is) s = some t ↔ held i s = false ∧ acceptAll is (effect i s.release) = some t := by
  rw [acceptAll_cons]
  cases held i s <;> simp

theorem acceptAll_append (is js : List Instr) (s : State) :
    acceptAll (is ++ js) s = (acceptAll is s).bind (acceptAll js) := by
  induction is generalizing s with
  | nil => rfl
  | cons i is ih =>
    rw [List.cons_append, acceptAll_cons, acceptAll_cons]
    split <;> simp [ih]

/-! ### Runs -/

theorem run_succ {k : Nat} {s t : State} (h : step s = .next t) :
    Host.Core.run Sys2Proof.core (k + 1) s = Host.Core.run Sys2Proof.core k t := by
  have h : Sys2Proof.core.step s = .next t := h
  simp only [Host.Core.run, h]

end Sys2Proof.Machine
end

