-- ==== Sys2Proof/Laws/Run.lean ====
section
/-!
SUPPORT. What a command does depends on the units alone and reaches each FIFO as an append; words taken one after
another; the runs of a program.
-/

namespace Sys2Proof.Machine

/-! ### Effects depend on the units alone -/

/-- Two states that agree in `FR_DEPTH` and in every unit (10_state.md R23 to R31), whatever their FIFOs hold. -/
structure State.UnitsAgree (s t : State) : Prop where
  depth  : t.params.frDepth = s.params.frDepth
  ctrl   : t.ctrl = s.ctrl
  status : t.status = s.status
  pk     : t.pk = s.pk
  up     : t.up = s.up
  rx     : t.rx = s.rx
  fr     : t.fr = s.fr
  ft     : t.ft = s.ft
  ck     : t.ck = s.ck

/-- What two states emit alike, and their units alike: `u` is reached from `s` as `v` is from `t`. -/
abbrev State.MoveAlike (s u t v : State) : Prop :=
  (∃ bs, u.pko = s.pko.append bs ∧ v.pko = t.pko.append bs) ∧ (∃ vs, u.upo = s.upo.append vs ∧ v.upo = t.upo.append vs) ∧
  (∃ fs, u.fro = s.fro.append fs ∧ v.fro = t.fro.append fs) ∧ (∃ bs, u.fto = s.fto.append bs ∧ v.fto = t.fto.append bs) ∧
  u.UnitsAgree v

theorem frSteps_alike {s t : State} (us : List Byte) (h : s.UnitsAgree t) :
    s.MoveAlike (s.frSteps us) t (t.frSteps us) := by
  induction us generalizing s t with
  | nil => exact ⟨⟨[], by simp⟩, ⟨[], by simp⟩, ⟨[], by simp⟩, ⟨[], by simp⟩, h⟩
  | cons u us ih =>
    have hu : (s.frStep u).UnitsAgree (t.frStep u) := by
      rw [frStep_eq, frStep_eq]
      constructor <;> simp [h.depth, h.ctrl, h.status, h.pk, h.up, h.rx, h.fr, h.ft, h.ck]
    obtain ⟨⟨a, a1, a2⟩, ⟨b, b1, b2⟩, ⟨c, c1, c2⟩, ⟨d, d1, d2⟩, hw⟩ := ih hu
    rw [frSteps_cons, frSteps_cons]
    refine ⟨⟨a, a1.trans (by rw [frStep_eq]), a2.trans (by rw [frStep_eq])⟩,
      ⟨b, b1.trans (by rw [frStep_eq]), b2.trans (by rw [frStep_eq])⟩,
      ⟨(s.fr.step s.params.frDepth u).2.frames ++ c, c1.trans ?_, c2.trans ?_⟩,
      ⟨d, d1.trans (by rw [frStep_eq]), d2.trans (by rw [frStep_eq])⟩, hw⟩
    · simp [frStep_eq, Fifo.append]
    · simp [frStep_eq, Fifo.append, h.depth, h.fr]

/-- Two states whose units agree move alike under every command. -/
theorem effect_alike {s t : State} (i : Instr) (h : s.UnitsAgree t) :
    s.MoveAlike (effect i s) t (effect i t) := by
  have hx : t.txform = s.txform := by simp [State.txform, h.ctrl]
  have ht : t.tag = s.tag := by simp [State.tag, h.ctrl]
  cases i with
  | rxPush b =>
    have h' : State.UnitsAgree { s with rx := (unpackStep s.rx b false).1 } { t with rx := (unpackStep s.rx b false).1 } :=
      ⟨h.depth, h.ctrl, h.status, h.pk, h.up, rfl, h.fr, h.ft, h.ck⟩
    simpa [effect, h.rx] using frSteps_alike (unpackStep s.rx b false).2 h'
  | rxEnd f =>
    have h' : State.UnitsAgree { s with rx := Unpacker.clear } { t with rx := Unpacker.clear } :=
      ⟨h.depth, h.ctrl, h.status, h.pk, h.up, rfl, h.fr, h.ft, h.ck⟩
    simpa [effect, h.rx] using frSteps_alike (unpackEnd s.rx f false) h'
  | frPush u => exact frSteps_alike [u] h
  | pkPush v =>
    obtain ⟨⟩ := h
    refine ⟨⟨(packStep s.pk v).2, ?_⟩, ⟨[], ?_⟩, ⟨[], ?_⟩, ⟨[], ?_⟩, ⟨?_, ?_, ?_, ?_, ?_, ?_, ?_, ?_, ?_⟩⟩ <;> simp [effect, *]
  | pkEnd f =>
    obtain ⟨⟩ := h
    refine ⟨⟨packEnd s.pk f, ?_⟩, ⟨[], ?_⟩, ⟨[], ?_⟩, ⟨[], ?_⟩, ⟨?_, ?_, ?_, ?_, ?_, ?_, ?_, ?_, ?_⟩⟩ <;> simp [effect, *]
  | upPush b =>
    obtain ⟨⟩ := h
    refine ⟨⟨[], ?_⟩, ⟨(unpackStep s.up b s.tag).2, ?_⟩, ⟨[], ?_⟩, ⟨[], ?_⟩, ⟨?_, ?_, ?_, ?_, ?_, ?_, ?_, ?_, ?_⟩⟩ <;> simp [effect, *]
  | upEnd f =>
    obtain ⟨⟩ := h
    refine ⟨⟨[], ?_⟩, ⟨unpackEnd s.up f s.tag, ?_⟩, ⟨[], ?_⟩, ⟨[], ?_⟩, ⟨?_, ?_, ?_, ?_, ?_, ?_, ?_, ?_, ?_⟩⟩ <;> simp [effect, *]
  | ftStart d =>
    obtain ⟨⟩ := h
    cases ho : s.ft.opened
    · cases hx' : s.txform
      · refine ⟨⟨[], ?_⟩, ⟨[], ?_⟩, ⟨[], ?_⟩, ⟨[d], ?_⟩, ⟨?_, ?_, ?_, ?_, ?_, ?_, ?_, ?_, ?_⟩⟩ <;> simp [effect, *]
      · refine ⟨⟨[], ?_⟩, ⟨[], ?_⟩, ⟨[], ?_⟩, ⟨[Config.frameStart, d], ?_⟩, ⟨?_, ?_, ?_, ?_, ?_, ?_, ?_, ?_, ?_⟩⟩ <;> simp [effect, *]
    · refine ⟨⟨[], ?_⟩, ⟨[], ?_⟩, ⟨[], ?_⟩, ⟨[], ?_⟩, ⟨?_, ?_, ?_, ?_, ?_, ?_, ?_, ?_, ?_⟩⟩ <;> simp [effect, *]
  | ftData b =>
    obtain ⟨⟩ := h
    cases ho : s.ft.opened
    · refine ⟨⟨[], ?_⟩, ⟨[], ?_⟩, ⟨[], ?_⟩, ⟨[], ?_⟩, ⟨?_, ?_, ?_, ?_, ?_, ?_, ?_, ?_, ?_⟩⟩ <;> simp [effect, *]
    · refine ⟨⟨[], ?_⟩, ⟨[], ?_⟩, ⟨[], ?_⟩, ⟨[b], ?_⟩, ⟨?_, ?_, ?_, ?_, ?_, ?_, ?_, ?_, ?_⟩⟩ <;> simp [effect, *]
  | ftEnd =>
    obtain ⟨⟩ := h
    cases ho : s.ft.opened
    · refine ⟨⟨[], ?_⟩, ⟨[], ?_⟩, ⟨[], ?_⟩, ⟨[], ?_⟩, ⟨?_, ?_, ?_, ?_, ?_, ?_, ?_, ?_, ?_⟩⟩ <;> simp [effect, *]
    · refine ⟨⟨[], ?_⟩, ⟨[], ?_⟩, ⟨[], ?_⟩, ⟨[ck10 s.ft.x, Config.frameEnd], ?_⟩, ⟨?_, ?_, ?_, ?_, ?_, ?_, ?_, ?_, ?_⟩⟩ <;> simp [effect, *]
  | _ =>
    obtain ⟨⟩ := h
    refine ⟨⟨[], ?_⟩, ⟨[], ?_⟩, ⟨[], ?_⟩, ⟨[], ?_⟩, ⟨?_, ?_, ?_, ?_, ?_, ?_, ?_, ?_, ?_⟩⟩ <;> simp [effect, *]

/-! ### Words taken in order -/

/-- With two free entries everywhere no command is held (70_reset_and_hazards.md R240). -/
theorem held_roomy (i : Instr) (s : State) : held i s.roomy = false := by
  have hd : demand i s.roomy = demand i s := by cases i <;> rfl
  have hf : (demand i s).fro ≤ 1 := by
    cases i with
    | rxPush b => exact framesClosed_le_one _ _ _ (by rw [unpackStep_length]; split <;> omega)
    | rxEnd f => exact framesClosed_le_one _ _ _ (by rw [unpackEnd_length]; split <;> omega)
    | frPush u => exact framesClosed_le_one _ _ _ (by simp)
    | _ => exact Nat.zero_le _
  rw [held_false_iff, hd]
  simp only [State.roomy, Fifo.free, Nat.add_sub_cancel_left]
  refine ⟨?_, ?_, by omega, ?_⟩ <;> cases i <;> simp only [demand] <;> (try split) <;> (try split) <;> omega

/-- A command taken has its whole effect, whatever room there is. -/
theorem takeWord_command {w : Word} {i : Instr} (h : decode w = .command i) (s : State) :
    takeWord w s = effect i s.release := by
  have ha : s.release.UnitsAgree s.roomy.release := ⟨rfl, rfl, rfl, rfl, rfl, rfl, rfl, rfl, rfl⟩
  obtain ⟨⟨a, a1, a2⟩, ⟨b, b1, b2⟩, ⟨c, c1, c2⟩, ⟨d, d1, d2⟩, hu⟩ := effect_alike i ha
  obtain ⟨p1, q1, r1, t1⟩ := effect_host_side i s.release
  obtain ⟨-, q2, r2, t2⟩ := effect_host_side i s.roomy.release
  simp only [takeWord, h, exec_accepted (held_roomy i s)]
  apply State.ext
  · exact p1.symm
  · exact hu.ctrl
  · exact hu.status
  · exact hu.pk
  · exact hu.up
  · exact hu.rx
  · exact hu.fr
  · exact hu.ft
  · exact hu.ck
  · exact a2.trans a1.symm
  · exact b2.trans b1.symm
  · exact c2.trans c1.symm
  · exact d2.trans d1.symm
  · exact q2.trans q1.symm
  · exact r2.trans r1.symm
  · exact t2.trans t1.symm

theorem takeWord_illegal {w : Word} {e : IllegalReason} (h : decode w = .illegal e) (s : State) :
    takeWord w s = s.acceptIllegal := by simp [takeWord, h]

@[simp] theorem takeWords_nil (s : State) : takeWords [] s = s := rfl

@[simp] theorem takeWords_cons (w : Word) (ws : List Word) (s : State) :
    takeWords (w :: ws) s = takeWords ws (takeWord w s) := rfl

/-- Two states with the same units and the same emitted sequences, whatever the host has removed. -/
structure State.Alike (s t : State) : Prop where
  units : s.UnitsAgree t
  pko   : t.pko.emitted = s.pko.emitted
  upo   : t.upo.emitted = s.upo.emitted
  fro   : t.fro.emitted = s.fro.emitted
  fto   : t.fto.emitted = s.fto.emitted

theorem alike_refl (s : State) : s.Alike s := ⟨⟨rfl, rfl, rfl, rfl, rfl, rfl, rfl, rfl, rfl⟩, rfl, rfl, rfl, rfl⟩

theorem alike_trans {s t u : State} (h : s.Alike t) (g : t.Alike u) : s.Alike u :=
  ⟨⟨g.units.depth.trans h.units.depth, g.units.ctrl.trans h.units.ctrl, g.units.status.trans h.units.status,
      g.units.pk.trans h.units.pk, g.units.up.trans h.units.up, g.units.rx.trans h.units.rx,
      g.units.fr.trans h.units.fr, g.units.ft.trans h.units.ft, g.units.ck.trans h.units.ck⟩,
    g.pko.trans h.pko, g.upo.trans h.upo, g.fro.trans h.fro, g.fto.trans h.fto⟩

/-- What the host sees in two such states is the same. -/
theorem result_alike {s t : State} (h : s.Alike t) : t.result = s.result := by
  obtain ⟨⟨_, hc, hs, hpk, hup, hrx, hfr, hft, hck⟩, h1, h2, h3, h4⟩ := h
  have hr : ∀ a, t.readReg a = s.readReg a := by
    intro a
    simp [State.readReg, State.ctrlReg, State.statusReg, State.pkSt, State.upSt, State.rxSt, State.frSt, State.ftSt,
      State.ckSt, hc, hs, hpk, hup, hrx, hfr, hft, hck]
  simp [State.result, State.registers, hr, h1, h2, h3, h4]

/-- A word taken keeps two states alike. -/
theorem takeWord_alike {s t : State} (w : Word) (h : s.Alike t) : (takeWord w s).Alike (takeWord w t) := by
  obtain ⟨⟨f1, f2, f3, f4, f5, f6, f7, f8, f9⟩, h1, h2, h3, h4⟩ := h
  cases hd : decode w with
  | illegal e =>
    rw [takeWord_illegal hd, takeWord_illegal hd]
    exact ⟨⟨f1, f2, by simp [State.acceptIllegal, f3], f4, f5, f6, f7, f8, f9⟩, h1, h2, h3, h4⟩
  | command i =>
    have hr : s.release.UnitsAgree t.release := ⟨f1, f2, f3, f4, f5, f6, f7, f8, f9⟩
    obtain ⟨⟨a, a1, a2⟩, ⟨b, b1, b2⟩, ⟨c, c1, c2⟩, ⟨d, d1, d2⟩, hu⟩ := effect_alike i hr
    rw [takeWord_command hd, takeWord_command hd]
    exact ⟨hu, by simp [a1, a2, h1], by simp [b1, b2, h2], by simp [c1, c2, h3], by simp [d1, d2, h4]⟩

theorem takeWords_alike {s t : State} (ws : List Word) (h : s.Alike t) :
    (takeWords ws s).Alike (takeWords ws t) := by
  induction ws generalizing s t with
  | nil => exact h
  | cons w ws ih => exact ih (takeWord_alike w h)

/-! ### Runs of programs -/

@[simp] theorem word?_present (w : Word) : (HostEvent.present w).word? = some w := rfl
@[simp] theorem word?_read (a : BitVec 3) : (HostEvent.read a).word? = none := rfl
@[simp] theorem word?_remove (f : FifoId) : (HostEvent.remove f).word? = none := rfl
@[simp] theorem word?_reset : HostEvent.reset.word? = none := rfl

theorem step_awaits {s : State} (h : s.AwaitsHost) : step s = .next (hostTurn s) := by
  rcases h with h | ⟨w, i, hp, hd, hh⟩ <;> simp [step, *]

/-- What the host does without a reset changes no unit and no emitted sequence, and takes no word from the program. -/
theorem hostTurn_alike (s : State) (hr : .reset ∉ s.hostEvents) :
    s.Alike (hostTurn s) ∧ (hostTurn s).program = s.program ∧ .reset ∉ (hostTurn s).hostEvents := by
  unfold hostTurn
  split
  · exact ⟨alike_refl s, rfl, hr⟩
  · next w rest he =>
    split
    · exact ⟨alike_refl s, rfl, hr⟩
    · next hp =>
      have hp : s.port = none := by simpa using hp
      refine ⟨⟨⟨rfl, rfl, rfl, rfl, rfl, rfl, rfl, rfl, rfl⟩, rfl, rfl, rfl, rfl⟩, ?_, by simp_all⟩
      simp [State.program, he, hp]
  · next a rest he =>
    refine ⟨⟨⟨rfl, rfl, rfl, rfl, rfl, rfl, rfl, rfl, rfl⟩, rfl, rfl, rfl, rfl⟩, ?_, by simp_all [State.answerRead]⟩
    simp [State.program, he, State.answerRead, List.filterMap_cons]
  · next f rest he =>
    refine ⟨⟨by cases f <;> exact ⟨rfl, rfl, rfl, rfl, rfl, rfl, rfl, rfl, rfl⟩, ?_, ?_, ?_, ?_⟩, ?_, ?_⟩
    all_goals cases f <;> simp_all [State.program, State.removeHead, List.filterMap_cons]
  · next rest he => simp_all

theorem finished_iff (s : State) : s.finished = true ↔ s.program = [] := by simp [State.finished]

theorem runResult_finished {s : State} (k : Nat) (h : s.finished = true) : runResult k s = some s.result := by
  cases k <;> simp [runResult, h]

theorem runResult_zero {s : State} (h : s.finished = false) : runResult 0 s = none := by simp [runResult, h]

theorem runResult_succ {s t : State} (k : Nat) (h : s.finished = false) (hs : step s = .next t) :
    runResult (k + 1) s = runResult k t := by simp [runResult, h, hs]

end Sys2Proof.Machine
end

