-- ==== Sys2Proof/Tests/Slice0.lean ====
section
/-!
SUPPORT. The model's own tests. Expected results come from spec/95_test_vectors.md (the vector is named in each
comment) or from the rule named; the encodings are written out from 30_encoding.md R70 to R73. Last, for every
statement with hypotheses, a state and operands that meet them.
-/

namespace Sys2Proof.Tests

open Sys2Proof Sys2Proof.Machine

/-! ### Small states -/

/-- The smallest legal parameters (00_scope.md R8). -/
def smallest : Params := ⟨2, 1, 2, 1, 2⟩

def idle : State := State.resetWith smallest

def packing (acc : BitVec 7) (n : BitVec 3) : State := { idle with pk := ⟨acc, n⟩ }

def unpacking (acc : BitVec 6) (n : BitVec 3) : State := { idle with up := ⟨acc, n⟩, rx := ⟨acc, n⟩ }

def collecting (buf : List Byte) : State := { idle with fr := ⟨.collecting, buf⟩ }

def sending (x : Byte) : State := { idle with ft := ⟨true, x⟩ }

/-- The same state with every FIFO at its depth. -/
def filled (s : State) : State :=
  { s with
    params := smallest
    pko := ⟨[], [0x82]⟩, upo := ⟨[], [0x41, 0x41]⟩, fro := ⟨[], [[0x06]]⟩, fto := ⟨[], [0x05, 0x41]⟩ }

/-- The state with a word on the command port. -/
def presenting (w : Word) (s : State) : State := { s with port := some w }

/-- What one command leads to. -/
def after (i : Instr) (s : State) : Option State :=
  match exec i s with
  | .next t => some t
  | _ => none

/-- What one step leads to. -/
def stepped (s : State) : Option State :=
  match step s with
  | .next t => some t
  | _ => none

/-! ### Decoding, bit by bit -/

theorem test_decode_sys :
    decode 0b0000000000000000 = .command .sysNop ∧ decode 0b0000000100000010 = .command (.sysWrctrl 2) ∧
    decode 0b0000001000001001 = .command (.sysClrstat 9) ∧ decode 0b0000001100000000 = .command .sysSreset := by decide

theorem test_decode_pk :
    decode 0b0001000001000001 = .command (.pkPush 0x41) ∧ decode 0b0001000100000000 = .command (.pkEnd false) ∧
    decode 0b0001000100000001 = .command (.pkEnd true) := by decide

theorem test_decode_up_rx :
    decode 0b0010000010000011 = .command (.upPush 0x83) ∧ decode 0b0010000100000001 = .command (.upEnd true) ∧
    decode 0b0010001000000100 = .command (.rxPush 0x04) ∧ decode 0b0010001100000001 = .command (.rxEnd true) := by decide

theorem test_decode_fr :
    decode 0b0011000000001110 = .command (.frPush 0x0E) ∧ decode 0b0011000100000000 = .command .frAbort := by decide

theorem test_decode_ft :
    decode 0b0100000000000101 = .command (.ftStart 5) ∧ decode 0b0100000101000001 = .command (.ftData 0x41) ∧
    decode 0b0100001000000000 = .command .ftEnd := by decide

theorem test_decode_ck :
    decode 0b0101000000000010 = .command (.ckInit 2) ∧ decode 0b0101000100001001 = .command (.ckAdd 9) := by decide

/-- 95_test_vectors.md section 11, the illegal words. -/
theorem test_decode_illegal :
    ([0x0001, 0x0104, 0x0220, 0x0301, 0x1080, 0x10FF, 0x1102, 0x2102, 0x3101, 0x4201] : List Word).all
      (fun w => decode w == .illegal .mustBeZeroBitSet) ∧
    ([0x0400, 0x0F00, 0x1200, 0x2400, 0x3200, 0x4300, 0x5200] : List Word).all
      (fun w => decode w == .illegal .unassignedFunc) ∧
    ([0x6000, 0xFFFF] : List Word).all (fun w => decode w == .illegal .unassignedUnit) := by decide

theorem test_decodeTableWord :
    decodeTableWord 16 0x4200 = some .ftEnd ∧ decodeTableWord 16 0x10FF = none := by decide

/-! ### Well-formed lines and the assembler -/

theorem test_wellFormed_refuses :
    AsmLine.WellFormed (.command .upPush (some 256)) = false ∧ AsmLine.WellFormed (.command .pkPush (some 128)) = false ∧
    AsmLine.WellFormed (.command .pkEnd (some 2)) = false ∧ AsmLine.WellFormed (.command .sysWrctrl (some 4)) = false ∧
    AsmLine.WellFormed (.command .sysClrstat (some 32)) = false ∧ AsmLine.WellFormed (.command .ftEnd (some 0)) = false ∧
    AsmLine.WellFormed (.command .ckAdd none) = false ∧ AsmLine.WellFormed (.word 65536) = false ∧
    AsmLine.WellFormed (.pack [127, 128] true) = false ∧ AsmLine.WellFormed (.unpack [256] false) = false ∧
    AsmLine.WellFormed (.rxmsg [0, 256] true) = false ∧ AsmLine.WellFormed (.txframe 256 []) = false ∧
    AsmLine.WellFormed (.txframe 5 [256]) = false ∧ AsmLine.WellFormed (.cksum [256]) = false := by decide

theorem test_wellFormed_accepts :
    AsmLine.WellFormed (.command .upPush (some 255)) = true ∧ AsmLine.WellFormed (.command .pkPush (some 127)) = true ∧
    AsmLine.WellFormed (.command .pkEnd (some 1)) = true ∧ AsmLine.WellFormed (.command .sysWrctrl (some 3)) = true ∧
    AsmLine.WellFormed (.command .sysClrstat (some 31)) = true ∧ AsmLine.WellFormed (.command .ftEnd none) = true ∧
    AsmLine.WellFormed .clrall = true ∧ AsmLine.WellFormed (.cksum []) = true := by decide

/-- 30_encoding.md R80: case, hexadecimal, `FLUSH`, comments, `.word`. -/
theorem test_assembleText_command :
    assembleText "pk.push 0x7f ; seven bits".toList = some [0x107F] ∧
    assembleText "RX.END NOFLUSH".toList = some [0x2300] ∧ assembleText "FR.ABORT".toList = some [0x3100] ∧
    assembleText ".word 0x0104".toList = some [0x0104] ∧ assembleText "PK.PUSH 128".toList = none ∧
    assembleText "FT.END 0".toList = none ∧ assembleText "; nothing".toList = some [] := by decide

/-- 30_encoding.md R81, with `k = 0` as it says there. -/
theorem test_assembleText_pseudo :
    assembleText "PACK 1, 0x7F, FLUSH".toList = some [0x1001, 0x107F, 0x1101] ∧
    assembleText "UNPACK 0x83".toList = some [0x2083, 0x2100] ∧ assembleText "RXMSG FLUSH".toList = some [0x2301] ∧
    assembleText "TXFRAME 5, 3, 4".toList = some [0x4005, 0x4103, 0x4104, 0x4200] ∧
    assembleText "TXFRAME 6".toList = some [0x4006, 0x4200] ∧ assembleText "CKSUM".toList = some [0x5000] ∧
    assembleText "CKSUM 9".toList = some [0x5000, 0x5109] ∧ assembleText "CLRALL".toList = some [0x021F] := by decide

/-! ### One step each -/

/-- R190. -/
theorem test_sysNop : (after .sysNop (sending 5)).map (·.registers) = some (sending 5).registers := by decide

/-- SYS-1. -/
theorem test_sysWrctrl : (after (.sysWrctrl 3) idle).map (·.readReg 0) = some 0x0003 := by decide

/-- SYS-3. -/
theorem test_sysClrstat :
    (after (.sysClrstat 9) { idle with status := 0b11000 }).map (·.readReg 1) = some 0x0010 := by decide

/-- SYS-6. -/
theorem test_sysSreset :
    (after .sysSreset { filled (sending 7) with ctrl := 3, status := 31, ck := 0x77 }).map
      (fun t => (t.registers, t.upo.entries, t.fto.entries)) =
    some ([0, 0, 0, 0, 0, 0, 0, 0x0A00], [0x41, 0x41], [0x05, 0x41]) := by decide

/-- PK-11. -/
theorem test_pkPush_first : (after (.pkPush 0x41) idle).map (fun t => (t.pko.entries, t.readReg 2)) = some ([], 0x4107) := by
  decide

/-- HOLD-4, its second and third pushes. -/
theorem test_pkPush_emits :
    (after (.pkPush 0x7F) (packing 0x41 7)).map (fun t => (t.pko.entries, t.readReg 2)) = some ([0x83], 0x3F06) ∧
    (after (.pkPush 0x01) (packing 0x3F 6)).map (fun t => (t.pko.entries, t.readReg 2)) = some ([0xFC], 0x0105) := by decide

/-- PK-3. -/
theorem test_pkEnd_flush :
    (after (.pkEnd true) (packing 0x41 7)).map (fun t => (t.pko.entries, t.readReg 2)) = some ([0x82], 0) := by decide

/-- PK-2. -/
theorem test_pkEnd_noflush :
    (after (.pkEnd false) (packing 0x41 7)).map (fun t => (t.pko.entries, t.readReg 2)) = some ([], 0) := by decide

/-- R105. -/
theorem test_upPush_one :
    (after (.upPush 0x83) idle).map (fun t => (t.upo.entries, t.readReg 3)) = some ([0x41], 0x0101) := by decide

/-- UP-7. -/
theorem test_upPush_two :
    (after (.upPush 0x40) (unpacking 0x20 6)).map (fun t => (t.upo.entries, t.readReg 3)) = some ([0x40, 0x40], 0) := by
  decide

/-- UP-3. -/
theorem test_upEnd_tagged :
    (after (.upEnd true) { unpacking 1 1 with ctrl := 1 }).map (·.upo.entries) = some [0xC0] := by decide

/-- UP-1. -/
theorem test_upEnd_noflush :
    (after (.upEnd false) (unpacking 1 1)).map (fun t => (t.upo.entries, t.readReg 3)) = some ([], 0) := by decide

/-- RX-1, and RX-4 for the tag. -/
theorem test_rxPush_opens :
    (after (.rxPush 0x04) { idle with ctrl := 1 }).map (fun t => (t.readReg 4, t.readReg 5)) =
      some (0x0001, 0x0100) := by decide

/-- R112: with 6 residual bits a byte gives two values, here 2 and then 5. -/
theorem test_rxPush_two :
    (after (.rxPush 0x05) (unpacking 1 6)).map (fun t => (t.fr.buf, t.readReg 4, t.readReg 5)) =
      some ([5], 0, 0x0101) := by decide

/-- RX-2. -/
theorem test_rxEnd_flush :
    (after (.rxEnd true) { unpacking 0 1 with fr := ⟨.collecting, []⟩ }).map (fun t => (t.fr.buf, t.readReg 5)) =
      some ([0], 0x0101) := by decide

/-- FR-13: without flush the frame goes on. -/
theorem test_rxEnd_noflush :
    (after (.rxEnd false) (collecting [5])).map (·.readReg 5) = some 0x0101 := by decide

/-- FR-1. -/
theorem test_frPush_close :
    (after (.frPush 3) (collecting [5, 1, 2, 14])).map (fun t => (t.fro.entries, t.registers)) =
      some ([[5, 1, 2]], idle.registers) := by decide

/-- FR-2, FR-3, FR-4, FR-8 and FR-15. -/
theorem test_frPush_errors :
    (after (.frPush 3) (collecting [])).map (·.readReg 1) = some 0x0002 ∧
    (after (.frPush 3) (collecting [7])).map (·.readReg 1) = some 0x0002 ∧
    (after (.frPush 3) (collecting [5, 1, 2, 15])).map (·.readReg 1) = some 0x0001 ∧
    (after (.frPush 1) { collecting [1, 1, 1, 1] with params := ⟨4, 1, 2, 1, 2⟩ }).map
      (fun t => (t.readReg 1, t.readReg 5)) = some (0x0004, 0x0200) ∧
    (after (.frPush 0x82) idle).map (·.readReg 5) = some 0 := by decide

/-- FR-16. -/
theorem test_frAbort : (after .frAbort (collecting [5])).map (·.registers) = some idle.registers := by decide

/-- R171: the framed form, and FT-6b. -/
theorem test_ftStart :
    (after (.ftStart 5) { idle with ctrl := 2 }).map (fun t => (t.fto.entries, t.readReg 6)) = some ([2, 5], 0x0107) ∧
    (after (.ftStart 6) (sending 5)).map (fun t => (t.fto.entries, t.readReg 1, t.readReg 6)) =
      some ([], 0x0010, 0x0105) := by decide

/-- FT-1, and FT-6. -/
theorem test_ftData :
    (after (.ftData 0x41) (sending 5)).map (fun t => (t.fto.entries, t.readReg 6)) = some ([0x41], 0x0144) ∧
    (after (.ftData 0x41) idle).map (fun t => (t.fto.entries, t.readReg 1)) = some ([], 0x0010) := by decide

/-- FT-1, FT-4a and FT-6a. -/
theorem test_ftEnd :
    (after .ftEnd (sending 0x44)).map (fun t => (t.fto.entries, t.readReg 6)) = some ([0x44, 3], 0x0044) ∧
    (after .ftEnd (sending 0)).map (·.fto.entries) = some [0x0A, 3] ∧
    (after .ftEnd idle).map (·.readReg 1) = some 0x0010 := by decide

/-- CK-7. -/
theorem test_ckInit : (after (.ckInit 2) { idle with ck := 0x77 }).map (·.readReg 7) = some 0x0C02 := by decide

/-- CK-2 and CK-8. -/
theorem test_ckAdd :
    (after (.ckAdd 9) idle).map (·.readReg 7) = some 0x1309 ∧
    (after (.ckAdd 0x55) { idle with ck := 0x55 }).map (·.readReg 7) = some 0x0A00 := by decide

/-! ### Holding and the host -/

/-- HOLD-1: `FT.END` needs two free entries. -/
theorem test_hold_ftEnd :
    held .ftEnd { sending 0x44 with fto := ⟨[], [0x05, 0x41]⟩ } = true ∧
    held .ftEnd { sending 0x44 with fto := ⟨[0x05], [0x41]⟩ } = true ∧
    held .ftEnd { sending 0x44 with fto := ⟨[0x05, 0x41], []⟩ } = false := by decide

/-- HOLD-2, HOLD-4, HOLD-6, HOLD-7 and HOLD-9: what is held and what is not on full FIFOs. -/
theorem test_hold_full :
    held (.ftStart 6) (filled (sending 5)) = false ∧ held (.pkPush 1) (filled (packing 0x3F 6)) = true ∧
    held (.frPush 3) (filled (collecting [6, 14])) = true ∧ held (.frPush 3) (filled (collecting [6, 15])) = false ∧
    held (.ckInit 7) (filled idle) = false := by decide

/-- HOLD-8: the byte that would close a valid frame is held while `FRO` is full, and the host's removal frees it. -/
theorem test_hold_removal :
    (stepped (presenting 0x22C0
      { filled { idle with rx := ⟨0, 5⟩, fr := ⟨.collecting, [5, 1, 2, 14]⟩ } with hostEvents := [.remove .fro] })).map
      (fun t => (t.port, t.fro, t.hostEvents)) = some (some 0x22C0, ⟨[[6]], []⟩, []) := by decide

/-- HOLD-3: an illegal word is accepted on full FIFOs and sets `ILL`. -/
theorem test_hold_illegal :
    (stepped (presenting 0x6000 (filled (sending 0x44)))).map (fun t => (t.port, t.readReg 1, t.readReg 6)) =
      some (none, 0x0008, 0x0144) := by decide

/-- 20_memory.md R52: a read answers and changes nothing. -/
theorem test_read :
    (stepped { sending 0x44 with hostEvents := [.read 6] }).map (fun t => (t.answers, t.registers)) =
      some ([(6, 0x0144)], (sending 0x44).registers) := by decide

/-- HOLD-1's end, and a reset after it: the result is taken when the held `FT.END` has been accepted (R247). -/
theorem test_run_ends :
    (runResult 4 { presenting 0x4200 (filled (sending 0x44)) with
        hostEvents := [.remove .fto, .remove .fto, .reset] }).map (fun r => (r.fto, r.registers.getD 6 0)) =
      some ([0x05, 0x41, 0x44, 0x03], 0x0044) := by decide

/-- SYS-5: an illegal word is part of a program. -/
theorem test_run_illegal :
    (runFromReset smallest [.present 0x0001] 2).map (fun r => r.registers.getD 1 0) = some 0x0008 := by decide

/-- `withFetchWord` puts the word where the next step runs it. -/
theorem test_withFetchWord :
    (stepped (State.reset.withFetchWord 16 0x5009)).map (·.readReg 7) = some 0x1309 := by decide

/-! ### For every statement with hypotheses, a state and operands that meet them -/

theorem witness_EncodeDecode :
    decode 0x107F = .command (.pkPush 0x7F) ∧ decode 0x0000 = .command .sysNop := by decide

theorem witness_DecodeByMap :
    (∃ r₁ ∈ opcodeMap, ∃ r₂ ∈ opcodeMap, r₁.selects 0x021F = true ∧ r₂.selects 0x021F = true) ∧
    (∃ r ∈ opcodeMap, r.selects 0x021F = true ∧ Instr.sysClrstat 0x1F = r.op.withData (dataField 0x021F)) ∧
    (∀ r ∈ opcodeMap, r.selects 0x0220 = false) := by decide

theorem witness_IllegalWords :
    6 ≤ (unitField 0x6000).toNat ∧ 6 ≤ (unitField 0xFFFF).toNat ∧
    (unitField 0x0400 = 0 ∧ 4 ≤ (funcField 0x0400).toNat) ∧ (unitField 0x1200 = 1 ∧ 2 ≤ (funcField 0x1200).toNat) ∧
    (unitField 0x2400 = 2 ∧ 4 ≤ (funcField 0x2400).toNat) ∧ (unitField 0x3200 = 3 ∧ 2 ≤ (funcField 0x3200).toNat) ∧
    (unitField 0x4300 = 4 ∧ 3 ≤ (funcField 0x4300).toNat) ∧ (unitField 0x5FFF = 5 ∧ 2 ≤ (funcField 0x5FFF).toNat) ∧
    (unitField 0x1080 = Op.pkPush.unit ∧ funcField 0x1080 = Op.pkPush.func ∧
      dataField 0x1080 &&& Op.pkPush.form.mustBeZero ≠ 0) := by decide

theorem witness_Assembles : AsmLine.WellFormed (.command .pkPush (some 128)) = false := by decide

theorem witness_StepRunsDecoded :
    (let s := presenting 0x1041 idle
     s.port = some 0x1041 ∧ decode 0x1041 = .command (.pkPush 0x41) ∧ held (.pkPush 0x41) s = false) ∧
    (let s := presenting 0x1041 (filled (packing 1 1))
     s.port = some 0x1041 ∧ decode 0x1041 = .command (.pkPush 0x41) ∧ held (.pkPush 0x41) s = true) ∧
    idle.port = none := by decide

theorem witness_IllegalEffect :
    (presenting 0x6000 (filled idle)).port = some 0x6000 ∧ decode 0x6000 = .illegal .unassignedUnit := by decide

theorem witness_HoldRule :
    held (.pkPush 1) (filled (packing 1 1)) = true ∧ held (.pkPush 1) (packing 1 1) = false ∧
    (unpacking 0x20 6).up.n.toNat ≤ 6 ∧ (Instr.pkPush 1).isUp = false ∧ (Instr.pkPush 1).feedsReceiver = false ∧
    ((presenting 0x1080 idle).port = some 0x1080 ∧ decode 0x1080 = .illegal .mustBeZeroBitSet) ∧
    (sending 5).ft.opened = true ∧ idle.ft.opened = false ∧
    (idle.params.Legal ∧ idle.pko.entries = [] ∧ idle.upo.entries = [] ∧ idle.fro.entries = [] ∧
      idle.fto.entries = []) := by decide

/-- The host reads, presents and removes from `FTO`, and the held `PK.PUSH` waits for `PKO`. -/
theorem witness_HeldForever :
    let s := { presenting 0x1001 (filled (packing 0x3F 6)) with
      hostEvents := [.read 7, .remove .fto, .present 0x0000] }
    s.port = some 0x1001 ∧ decode 0x1001 = .command (.pkPush 1) ∧ held (.pkPush 1) s = true ∧
      ∀ e ∈ s.hostEvents,
        (∃ v, e = .present v) ∨ (∃ a, e = .read a) ∨ ∃ f, e = .remove f ∧ (Instr.pkPush 1).writes f = false :=
  ⟨rfl, rfl, rfl, by simp [Instr.writes, Instr.isFt]⟩

theorem witness_PresentedSequenceRuns :
    (let s := { idle with hostEvents := [.present 0x1041, .present 0x1101, .read 2] }
     s.port = none ∧
      s.hostEvents = [Instr.pkPush 0x41, Instr.pkEnd true].map (fun i => .present (encode i)) ++ [.read 2] ∧
      (acceptAll [.pkPush 0x41, .pkEnd true] s).isSome = true) ∧
    (let s := { presenting 0x1001 (filled (packing 0x3F 6)) with hostEvents := [.remove .pko, .present 0x6000] }
     .reset ∉ s.hostEvents ∧ (runResult 4 s).isSome = true) ∧
    (let s := { presenting 0x1001 (filled (packing 0x3F 6)) with hostEvents := [.read 1, .present 0x0000] }
     s.port = some 0x1001 ∧ decode 0x1001 = .command (.pkPush 1) ∧ held (.pkPush 1) s = true ∧
      ∀ e ∈ s.hostEvents, (∃ v, e = .present v) ∨ ∃ a, e = .read a) ∧
    (let s := { sending 5 with hostEvents := [.reset, .remove .fto] }
     s.port = none ∧ ∀ v, .present v ∉ s.hostEvents) :=
  ⟨by decide, by decide, ⟨rfl, rfl, rfl, by simp⟩, rfl, by simp⟩

/-- A program with an illegal word in it, none of it held. -/
theorem witness_PresentedSequenceRuns_unheld :
    let s := { idle with hostEvents := [.present 0x6000, .present 0x5009] }
    s.port = none ∧ s.hostEvents = [0x6000, 0x5009].map .present ∧
      ∀ (before after : List Word) (w : Word) (i : Instr), [0x6000, 0x5009] = before ++ w :: after →
        decode w = .command i → held i (takeWords before s) = false := by
  refine ⟨rfl, rfl, fun before after w i h hd => ?_⟩
  match before, h with
  | [], h =>
    obtain ⟨rfl, -⟩ := List.cons.inj h
    cases hd
  | [b], h =>
    obtain ⟨rfl, -⟩ := List.cons.inj (List.cons.inj h).2
    cases hd
    rfl
  | b :: c :: l, h => simp at h

theorem witness_HostRead :
    (let s := { idle with hostEvents := [.read 7] }
     s.port = none ∧ s.hostEvents = [.read 7]) ∧
    (let s := { presenting 0x1041 (filled (packing 1 1)) with hostEvents := [.read 7] }
     s.port = some 0x1041 ∧ decode 0x1041 = .command (.pkPush 0x41) ∧ held (.pkPush 0x41) s = true ∧
      s.hostEvents = [.read 7]) := by decide

theorem witness_HostRemove :
    (idle.port = none ∧ (presenting 0x1041 (filled (packing 1 1))).port = some 0x1041 ∧
      held (.pkPush 0x41) (presenting 0x1041 (filled (packing 1 1))) = true) ∧ (filled idle).pko.entries = [0x82] ∧ (filled idle).upo.entries = [0x41, 0x41] ∧
    (filled idle).fro.entries = [[0x06]] ∧ (filled idle).fto.entries = [0x05, 0x41] ∧
    (∀ f ∈ [FifoId.pko, .upo, .fro, .fto],
      (stepped { filled idle with hostEvents := [.remove f] }).isSome = true) := by decide

theorem witness_HostReset :
    (let s := { filled (collecting [5]) with hostEvents := [.reset] }
     s.port = none ∧ s.hostEvents = [.reset]) ∧
    (let s := { presenting 0x1041 (filled (packing 1 1)) with hostEvents := [.reset] }
     s.port = some 0x1041 ∧ decode 0x1041 = .command (.pkPush 0x41) ∧ held (.pkPush 0x41) s = true ∧
      s.hostEvents = [.reset]) := by decide

theorem witness_ReadMap :
    (collecting [5]).fr.buf.length ≤ 255 ∧ (collecting (List.replicate 255 0)).fr.buf.length ≤ 255 ∧
    idle.port = none :=
  ⟨by decide, (List.length_replicate (n := 255) (a := (0 : Byte))).le, rfl⟩

/-- A state in which every unit holds something meets the invariant. -/
theorem inv_busy :
    State.Inv
      { filled idle with
        pk := ⟨0x3F, 6⟩, up := ⟨0x20, 6⟩, rx := ⟨1, 1⟩, fr := ⟨.collecting, [5, 1]⟩, ft := ⟨true, 5⟩, ck := 7 } :=
  ⟨by decide, by decide, by decide, by decide, by decide, by decide, by decide, by decide, by decide, by decide⟩

theorem witness_RegistersShowUnits :
    let s := { filled idle with
      pk := ⟨0x3F, 6⟩, up := ⟨0x20, 6⟩, rx := ⟨1, 1⟩, fr := ⟨.collecting, [5, 1]⟩, ft := ⟨true, 5⟩, ck := 7 }
    s.Inv ∧ s.Inv ∧ s.registers = s.registers := ⟨inv_busy, inv_busy, rfl⟩

theorem witness_SysNop :
    (0x0001 ≤ (0x0001 : Word).toNat ∧ (0x0001 : Word).toNat ≤ 0x00FF) ∧
    (0x0001 ≤ (0x00FF : Word).toNat ∧ (0x00FF : Word).toNat ≤ 0x00FF) ∧ ∃ t, exec .sysNop (sending 5) = .next t :=
  ⟨by decide, by decide, _, rfl⟩

theorem witness_SysWrctrl :
    (0x0104 ≤ (0x0104 : Word).toNat ∧ (0x0104 : Word).toNat ≤ 0x01FF ∧ (presenting 0x0104 idle).port = some 0x0104) ∧
    ∃ t, exec (.sysWrctrl 3) idle = .next t := ⟨by decide, _, rfl⟩

theorem witness_SysClrstat :
    let s := { idle with status := 0b11001 }
    (0x0220 ≤ (0x0220 : Word).toNat ∧ (0x0220 : Word).toNat ≤ 0x02FF ∧ (presenting 0x0220 s).port = some 0x0220) ∧
    s.stat .ckerr = true ∧ s.readReg 1 = 0x0019 ∧ ∃ t, exec (.sysClrstat 0x09) s = .next t :=
  ⟨by decide, by decide, by decide, _, rfl⟩

theorem witness_SysSreset : ∃ t, exec .sysSreset (filled (sending 5)) = .next t := ⟨_, rfl⟩

theorem witness_AtMostOneStatusBit :
    ∃ t, step (presenting 0x4141 idle) = .next t ∧ idle.stat .seq = false ∧ t.stat .seq = true :=
  ⟨_, rfl, by decide, by decide⟩

/-- A bit cleared by `SYS.CLRSTAT`, by `SYS.SRESET` and by hardware reset. -/
theorem witness_StatusSticky :
    let s := { idle with status := 1 }
    (∃ t, step (presenting 0x0201 s) = .next t ∧ s.stat .ckerr = true ∧ t.stat .ckerr = false) ∧
    (∃ t, step (presenting 0x0300 s) = .next t ∧ s.stat .ckerr = true ∧ t.stat .ckerr = false) ∧
    (∃ t, step { s with hostEvents := [.reset] } = .next t ∧ s.stat .ckerr = true ∧ t.stat .ckerr = false) :=
  ⟨⟨_, rfl, by decide, by decide⟩, ⟨_, rfl, by decide, by decide⟩, _, rfl, by decide, by decide⟩

/-- Each of the five events, raised by one step. -/
theorem witness_StatusCauses :
    (∃ t, step (presenting 0x6000 idle) = .next t ∧ idle.stat .ill = false ∧ t.stat .ill = true) ∧
    (∃ t, step (presenting 0x4200 idle) = .next t ∧ idle.stat .seq = false ∧ t.stat .seq = true) ∧
    (∃ t, step (presenting 0x3003 (collecting [6, 15])) = .next t ∧ (collecting [6, 15]).stat .ckerr = false ∧ t.stat .ckerr = true) ∧
    (∃ t, step (presenting 0x3003 (collecting [6])) = .next t ∧ (collecting [6]).stat .short = false ∧ t.stat .short = true) ∧
    (∃ t, step (presenting 0x3001 (collecting [6, 1])) = .next t ∧ (collecting [6, 1]).stat .ovf = false ∧ t.stat .ovf = true) :=
  ⟨⟨_, rfl, by decide, by decide⟩, ⟨_, rfl, by decide, by decide⟩, ⟨_, rfl, by decide, by decide⟩,
    ⟨_, rfl, by decide, by decide⟩, _, rfl, by decide, by decide⟩

theorem witness_StatusIgnored : ∃ t, exec (.frPush 3) (collecting [6, 15]) = .next t := ⟨_, rfl⟩

theorem witness_PkPush :
    (0x1080 ≤ (0x1080 : Word).toNat ∧ (0x10FF : Word).toNat ≤ 0x10FF) ∧ idle.pk.n = 0 ∧
    ((packing 1 1).pk.n.toNat = 0 + 1 ∧ 1 ≤ (packing 1 1).pko.free (packing 1 1).params.pkoDepth) ∧
    ((packing 0x41 7).pk.n.toNat = 6 + 1 ∧ 1 ≤ (packing 0x41 7).pko.free (packing 0x41 7).params.pkoDepth) ∧
    ((filled (packing 1 1)).pk.n ≠ 0 ∧ (filled (packing 1 1)).pko.free (filled (packing 1 1)).params.pkoDepth = 0) ∧
    (let s := { idle with params := ⟨2, 7, 2, 1, 2⟩ }
     (List.replicate 8 (0x7F : U7)).length = 8 ∧ s.pk.n = 0 ∧
      (acceptAll ((List.replicate 8 (0x7F : U7)).map .pkPush) s).isSome = true) ∧ smallest.Legal := by decide

theorem witness_PkEnd :
    idle.pk.n = 0 ∧ ((packing 1 1).pk.n ≠ 0 ∧ 1 ≤ (packing 1 1).pko.free (packing 1 1).params.pkoDepth) ∧
    ((filled (packing 1 1)).pk.n ≠ 0 ∧ (filled (packing 1 1)).pko.free (filled (packing 1 1)).params.pkoDepth = 0) ∧
    ((packing 0x3F 6).readReg 2 = 0x3F06 ∧ 1 ≤ (packing 0x3F 6).pko.free (packing 0x3F 6).params.pkoDepth) := by decide

theorem witness_PushKeepsBitStream :
    ((packing 0x3F 6).pk.Wf ∧ held (.pkPush 1) (packing 0x3F 6) = false ∧
      (after (.pkPush 1) (packing 0x3F 6)).isSome = true) ∧
    (idle.pk.Wf ∧ held (.pkPush 1) idle = false ∧ (after (.pkPush 1) idle).isSome = true) ∧
    ((unpacking 0x20 6).up.Wf ∧ held (.upPush 1) (unpacking 0x20 6) = false ∧
      (after (.upPush 1) (unpacking 0x20 6)).isSome = true) := by decide

/-- A packing call with other units' commands between its own. -/
theorem witness_PackEquivalence :
    (let cs : List Instr := [.ckInit 1, .pkPush 0x41, .frPush 2, .pkPush 0x7F, .sysNop, .pkEnd true]
     let s := { idle with params := ⟨2, 2, 2, 1, 2⟩ }
     s.pk.n = 0 ∧ cs.filter Instr.isPk = packCommands [0x41, 0x7F] true ∧ .sysSreset ∉ cs ∧
      (acceptAll cs s).isSome = true) ∧
    (idle.pk.n = 0 ∧ (pack7to8 [0x41] true).length ≤ idle.pko.free idle.params.pkoDepth) := by decide

theorem witness_RegroupCounts :
    (idle.pk.n = 0 ∧ (acceptAll ([0x41, 0x7F].map .pkPush) idle).isSome = true) ∧
    (idle.up.n = 0 ∧ (acceptAll ([0x83, 0xFC].map .upPush) idle).isSome = true) ∧
    (idle.rx.n = 0 ∧ (acceptAll ([0x04, 0x14].map .rxPush) idle).isSome = true) := by decide

theorem witness_RoundTripNoFlush : ∃ u, u ∈ unpack8to7 [0x83] false true := ⟨0xC1, by decide⟩

theorem witness_UpPush :
    (∀ s ∈ [idle, unpacking 0x1F 5], s.up.n.toNat ≤ 5 ∧ 1 ≤ s.upo.free s.params.upoDepth) ∧
    ((filled (unpacking 0x1F 5)).up.n.toNat ≤ 5 ∧
      (filled (unpacking 0x1F 5)).upo.free (filled (unpacking 0x1F 5)).params.upoDepth < 1) ∧
    ((unpacking 0x20 6).up.n = 6 ∧ 2 ≤ (unpacking 0x20 6).upo.free (unpacking 0x20 6).params.upoDepth) ∧
    (let s := { unpacking 0x20 6 with upo := ⟨[], [0x40]⟩ }
     s.up.n = 6 ∧ s.upo.free s.params.upoDepth < 2) ∧ smallest.Legal := by decide

theorem witness_UpEnd :
    idle.up.n = 0 ∧
    ((unpacking 1 1).up.n ≠ 0 ∧ 1 ≤ (unpacking 1 1).upo.free (unpacking 1 1).params.upoDepth) ∧
    ((filled (unpacking 1 1)).up.n ≠ 0 ∧
      (filled (unpacking 1 1)).upo.free (filled (unpacking 1 1)).params.upoDepth = 0) ∧ smallest.Legal := by decide

/-- An unpacking call with other units' commands between its own, `CTRL.TAG` rewritten with the same value. -/
theorem witness_UnpackEquivalence :
    (let cs : List Instr := [.upPush 0x83, .sysWrctrl 2, .rxPush 4, .upEnd true]
     idle.up.n = 0 ∧ cs.filter Instr.isUp = unpackCommands [0x83] true ∧ .sysSreset ∉ cs ∧
      (acceptAll cs idle).isSome = true) ∧
    (2 : BitVec 2).getLsbD 0 = idle.tag ∧
    (idle.up.n = 0 ∧ (unpack8to7 [0x83] true idle.tag).length ≤ idle.upo.free idle.params.upoDepth) := by decide

theorem witness_TagIsAppliedAtEmission :
    (Instr.upPush 0xFF).isUp = true ∧ held (.upPush 0xFF) (unpacking 0x20 6) = false ∧
    ∃ t, exec (.upPush 0xFF) (unpacking 0x20 6) = .next t := ⟨by decide, by decide, _, rfl⟩

theorem witness_RxPush :
    ((∀ s ∈ [idle, unpacking 0x1F 5], s.rx.n.toNat ≤ 5) ∧
      (2 : Byte).toNat = (idle.rx.acc.toNat * 256 + (0x04 : Byte).toNat) / 2 ^ (idle.rx.n.toNat + 1) % 128 ∧
      idle.fr.framesClosed idle.params.frDepth [2] ≤ idle.fro.free idle.params.froDepth) ∧
    (let s := filled { collecting [6, 14] with rx := ⟨0, 5⟩ }
     s.rx.n.toNat ≤ 5 ∧ (3 : Byte).toNat = (s.rx.acc.toNat * 256 + (0xC0 : Byte).toNat) / 2 ^ (s.rx.n.toNat + 1) % 128 ∧
      s.fro.free s.params.froDepth < s.fr.framesClosed s.params.frDepth [3]) ∧
    (let s := { collecting [6, 14] with rx := ⟨1, 6⟩ }
     s.rx.n = 6 ∧ (3 : Byte).toNat = (s.rx.acc.toNat * 256 + (0x81 : Byte).toNat) / 128 % 128 ∧
      (1 : Byte).toNat = (0x81 : Byte).toNat % 128 ∧
      s.fr.framesClosed s.params.frDepth [3, 1] ≤ s.fro.free s.params.froDepth ∧
      (filled s).fro.free (filled s).params.froDepth < s.fr.framesClosed s.params.frDepth [3, 1]) := by decide

theorem witness_RxEnd :
    idle.rx.n = 0 ∧
    (let s := { collecting [5] with rx := ⟨1, 1⟩ }
     s.rx.n ≠ 0 ∧ (64 : Byte).toNat = s.rx.acc.toNat * 2 ^ (7 - s.rx.n.toNat) % 128 ∧
      s.fr.framesClosed s.params.frDepth [64] ≤ s.fro.free s.params.froDepth) ∧ smallest.Legal := by decide

theorem witness_RxEndNeverCloses :
    ∀ s ∈ [filled (collecting [6, 14]), { filled (collecting [6, 14]) with rx := ⟨0x3F, 6⟩ }], s.rx.n.toNat ≤ 6 := by
  decide

theorem witness_RxEquivalence :
    (idle.rx.n = 0 ∧ (acceptAll (rxmsgCommands [0x04, 0x14] true) idle).isSome = true) ∧
    (let s := collecting [6, 14]
     s.rx.n = 0 ∧
      s.fr.framesClosed s.params.frDepth (unpack8to7 [0x06, 0x00] true false) ≤ s.fro.free s.params.froDepth) := by decide

theorem witness_UnpackersIndependent :
    ((Instr.upPush 0xFF).isUp = true ∧ (after (.upPush 0xFF) (unpacking 0x20 6)).isSome = true) ∧
    ((Instr.rxPush 0xFF).op = .rxPush ∧ (after (.rxPush 0xFF) (unpacking 0x20 6)).isSome = true) ∧
    ((Instr.rxEnd true).op = .rxEnd ∧ (after (.rxEnd true) (unpacking 0x20 6)).isSome = true) := by decide

theorem witness_ChecksumFunction :
    (∀ b ∈ [2, 5, 1, (127 : Byte)], b.toNat < 128) ∧ (xorfold [9]).toNat ≤ 9 ∧ 9 < (xorfold [10]).toNat ∧
    [1, (2 : Byte)].Perm [2, 1] := by decide

theorem witness_ChecksumDetection :
    (0 : Byte) ≠ 10 ∧ (0 : Byte).toNat = 0 ∧ (10 : Byte).toNat = 0 + 10 ∧ (7 : Nat) < 8 := by decide

theorem witness_CkEquivalence :
    let cs : List Instr := [.ckInit 0, .frPush 2, .ckAdd 9, .pkPush 1]
    cs.filter Instr.isCk = cksumCommands [9] ∧ .sysSreset ∉ cs ∧ (acceptAll cs idle).isSome = true := by decide

theorem witness_ReceiverArms :
    idle.fr.state = .idle ∧ (0x82 : Byte) ≠ 2 ∧
    ((collecting [5]).fr.state = .collecting ∧ (2 : Byte) ≠ 3 ∧
      (collecting [5]).fr.buf.length < (collecting [5]).params.frDepth) ∧
    ((collecting [5, 1]).fr.state = .collecting ∧ (collecting [5, 1]).fr.buf.length = (collecting [5, 1]).params.frDepth) ∧
    ({ idle with fr := ⟨.overrun, []⟩ } : State).fr.state = .overrun := by decide

theorem witness_FrameClose :
    (∀ s ∈ [collecting [], collecting [7]], s.fr.state = .collecting ∧ s.fr.buf.length ≤ 1) ∧
    ((collecting [6, 14]).fr = ⟨.collecting, [6] ++ [14]⟩ ∧ [(6 : Byte)] ≠ [] ∧ checksum (2 :: [6]) = 14 ∧
      1 ≤ (collecting [6, 14]).fro.free (collecting [6, 14]).params.froDepth ∧ (collecting [6, 14]).fr.Wf 2 ∧
      (filled (collecting [6, 14])).fro.free (filled (collecting [6, 14])).params.froDepth = 0) ∧
    checksum (2 :: [6]) ≠ 15 ∧ 4 ≤ (⟨4, 1, 2, 1, 2⟩ : Params).frDepth ∧ (⟨4, 1, 2, 1, 2⟩ : Params).Legal := by decide

theorem witness_FrAbort : smallest.Legal := by decide

theorem witness_OneFramePerCommand : ∃ t, exec (.frPush 3) (collecting [6, 14]) = .next t := ⟨_, rfl⟩

theorem witness_FtStart :
    (sending 5).ft.opened = true ∧ smallest.Legal ∧
    (idle.ft.opened = false ∧ idle.txform = false ∧ 1 ≤ idle.fto.free idle.params.ftoDepth) ∧
    (let s := { idle with ctrl := 2 }
     s.ft.opened = false ∧ s.txform = true ∧ 2 ≤ s.fto.free s.params.ftoDepth) ∧
    (let s := { idle with ctrl := 2, fto := ⟨[], [5]⟩ }
     s.ft.opened = false ∧ s.fto.free s.params.ftoDepth < (if s.txform then 2 else 1)) ∧
    ((filled idle).ft.opened = false ∧
      (filled idle).fto.free (filled idle).params.ftoDepth < (if (filled idle).txform then 2 else 1)) := by decide

theorem witness_FtData :
    idle.ft.opened = false ∧ smallest.Legal ∧
    ((sending 5).ft.opened = true ∧ 1 ≤ (sending 5).fto.free (sending 5).params.ftoDepth) ∧
    ((filled (sending 5)).ft.opened = true ∧ (filled (sending 5)).fto.free (filled (sending 5)).params.ftoDepth = 0) := by
  decide

theorem witness_FtEnd :
    idle.ft.opened = false ∧ ((⟨2, 1, 2, 1, 4⟩ : Params).Legal ∧ 4 ≤ (⟨2, 1, 2, 1, 4⟩ : Params).ftoDepth) ∧
    ((⟨2, 1, 2, 1, 3⟩ : Params).Legal ∧ 3 ≤ (⟨2, 1, 2, 1, 3⟩ : Params).ftoDepth) ∧
    ((sending 5).ft.opened = true ∧ 2 ≤ (sending 5).fto.free (sending 5).params.ftoDepth) ∧
    (let s := { sending 5 with fto := ⟨[], [5]⟩ }
     s.ft.opened = true ∧ s.fto.free s.params.ftoDepth < 2) := by decide

/-- FT-9: the form is chosen at `FT.START`; other units' commands may stand between. -/
theorem witness_TxFrame :
    (let cs : List Instr := [.sysWrctrl 2, .ftData 1, .ckAdd 3, .ftEnd]
     let s := { idle with params := ⟨2, 1, 2, 1, 4⟩ }
     s.ft.opened = false ∧ cs.filter Instr.isFt = [1].map .ftData ++ [.ftEnd] ∧ .sysSreset ∉ cs ∧
      (acceptAll (.ftStart 5 :: cs) s).isSome = true ∧
      (outboundFrame s.txform 5 [1]).length ≤ s.fto.free s.params.ftoDepth) := by decide

theorem witness_Loopback :
    let s := { idle with params := ⟨4, 6, 2, 1, 6⟩, ctrl := 2 }
    (∀ b ∈ [5, 1, (2 : Byte)], b.toNat < 128 ∧ b ≠ 3) ∧ [1, (2 : Byte)].length + 2 ≤ s.params.frDepth ∧
    s.txform = true ∧ s.ft.opened = false ∧ s.pk.n = 0 ∧ s.rx.n = 0 ∧ s.fr.state = .idle ∧
    [1, (2 : Byte)].length + 4 ≤ s.fto.free s.params.ftoDepth ∧
    [1, (2 : Byte)].length + 4 ≤ s.pko.free s.params.pkoDepth ∧ 1 ≤ s.fro.free s.params.froDepth := by decide

/-- A frame of 6 bytes, as PK-9, and one of 8 bytes. -/
theorem witness_LoopbackUnflushed :
    let s := { idle with params := ⟨7, 1, 2, 1, 2⟩ }
    ∀ p ∈ [[1, (2 : Byte)], [1, 2, 4, 4]],
      (∀ b ∈ 5 :: p, b.toNat < 128 ∧ b ≠ 3) ∧ p.length + 3 ≤ s.params.frDepth ∧ s.rx.n = 0 ∧ s.fr.state = .idle ∧
      (acceptAll (rxmsgCommands (pack7to8 ((outboundFrame true 5 p).map dataBits) false) true) s).isSome = true := by decide

theorem witness_FrameRule : ∃ t, exec (.rxPush 0x04) (sending 5) = .next t := ⟨_, rfl⟩

theorem witness_StepKeepsInv :
    let s := { filled idle with
      pk := ⟨0x3F, 6⟩, up := ⟨0x20, 6⟩, rx := ⟨1, 1⟩, fr := ⟨.collecting, [5, 1]⟩, ft := ⟨true, 5⟩, ck := 7 }
    s.Inv ∧ ∃ t, step s = .next t := ⟨inv_busy, _, rfl⟩

theorem witness_ResetInv : smallest.Legal ∧ Config.params.Legal := by decide

end Sys2Proof.Tests
end

namespace Sys2Proof.Machine

/-!
PROOFS. Programs and their runs (00_scope.md R15, 70_reset_and_hazards.md R247): a run of a program has the result
of its words taken in order. Every step is the host's turn or takes the word on the port, and no command looks at the
host's list.
-/

/-! ### Steps in terms of words taken -/

theorem decode_encode (i : Instr) : decode (encode i) = .command i := by
  obtain ⟨hu, hf, hd⟩ := (encode_eq_iff i _).1 rfl
  obtain ⟨hz, hi⟩ := withData_data i
  exact (decode_eq_command_iff _ i).2 ⟨i.op, hu, hf, hd ▸ hz, by rw [hd, hi]⟩

/-- A word on the port that is not held is taken. -/
theorem step_takes {s : State} {w : Word} (hp : s.port = some w)
    (hh : ∀ i, decode w = .command i → held i s = false) : step s = .next (takeWord w s) := by
  cases hd : decode w with
  | illegal e => simp [step, hp, hd, takeWord_illegal hd]
  | command i => simp [step, hp, hd, hh i hd, takeWord_command hd, exec_accepted (hh i hd)]

/-- Every step is the host's turn or takes the word on the port. -/
theorem step_hostTurn_or_takes (s : State) :
    step s = .next (hostTurn s) ∨ ∃ w, s.port = some w ∧ step s = .next (takeWord w s) := by
  by_cases ha : s.AwaitsHost
  · exact .inl (step_awaits ha)
  · obtain ⟨hn, hw⟩ := not_or.1 ha
    obtain ⟨w, hp⟩ := Option.ne_none_iff_exists'.1 hn
    refine .inr ⟨w, hp, step_takes hp fun i hd => ?_⟩
    simpa using fun hh => hw ⟨w, i, hp, hd, hh⟩

theorem step_present {s : State} {w : Word} {rest : List HostEvent} (hp : s.port = none)
    (he : s.hostEvents = .present w :: rest) :
    step s = .next { s with port := some w, hostEvents := rest } := by
  simp [step, hostTurn, hp, he]

/-- A word taken frees the port and leaves the host's list as it is. -/
theorem takeWord_host_side (w : Word) (s : State) :
    (takeWord w s).port = none ∧ (takeWord w s).hostEvents = s.hostEvents := by
  cases hd : decode w with
  | illegal e => rw [takeWord_illegal hd]; exact ⟨rfl, rfl⟩
  | command i =>
    obtain ⟨-, hp, he, -⟩ := effect_host_side i s.release
    rw [takeWord_command hd]
    exact ⟨hp, he⟩

/-! ### No command looks at the host's list -/

theorem frSteps_withHostEvents (s : State) (us : List Byte) (es : List HostEvent) :
    State.frSteps { s with hostEvents := es } us = { s.frSteps us with hostEvents := es } := by
  induction us generalizing s with
  | nil => rfl
  | cons u us ih =>
    rw [frSteps_cons, frSteps_cons, ← ih, frStep_eq, frStep_eq]

theorem effect_withHostEvents (i : Instr) (s : State) (es : List HostEvent) :
    effect i { s with hostEvents := es } = { effect i s with hostEvents := es } := by
  cases i with
  | rxPush b => exact frSteps_withHostEvents { s with rx := (unpackStep s.rx b false).1 } _ es
  | rxEnd f => exact frSteps_withHostEvents { s with rx := Unpacker.clear } _ es
  | frPush u => exact frSteps_withHostEvents s [u] es
  | ftStart d =>
    have hx : State.txform { s with hostEvents := es } = s.txform := rfl
    simp only [effect, hx]
    split
    · rfl
    · split <;> rfl
  | ftData b => simp only [effect]; split <;> rfl
  | ftEnd => simp only [effect]; split <;> rfl
  | _ => rfl

theorem takeWord_withHostEvents (w : Word) (s : State) (es : List HostEvent) :
    takeWord w { s with hostEvents := es } = { takeWord w s with hostEvents := es } := by
  cases hd : decode w with
  | illegal e => rw [takeWord_illegal hd, takeWord_illegal hd]; rfl
  | command i =>
    rw [takeWord_command hd, takeWord_command hd]
    exact effect_withHostEvents i s.release es

/-- What a word does does not depend on the port it stands on. -/
theorem takeWord_withPort (w : Word) (s : State) (p : Option Word) :
    takeWord w { s with port := p } = takeWord w s := by
  cases hd : decode w with
  | illegal e => rw [takeWord_illegal hd, takeWord_illegal hd]; rfl
  | command i => rw [takeWord_command hd, takeWord_command hd]; rfl

/-- With a free port a word is presented in one step and, not held, taken in the next. -/
theorem present_then_take {s : State} {w : Word} (rest : List HostEvent) (hp : s.port = none)
    (hh : ∀ i, decode w = .command i → held i s = false) :
    ∃ u, step { s with hostEvents := .present w :: rest } = .next u ∧ u.port = some w ∧
      step u = .next { takeWord w s with hostEvents := rest } := by
  refine ⟨{ s with port := some w, hostEvents := rest }, step_present hp rfl, rfl, ?_⟩
  have hu : ∀ i, decode w = .command i → held i { s with port := some w, hostEvents := rest } = false :=
    fun i hd => (held_congr i rfl rfl rfl rfl rfl rfl rfl rfl rfl rfl rfl).trans (hh i hd)
  rw [step_takes (w := w) rfl hu, takeWord_withHostEvents w { s with port := some w }, takeWord_withPort]

/-! ### The clauses of the statement -/

/-- Commands none of which is held are accepted two steps each. -/
theorem run_presented (cs : List Instr) (rest : List HostEvent) {s t : State} (hp : s.port = none)
    (ha : acceptAll cs s = some t) :
    Host.Core.run Sys2Proof.core (2 * cs.length)
      { s with hostEvents := cs.map (fun i => .present (encode i)) ++ rest } = .next { t with hostEvents := rest } := by
  induction cs generalizing s with
  | nil =>
    obtain rfl : s = t := by simpa using ha
    rfl
  | cons i cs ih =>
    obtain ⟨hh, ha⟩ := acceptAll_cons_eq_some.1 ha
    have hd := decode_encode i
    rw [← takeWord_command hd] at ha
    have hhi : ∀ j, decode (encode i) = .command j → held j s = false := by
      intro j hj
      obtain rfl := Decoded.command.inj (hd.symm.trans hj)
      exact hh
    obtain ⟨u, h1, -, h2⟩ := present_then_take (cs.map (fun i => .present (encode i)) ++ rest) hp hhi
    exact (run_succ h1).trans ((run_succ h2).trans (ih (takeWord_host_side _ s).1 ha))

/-- Without a reset a step does not change what the words of the program lead to. -/
theorem step_keeps_takeWords {s t : State} (hr : .reset ∉ s.hostEvents) (h : step s = .next t) :
    (takeWords s.program s).Alike (takeWords t.program t) ∧ .reset ∉ t.hostEvents := by
  rcases step_hostTurn_or_takes s with h' | ⟨w, hp, h'⟩ <;> obtain rfl := Host.Outcome.next.inj (h'.symm.trans h)
  · obtain ⟨ha, hprog, hr'⟩ := hostTurn_alike s hr
    rw [hprog]
    exact ⟨takeWords_alike _ ha, hr'⟩
  · obtain ⟨hnone, he⟩ := takeWord_host_side w s
    have hprog : s.program = w :: (takeWord w s).program := by simp [State.program, hp, hnone, he]
    rw [hprog, he]
    exact ⟨alike_refl _, hr⟩

/-- A run that ends has the result of its words taken in order. -/
theorem runResult_eq_takeWords {k : Nat} {s : State} {r : RunResult} (hr : .reset ∉ s.hostEvents)
    (h : runResult k s = some r) : r = (takeWords s.program s).result := by
  induction k generalizing s with
  | zero =>
    cases hf : s.finished with
    | true => simpa [runResult_finished 0 hf, (finished_iff s).1 hf] using h.symm
    | false => simp [runResult_zero hf] at h
  | succ k ih =>
    cases hf : s.finished with
    | true => simpa [runResult_finished (k + 1) hf, (finished_iff s).1 hf] using h.symm
    | false =>
      obtain ⟨t, hs⟩ : ∃ t, step s = .next t := by
        rcases step_hostTurn_or_takes s with h' | ⟨w, -, h'⟩ <;> exact ⟨_, h'⟩
      obtain ⟨ha, hr'⟩ := step_keeps_takeWords hr hs
      rw [runResult_succ k hf hs] at h
      exact (ih hr' h).trans (result_alike ha)

theorem finished_of_port {s : State} {w : Word} (h : s.port = some w) : s.finished = false := by
  simp [State.finished, State.program, h]

/-- A run none of whose words is held when its turn comes ends. -/
theorem runResult_unheld (ws : List Word) {s : State} (hp : s.port = none)
    (hh : ∀ (before after : List Word) (w : Word) (i : Instr), ws = before ++ w :: after → decode w = .command i →
      held i (takeWords before s) = false) :
    runResult (2 * ws.length) { s with hostEvents := ws.map .present } = some (takeWords ws s).result := by
  induction ws generalizing s with
  | nil => exact runResult_finished 0 (by simp [State.finished, State.program, hp])
  | cons w ws ih =>
    obtain ⟨u, h1, hu, h2⟩ := present_then_take (ws.map .present) hp fun i => hh [] ws w i rfl
    have hf : State.finished { s with hostEvents := (w :: ws).map .present } = false := by
      simp [State.finished, State.program]
    have hrest := ih (takeWord_host_side w s).1 fun before after v i hv => hh (w :: before) after v i (by simp [hv])
    exact (runResult_succ _ hf h1).trans ((runResult_succ _ (finished_of_port hu) h2).trans hrest)

/-- While a word is on the port, a host whose next actions are presentations and reads changes nothing but its own list
and its record of answers. -/
theorem hostTurn_waiting {s : State} {w : Word} (hp : s.port = some w)
    (he : ∀ e ∈ s.hostEvents, (∃ v, e = .present v) ∨ ∃ a, e = .read a) :
    ∃ rest answers, hostTurn s = { s with hostEvents := rest, answers := answers } ∧
      ∀ e ∈ rest, e ∈ s.hostEvents := by
  unfold hostTurn
  split
  · exact ⟨s.hostEvents, s.answers, rfl, fun _ h => h⟩
  · rw [if_pos (by simp [hp])]
    exact ⟨s.hostEvents, s.answers, rfl, fun _ h => h⟩
  · next a rest h => exact ⟨rest, _, rfl, by simp +contextual [h]⟩
  · next f rest h => simp [h] at he
  · next rest h => simp [h] at he

/-- A run with a command still held has not ended. -/
theorem runResult_held (k : Nat) {s : State} {w : Word} {i : Instr} (hp : s.port = some w)
    (hd : decode w = .command i) (hh : held i s = true)
    (he : ∀ e ∈ s.hostEvents, (∃ v, e = .present v) ∨ ∃ a, e = .read a) : runResult k s = none := by
  induction k generalizing s with
  | zero => exact runResult_zero (finished_of_port hp)
  | succ k ih =>
    obtain ⟨rest, answers, ht, hsub⟩ := hostTurn_waiting hp he
    rw [runResult_succ k (finished_of_port hp) (step_awaits (.inr ⟨w, i, hp, hd, hh⟩)), ht]
    exact ih hp ((held_congr i rfl rfl rfl rfl rfl rfl rfl rfl rfl rfl rfl).trans hh) fun e h => he e (hsub e h)

/-- With nothing presented and nothing left to present the run has ended. -/
theorem finished_of_no_words {s : State} (hp : s.port = none) (he : ∀ v, .present v ∉ s.hostEvents) :
    s.finished = true := by
  have hw : ∀ e ∈ s.hostEvents, e.word? = none := by
    rintro (v | a | f | _) h
    · exact absurd h (he v)
    all_goals rfl
  rw [finished_iff, State.program, hp, List.filterMap_eq_nil_iff.2 hw]
  rfl

/-- Settles O11: the result is kept by every step (`step_keeps_takeWords`), and a word not held takes two steps
(`present_then_take`). -/
theorem presentedSequenceRuns : Obligations.PresentedSequenceRuns := by
  refine ⟨fun cs rest s t hp he ha => ?_, fun k s r hr h => runResult_eq_takeWords hr h, fun ws s hp he hh => ?_,
    fun k s w i hp hd hh he => runResult_held k hp hd hh he,
    fun k s hp he => runResult_finished k (finished_of_no_words hp he)⟩
  · have h := run_presented cs rest hp ha
    rwa [← he] at h
  · have h := runResult_unheld ws hp hh
    rwa [← he] at h

end Sys2Proof.Machine

namespace Sys2Proof.Machine

/-!
PROOFS. The state (10_state.md R21 to R35): what a command writes and how much it appends to each FIFO, the invariant
every step keeps, the sticky STATUS bits, and the registers. What several values do to the receiver is written once as a
function of the receiver alone (`frSteps_eq_run`).
-/

/-! ### Several values given to the receiver -/

/-- What several values do to the receiver: its state after them, the frames they close and the STATUS bits they set
(tied to `State.frSteps` by `frSteps_eq_run`). -/
def Receiver.run (depth : Nat) (r : Receiver) : List Byte → Receiver × List (List Byte) × BitVec 5
  | [] => (r, [], 0)
  | u :: us =>
    let o := r.step depth u
    let rest := Receiver.run depth o.1 us
    (rest.1, o.2.frames ++ rest.2.1, o.2.bits ||| rest.2.2)

/-- Several values given to `fr_step` change the receiver, `FRO` and STATUS as the receiver alone says
(42_frame_rx.md R140). -/
theorem frSteps_eq_run (s : State) (us : List Byte) :
    s.frSteps us =
      { s with
        fr := (s.fr.run s.params.frDepth us).1
        fro := s.fro.append (s.fr.run s.params.frDepth us).2.1
        status := s.status ||| (s.fr.run s.params.frDepth us).2.2 } := by
  induction us generalizing s with
  | nil => simp [Receiver.run]
  | cons u us ih =>
    rw [frSteps_cons, ih, frStep_eq]
    simp [Receiver.run, Fifo.append, BitVec.or_assoc]

theorem frStep_eq_run (s : State) (u : Byte) :
    s.frStep u =
      { s with
        fr := (s.fr.run s.params.frDepth [u]).1
        fro := s.fro.append (s.fr.run s.params.frDepth [u]).2.1
        status := s.status ||| (s.fr.run s.params.frDepth [u]).2.2 } := frSteps_eq_run s [u]

theorem run_frames_length (depth : Nat) (r : Receiver) (us : List Byte) :
    (r.run depth us).2.1.length = r.framesClosed depth us := by
  induction us generalizing r with
  | nil => rfl
  | cons u us ih => simp [Receiver.run, framesClosed_cons, ih]

/-- Several values keep the receiver's bounds, and the frames they close are ones `FRO` may hold (10_state.md R29,
42_frame_rx.md R151). -/
theorem run_wf {depth : Nat} {r : Receiver} (us : List Byte) (h : r.Wf depth) :
    (r.run depth us).1.Wf depth ∧ ∀ f ∈ (r.run depth us).2.1, FrameOk depth f := by
  induction us generalizing r with
  | nil => exact ⟨h, by simp [Receiver.run]⟩
  | cons u us ih =>
    obtain ⟨hstep, hframe⟩ := step_receiver_wf u h
    obtain ⟨hrest, hframes⟩ := ih hstep
    have hone : ∀ f ∈ (r.step depth u).2.frames, FrameOk depth f := by
      cases he : (r.step depth u).2 with
      | frame g => simpa [RxEvent.frames] using hframe g he
      | none | error => simp [RxEvent.frames]
    exact ⟨hrest, fun f hf => (List.mem_append.1 hf).elim (hone f) (hframes f)⟩

/-! ### What each command writes -/

/-- A command of `FT` writes `FT`, `FTO` and STATUS alone. -/
theorem effect_of_isFt {i : Instr} (h : i.isFt = true) (s : State) :
    effect i s = { s with ft := (effect i s).ft, fto := (effect i s).fto, status := (effect i s).status } := by
  cases i with
  | ftStart d =>
    simp only [effect]
    split
    · rfl
    · split <;> rfl
  | ftData b => simp only [effect]; split <;> rfl
  | ftEnd => simp only [effect]; split <;> rfl
  | _ => simp [Instr.isFt] at h

/-- A command that feeds the receiver writes `RX`, `FR`, `FRO` and STATUS alone, and `RX` only if it is of `RX`. -/
theorem effect_of_feedsReceiver {i : Instr} (h : i.feedsReceiver = true) (s : State) :
    (effect i s =
      { s with
        rx := (effect i s).rx, fr := (effect i s).fr, fro := (effect i s).fro, status := (effect i s).status }) ∧
    ((effect i s).rx = s.rx ∨ i.op = .rxPush ∨ i.op = .rxEnd) := by
  cases i with
  | rxPush b => exact ⟨by simp only [effect, frSteps_eq_run], .inr (.inl rfl)⟩
  | rxEnd f => exact ⟨by simp only [effect, frSteps_eq_run], .inr (.inr rfl)⟩
  | frPush u => exact ⟨by simp only [effect, frStep_eq], .inl (by simp [effect])⟩
  | _ => simp [Instr.feedsReceiver] at h

/-- The units a command does not name stay as they were (10_state.md R23 to R31, "written by"). -/
theorem effect_units_frame (i : Instr) (s : State) :
    ((effect i s).ctrl = s.ctrl ∨ i.op = .sysWrctrl ∨ i.op = .sysSreset) ∧
    ((effect i s).status = s.status ∨ i.op = .sysClrstat ∨ i.op = .sysSreset ∨ i.feedsReceiver = true ∨ i.isFt = true) ∧
    ((effect i s).pk = s.pk ∨ i.isPk = true ∨ i.op = .sysSreset) ∧
    ((effect i s).up = s.up ∨ i.isUp = true ∨ i.op = .sysSreset) ∧
    ((effect i s).rx = s.rx ∨ i.op = .rxPush ∨ i.op = .rxEnd ∨ i.op = .sysSreset) ∧
    ((effect i s).fr = s.fr ∨ i.feedsReceiver = true ∨ i.op = .frAbort ∨ i.op = .sysSreset) ∧
    ((effect i s).ft = s.ft ∨ i.isFt = true ∨ i.op = .sysSreset) ∧
    ((effect i s).ck = s.ck ∨ i.isCk = true ∨ i.op = .sysSreset) := by
  by_cases hft : i.isFt = true
  · rw [effect_of_isFt hft]
    simp [hft]
  by_cases hrx : i.feedsReceiver = true
  · obtain ⟨he, hx⟩ := effect_of_feedsReceiver hrx s
    have hx' : (effect i s).rx = s.rx ∨ i.op = .rxPush ∨ i.op = .rxEnd ∨ i.op = .sysSreset := by tauto
    rw [he]
    simpa [hrx] using hx'
  cases i with
  | ftStart | ftData | ftEnd | rxPush | rxEnd | frPush => contradiction
  | _ => simp [effect, Instr.op, Instr.isPk, Instr.isUp, Instr.isCk]

/-! ### How much each command appends -/

/-- One FIFO is another with `n` entries appended at its tail. -/
abbrev Fifo.GrowsBy {α : Type} (q q' : Fifo α) (n : Nat) : Prop := ∃ vs, q' = q.append vs ∧ vs.length = n

theorem growsBy_append {α : Type} (q : Fifo α) {vs : List α} {n : Nat} (h : vs.length = n) : q.GrowsBy (q.append vs) n :=
  ⟨vs, rfl, h⟩

theorem growsBy_zero {α : Type} (q : Fifo α) : q.GrowsBy q 0 := ⟨[], (append_nil q).symm, rfl⟩

/-- Every command appends to each FIFO exactly what the table of 70_reset_and_hazards.md R240 counts. -/
theorem effect_growsBy_demand (i : Instr) (s : State) :
    s.pko.GrowsBy (effect i s).pko (demand i s).pko ∧ s.upo.GrowsBy (effect i s).upo (demand i s).upo ∧
    s.fro.GrowsBy (effect i s).fro (demand i s).fro ∧ s.fto.GrowsBy (effect i s).fto (demand i s).fto := by
  have h1 := growsBy_zero s.pko
  have h2 := growsBy_zero s.upo
  have h3 := growsBy_zero s.fro
  have h4 := growsBy_zero s.fto
  cases i with
  | pkPush v => exact ⟨growsBy_append _ (packStep_length s.pk v), h2, h3, h4⟩
  | pkEnd f => exact ⟨growsBy_append _ (packEnd_length s.pk f), h2, h3, h4⟩
  | upPush b => exact ⟨h1, growsBy_append _ (unpackStep_length s.up b s.tag), h3, h4⟩
  | upEnd f => exact ⟨h1, growsBy_append _ (unpackEnd_length s.up f s.tag), h3, h4⟩
  | rxPush b => rw [effect, frSteps_eq_run]; exact ⟨h1, h2, growsBy_append _ (run_frames_length ..), h4⟩
  | rxEnd f => rw [effect, frSteps_eq_run]; exact ⟨h1, h2, growsBy_append _ (run_frames_length ..), h4⟩
  | frPush u => rw [effect, frStep_eq_run]; exact ⟨h1, h2, growsBy_append _ (run_frames_length ..), h4⟩
  | ftStart d =>
    simp only [effect, demand]
    split
    · exact ⟨h1, h2, h3, h4⟩
    · split <;> exact ⟨h1, h2, h3, growsBy_append _ rfl⟩
  | ftData b =>
    simp only [effect, demand]
    split
    · exact ⟨h1, h2, h3, growsBy_append _ rfl⟩
    · exact ⟨h1, h2, h3, h4⟩
  | ftEnd =>
    simp only [effect, demand]
    split
    · exact ⟨h1, h2, h3, growsBy_append _ rfl⟩
    · exact ⟨h1, h2, h3, h4⟩
  | _ => exact ⟨h1, h2, h3, h4⟩

/-- A FIFO that grows keeps its head and its removed entries, and stays as it was when nothing is appended. -/
theorem growsBy_frame {α : Type} {q q' : Fifo α} {n : Nat} {written : Bool} (h : q.GrowsBy q' n)
    (hw : written = false → n = 0) :
    q'.taken = q.taken ∧ q.entries <+: q'.entries ∧ (q' = q ∨ written = true) := by
  obtain ⟨vs, rfl, hl⟩ := h
  refine ⟨rfl, List.prefix_append .., ?_⟩
  cases written with
  | true => exact .inr rfl
  | false => exact .inl (by simp [List.length_eq_zero_iff.1 (hl.trans (hw rfl))])

/-- A FIFO that grows by no more than it has free stays within its depth. -/
theorem growsBy_within {α : Type} {q q' : Fifo α} {n depth : Nat} (h : q.GrowsBy q' n)
    (hd : q.entries.length ≤ depth) (hn : n ≤ q.free depth) : q'.entries.length ≤ depth := by
  obtain ⟨vs, rfl, rfl⟩ := h
  simp only [Fifo.free] at hn
  simp only [append_entries, List.length_append]
  omega

/-- Settles O58: every accepted command writes what `effect_units_frame` and `effect_growsBy_demand` say. -/
theorem frameRule : Obligations.FrameRule := by
  intro i s t h
  rcases exec_next_iff.1 h with ⟨-, rfl⟩ | ⟨-, rfl⟩
  · simp
  obtain ⟨hp, -, he, ha⟩ := effect_host_side i s.release
  obtain ⟨d1, d2, d3, d4⟩ := demand_of_not_writes i s.release
  obtain ⟨g1, g2, g3, g4⟩ := effect_growsBy_demand i s.release
  obtain ⟨t1, p1, e1⟩ := growsBy_frame g1 d1
  obtain ⟨t2, p2, e2⟩ := growsBy_frame g2 d2
  obtain ⟨t3, p3, e3⟩ := growsBy_frame g3 d3
  obtain ⟨t4, p4, e4⟩ := growsBy_frame g4 d4
  obtain ⟨u1, u2, u3, u4, u5, u6, u7, u8⟩ := effect_units_frame i s.release
  exact ⟨hp, he, ha, t1, t2, t3, t4, u1, u2, u3, u4, u5, u6, u7, u8, p1, e1, p2, e2, p3, e3, p4, e4⟩


/-! ### The invariant -/

theorem packer_clear_wf : Packer.clear.Wf := by decide

theorem unpacker_clear_wf : Unpacker.clear.Wf := by decide

theorem receiver_idle_wf (depth : Nat) : Receiver.Wf depth ⟨.idle, []⟩ := by simp [Receiver.Wf]

/-- STATUS and the host's side are no part of the invariant. -/
theorem inv_withHostSide {s : State} (h : s.Inv) (bits : BitVec 5) (p : Option Word) (es : List HostEvent)
    (as : List (BitVec 3 × Word)) :
    State.Inv { s with status := bits, port := p, hostEvents := es, answers := as } :=
  ⟨h.legal, h.pk, h.up, h.rx, h.fr, h.pko, h.upo, h.fro, h.fto, h.frames⟩

/-- The receiver's part of the invariant, after several values: the buffer and every emitted frame. -/
theorem run_inv {s : State} (h : s.Inv) (us : List Byte) :
    (s.fr.run s.params.frDepth us).1.Wf s.params.frDepth ∧
    ∀ f ∈ (s.fro.append (s.fr.run s.params.frDepth us).2.1).emitted, FrameOk s.params.frDepth f := by
  obtain ⟨hr, hf⟩ := run_wf us h.fr
  refine ⟨hr, fun f hm => ?_⟩
  rw [append_emitted] at hm
  exact (List.mem_append.1 hm).elim (h.frames f) (hf f)

/-- Every command keeps the units' residual bits and buffer in range, and emits only frames `FRO` may hold. -/
theorem effect_keeps_units {s : State} (i : Instr) (h : s.Inv) :
    (effect i s).pk.Wf ∧ (effect i s).up.Wf ∧ (effect i s).rx.Wf ∧ (effect i s).fr.Wf s.params.frDepth ∧
    ∀ f ∈ (effect i s).fro.emitted, FrameOk s.params.frDepth f := by
  cases i with
  | sysSreset => exact ⟨packer_clear_wf, unpacker_clear_wf, unpacker_clear_wf, receiver_idle_wf _, h.frames⟩
  | pkPush v => exact ⟨packStep_wf s.pk v, h.up, h.rx, h.fr, h.frames⟩
  | pkEnd f => exact ⟨packer_clear_wf, h.up, h.rx, h.fr, h.frames⟩
  | upPush b => exact ⟨h.pk, unpackStep_wf s.up b s.tag h.up.1, h.rx, h.fr, h.frames⟩
  | upEnd f => exact ⟨h.pk, unpacker_clear_wf, h.rx, h.fr, h.frames⟩
  | rxPush b =>
    rw [effect, frSteps_eq_run]
    exact ⟨h.pk, h.up, unpackStep_wf s.rx b false h.rx.1, run_inv h _⟩
  | rxEnd f =>
    rw [effect, frSteps_eq_run]
    exact ⟨h.pk, h.up, unpacker_clear_wf, run_inv h _⟩
  | frPush u =>
    rw [effect, frStep_eq_run]
    exact ⟨h.pk, h.up, h.rx, run_inv h _⟩
  | frAbort => exact ⟨h.pk, h.up, h.rx, receiver_idle_wf _, h.frames⟩
  | ftStart | ftData | ftEnd =>
    rw [effect_of_isFt rfl]
    exact ⟨h.pk, h.up, h.rx, h.fr, h.frames⟩
  | sysNop | sysWrctrl | sysClrstat | ckInit | ckAdd => exact ⟨h.pk, h.up, h.rx, h.fr, h.frames⟩

/-- A command that is not held keeps the invariant: it appends no more than the FIFOs have free. -/
theorem effect_keeps_inv {s : State} {i : Instr} (h : s.Inv) (hh : held i s = false) : (effect i s).Inv := by
  obtain ⟨hpk, hup, hrx, hfr, hframes⟩ := effect_keeps_units i h
  obtain ⟨g1, g2, g3, g4⟩ := effect_growsBy_demand i s
  obtain ⟨r1, r2, r3, r4⟩ := (held_false_iff i s).1 hh
  have hp := (effect_host_side i s).1
  exact {
    legal := hp ▸ h.legal
    pk := hpk
    up := hup
    rx := hrx
    fr := hp ▸ hfr
    pko := hp ▸ growsBy_within g1 h.pko r1
    upo := hp ▸ growsBy_within g2 h.upo r2
    fro := hp ▸ growsBy_within g3 h.fro r3
    fto := hp ▸ growsBy_within g4 h.fto r4
    frames := hp ▸ hframes }

theorem removeHead_keeps_inv {s : State} (f : FifoId) (h : s.Inv) : (s.removeHead f).Inv := by
  cases f with
  | pko => exact { h with pko := (remove_length_le s.pko).trans h.pko }
  | upo => exact { h with upo := (remove_length_le s.upo).trans h.upo }
  | fro =>
    exact { h with fro := (remove_length_le s.fro).trans h.fro, frames := by simpa [State.removeHead] using h.frames }
  | fto => exact { h with fto := (remove_length_le s.fto).trans h.fto }

theorem hardReset_keeps_inv {s : State} (h : s.Inv) : s.hardReset.Inv :=
  ⟨h.legal, packer_clear_wf, unpacker_clear_wf, unpacker_clear_wf, receiver_idle_wf _, Nat.zero_le _, Nat.zero_le _,
    Nat.zero_le _, Nat.zero_le _, by simp [Fifo.emitted]⟩

/-! ### The host's turn -/

/-- Everything the host's turn can do (20_memory.md R63). -/
theorem hostTurn_cases (s : State) :
    hostTurn s = s ∨
    (∃ w rest, hostTurn s = { s with port := some w, hostEvents := rest }) ∨
    (∃ a rest, hostTurn s = State.answerRead a { s with hostEvents := rest }) ∨
    (∃ f rest, hostTurn s = State.removeHead f { s with hostEvents := rest }) ∨
    (∃ rest, s.hostEvents = .reset :: rest ∧ hostTurn s = State.hardReset { s with hostEvents := rest }) := by
  unfold hostTurn
  split
  · exact .inl rfl
  · next w rest _ =>
    split
    · exact .inl rfl
    · exact .inr (.inl ⟨w, rest, rfl⟩)
  · next a rest _ => exact .inr (.inr (.inl ⟨a, rest, rfl⟩))
  · next f rest _ => exact .inr (.inr (.inr (.inl ⟨f, rest, rfl⟩)))
  · next rest he => exact .inr (.inr (.inr (.inr ⟨rest, he, rfl⟩)))

theorem hostTurn_keeps_inv {s : State} (h : s.Inv) : (hostTurn s).Inv := by
  rcases hostTurn_cases s with e | ⟨w, rest, e⟩ | ⟨a, rest, e⟩ | ⟨f, rest, e⟩ | ⟨rest, -, e⟩ <;> rw [e]
  · exact h
  · exact inv_withHostSide h ..
  · exact inv_withHostSide h ..
  · exact removeHead_keeps_inv f (inv_withHostSide h ..)
  · exact hardReset_keeps_inv (inv_withHostSide h ..)

/-- Settles O59: the host's turn, an illegal word and an accepted command each keep the invariant. -/
theorem stepKeepsInv : Obligations.StepKeepsInv := by
  intro s t h hs
  rcases step_cases hs with ⟨-, rfl⟩ | ⟨w, e, -, -, rfl⟩ | ⟨w, i, -, -, hh, rfl⟩
  · exact hostTurn_keeps_inv h
  · exact inv_withHostSide h ..
  · exact effect_keeps_inv (s := s.release) (inv_withHostSide h ..) ((held_release i s).trans hh)

/-! ### STATUS -/

/-- What each command does to STATUS: `SYS.CLRSTAT` clears its mask's bits, `SYS.SRESET` clears all, and every other
command only sets bits (10_state.md R24). -/
theorem effect_status_cases (i : Instr) (s : State) :
    (∃ m, i = .sysClrstat m ∧ (effect i s).status = s.status &&& ~~~m) ∨
    (i = .sysSreset ∧ (effect i s).status = 0) ∨
    ∃ bits, (effect i s).status = s.status ||| bits := by
  have keeps : s.status = s.status ||| 0 := BitVec.or_zero.symm
  cases i with
  | sysClrstat m => exact .inl ⟨m, rfl, rfl⟩
  | sysSreset => exact .inr (.inl ⟨rfl, rfl⟩)
  | rxPush b => rw [effect, frSteps_eq_run]; exact .inr (.inr ⟨_, rfl⟩)
  | rxEnd f => rw [effect, frSteps_eq_run]; exact .inr (.inr ⟨_, rfl⟩)
  | frPush u => rw [effect, frStep_eq_run]; exact .inr (.inr ⟨_, rfl⟩)
  | ftStart d =>
    simp only [effect]
    split
    · exact .inr (.inr ⟨_, rfl⟩)
    · split <;> exact .inr (.inr ⟨0, keeps⟩)
  | ftData b =>
    simp only [effect]
    split
    · exact .inr (.inr ⟨0, keeps⟩)
    · exact .inr (.inr ⟨_, rfl⟩)
  | ftEnd =>
    simp only [effect]
    split
    · exact .inr (.inr ⟨0, keeps⟩)
    · exact .inr (.inr ⟨_, rfl⟩)
  | _ => exact .inr (.inr ⟨0, keeps⟩)

/-- A bit set before is set after further bits are set. -/
theorem stat_of_status_or {s t : State} {bits : BitVec 5} {b : StatusBit} (h : t.status = s.status ||| bits)
    (hb : s.stat b = true) : t.stat b = true := by
  simp only [State.stat] at hb ⊢
  simp [h, hb]

/-- The host's turn changes STATUS only by a reset. -/
theorem hostTurn_status (s : State) : (hostTurn s).status = s.status ∨ ∃ rest, s.hostEvents = .reset :: rest := by
  rcases hostTurn_cases s with e | ⟨w, rest, e⟩ | ⟨a, rest, e⟩ | ⟨f, rest, e⟩ | ⟨rest, he, -⟩
  · exact .inl (by rw [e])
  · exact .inl (by rw [e])
  · exact .inl (by rw [e]; rfl)
  · exact .inl (by rw [e]; cases f <;> rfl)
  · exact .inr ⟨rest, he⟩

/-- Settles O23: the host's turn clears a bit only by a reset (`hostTurn_status`), an illegal word sets `ILL`, and a
command clears a bit only as `effect_status_cases` says. -/
theorem statusSticky : Obligations.StatusSticky := by
  intro s t b hs hset hclear
  have hne : t.stat b ≠ true := by simp [hclear]
  rcases step_cases hs with ⟨ha, rfl⟩ | ⟨w, e, -, -, rfl⟩ | ⟨w, i, hp, hd, hh, rfl⟩
  · refine .inr ⟨ha, (hostTurn_status s).resolve_left fun he => hne ?_⟩
    rwa [State.stat, he]
  · exact absurd (stat_of_status_or (s := s) rfl hset) hne
  · refine .inl ⟨w, i, hp, hd, hh, ?_⟩
    rcases effect_status_cases i s.release with ⟨m, rfl, he⟩ | ⟨hi, -⟩ | ⟨bits, he⟩
    · refine .inr ⟨m, rfl, ?_⟩
      have hcode : b.code < 5 := by cases b <;> decide
      rw [State.stat] at hset hclear
      simpa [he, hset, hcode] using hclear
    · exact .inl hi
    · exact absurd (stat_of_status_or (s := s) he hset) hne

/-- No command looks at STATUS but to change STATUS. -/
theorem effect_withStatus (i : Instr) (s : State) (bits : BitVec 5) :
    ∃ bits', effect i { s with status := bits } = { effect i s with status := bits' } := by
  have hx : State.txform { s with status := bits } = s.txform := rfl
  cases i with
  | rxPush b => simp only [effect, frSteps_eq_run]; exact ⟨_, rfl⟩
  | rxEnd f => simp only [effect, frSteps_eq_run]; exact ⟨_, rfl⟩
  | frPush u => simp only [effect, frStep_eq]; exact ⟨_, rfl⟩
  | ftStart d =>
    simp only [effect, hx]
    split
    · exact ⟨_, rfl⟩
    · split <;> exact ⟨_, rfl⟩
  | ftData b => simp only [effect]; split <;> exact ⟨_, rfl⟩
  | ftEnd => simp only [effect]; split <;> exact ⟨_, rfl⟩
  | _ => exact ⟨_, rfl⟩

/-- Settles O25: holding does not depend on STATUS (`held_congr`), nor does an effect (`effect_withStatus`). -/
theorem statusIgnored : Obligations.StatusIgnored := by
  intro i s t bits
  have hheld : held i { s with status := bits } = held i s := held_congr i rfl rfl rfl rfl rfl rfl rfl rfl rfl rfl rfl
  refine ⟨hheld, fun h => ?_⟩
  rcases exec_next_iff.1 h with ⟨hh, rfl⟩ | ⟨hh, rfl⟩
  · exact ⟨bits, exec_held (hheld.trans hh)⟩
  · obtain ⟨bits', he⟩ := effect_withStatus i s.release bits
    exact ⟨bits', (exec_accepted (hheld.trans hh)).trans (congrArg _ he)⟩

/-! ### The two unpackers -/

/-- If a change of the state leaves the hold alike and commutes with the effect, it commutes with the command. -/
theorem exec_commutes {i : Instr} {g : State → State} {s t : State} (hh : held i (g s) = held i s)
    (he : effect i (g s).release = g (effect i s.release)) (h : exec i s = .next t) :
    exec i (g s) = .next (g t) := by
  rcases exec_next_iff.1 h with ⟨hs, rfl⟩ | ⟨hs, rfl⟩
  · exact exec_held (hh.trans hs)
  · rw [exec_accepted (hh.trans hs), he]

/-- A command keeps of a state what its effect keeps. -/
theorem exec_keeps {α : Type} {i : Instr} {field : State → α} {s t : State}
    (he : field (effect i s.release) = field s) (h : exec i s = .next t) : field t = field s := by
  rcases exec_next_iff.1 h with ⟨-, rfl⟩ | ⟨-, rfl⟩
  · rfl
  · exact he

/-- Settles O43: neither unpacker's commands look at the other's residual bits. -/
theorem unpackersIndependent : Obligations.UnpackersIndependent := by
  intro i s t r h
  constructor
  · intro hi
    cases i with
    | upPush b => exact ⟨exec_keeps rfl h, exec_commutes (g := fun s => { s with rx := r }) rfl rfl h⟩
    | upEnd f => exact ⟨exec_keeps rfl h, exec_commutes (g := fun s => { s with rx := r }) rfl rfl h⟩
    | _ => simp [Instr.isUp] at hi
  · intro hi
    cases i with
    | rxPush b =>
      exact ⟨exec_keeps (by simp [effect]) h,
        exec_commutes (g := fun s => { s with up := r }) rfl (by simp only [effect, frSteps_eq_run]; rfl) h⟩
    | rxEnd f =>
      exact ⟨exec_keeps (by simp [effect]) h,
        exec_commutes (g := fun s => { s with up := r }) rfl (by simp only [effect, frSteps_eq_run]; rfl) h⟩
    | _ => simp [Instr.op] at hi

/-! ### The register read port -/

/-- A two-bit register as its bits. -/
theorem toNat_bits2 (c : BitVec 2) : c.toNat = (c.getLsbD 0).toNat + 2 * (c.getLsbD 1).toNat := by
  revert c; decide

/-- A five-bit register as its bits. -/
theorem toNat_bits5 (c : BitVec 5) :
    c.toNat = (c.getLsbD 0).toNat + 2 * (c.getLsbD 1).toNat + 4 * (c.getLsbD 2).toNat + 8 * (c.getLsbD 3).toNat +
      16 * (c.getLsbD 4).toNat := by
  revert c; decide

/-- A field above another, as numbers. -/
theorem toNat_append_add {v w : Nat} (x : BitVec v) (y : BitVec w) : (x ++ y).toNat = x.toNat * 2 ^ w + y.toNat := by
  rw [BitVec.toNat_append, shift_or]

/-- `CTRL`: `TAG` in bit 0, `TXFORM` in bit 1. -/
theorem ctrlReg_toNat (s : State) : s.ctrlReg.toNat = s.tag.toNat + 2 * s.txform.toNat :=
  (BitVec.toNat_setWidth_of_le (by decide)).trans (toNat_bits2 s.ctrl)

/-- `STATUS`: each event's bit at its cause code. -/
theorem statusReg_toNat (s : State) :
    s.statusReg.toNat = (s.stat .ckerr).toNat + 2 * (s.stat .short).toNat + 4 * (s.stat .ovf).toNat +
      8 * (s.stat .ill).toNat + 16 * (s.stat .seq).toNat :=
  (BitVec.toNat_setWidth_of_le (by decide)).trans (toNat_bits5 s.status)

theorem pkSt_toNat (s : State) : s.pkSt.toNat = s.pk.n.toNat + 256 * s.pk.acc.toNat := by
  simp only [State.pkSt, toNat_append_add, BitVec.toNat_ofNat]
  omega

/-- `UP_ST` and `RX_ST` have one layout. -/
theorem unpackerSt_toNat (r : Unpacker) : (0#2 ++ r.acc ++ 0#5 ++ r.n).toNat = r.n.toNat + 256 * r.acc.toNat := by
  simp only [toNat_append_add, BitVec.toNat_ofNat]
  omega

theorem frSt_toNat {s : State} (h : s.fr.buf.length ≤ 255) :
    s.frSt.toNat = s.fr.buf.length + 256 * s.fr.state.code.toNat := by
  simp only [State.frSt, toNat_append_add, BitVec.toNat_ofNat]
  omega

theorem ftSt_toNat (s : State) : s.ftSt.toNat = s.ft.x.toNat + 256 * s.ft.opened.toNat := by
  simp only [State.ftSt, toNat_append_add, BitVec.toNat_ofNat, BitVec.toNat_ofBool]
  omega

theorem ckSt_toNat (s : State) : s.ckSt.toNat = s.ck.toNat + 256 * (ck10 s.ck).toNat := by
  simp only [State.ckSt, toNat_append_add]
  omega

/-- The registers after reset do not depend on the parameters. -/
theorem resetWith_registers (p : Params) : (State.resetWith p).registers = [0, 0, 0, 0, 0, 0, 0, 0x0A00] := by
  have hp : (State.resetWith p).registers = (State.resetWith Config.params).registers := rfl
  rw [hp]
  decide

/-- Settles O16: the registers field by field, a read that only adds to the host's record, and the reset values. -/
theorem readMap : Obligations.ReadMap := by
  refine ⟨fun s => ⟨ctrlReg_toNat s, statusReg_toNat s, pkSt_toNat s, unpackerSt_toNat s.up, unpackerSt_toNat s.rx,
    fun hl => (frSt_toNat hl).trans ?_, ftSt_toNat s, ckSt_toNat s⟩, fun s a rest hp he => ?_, resetWith_registers⟩
  · cases s.fr.state <;> rfl
  · refine ⟨State.answerRead a { s with hostEvents := rest }, by simp [step, hostTurn, hp, he], ?_, fun b => rfl⟩
    exact ⟨rfl, rfl, rfl, rfl, rfl, rfl, rfl, rfl, rfl, rfl, rfl, rfl, rfl⟩

end Sys2Proof.Machine

namespace Sys2Proof.Machine

/-!
PROOFS. Interfaces and bit streams (20_memory.md R52 to R60). The bits of a `w`-bit group holding the number `x` are
written `msbBits (BitVec.ofNat w x)`; a stream then splits where its number divides by a power of two
(`msbBits_ofNat_add`), and every emission is one such split.
-/

/-! ### The bits of a number -/

@[simp] theorem msbBits_length {w : Nat} (g : BitVec w) : (msbBits g).length = w := by simp [msbBits]

/-- The bits of `a + b` places are the upper `a`, then the lower `b`. -/
theorem msbBits_ofNat_add (a b x : Nat) :
    msbBits (BitVec.ofNat (a + b) x) = msbBits (BitVec.ofNat a (x / 2 ^ b)) ++ msbBits (BitVec.ofNat b x) := by
  refine List.ext_getElem (by simp) fun i hi _ => ?_
  have hi : i < a + b := by simpa using hi
  rcases Nat.lt_or_ge i a with h | h
  · simp [msbBits, BitVec.getMsbD, BitVec.getLsbD_ofNat, Nat.testBit_div_two_pow, h, hi,
      show a + b - 1 - i < a + b by omega, show a - 1 - i < a by omega, show a - 1 - i + b = a + b - 1 - i by omega]
  · simp [msbBits, BitVec.getMsbD, BitVec.getLsbD_ofNat, List.getElem_append_right, h, hi,
      show i - a < b by omega, show a + b - 1 - i < a + b by omega, show b - 1 - (i - a) = a + b - 1 - i by omega,
      show a + b - 1 - i < b by omega]

/-- A group after the bits of a number is the number with the group below it. -/
theorem msbBits_ofNat_append (n acc : Nat) {w : Nat} (g : BitVec w) :
    msbBits (BitVec.ofNat n acc) ++ msbBits g = msbBits (BitVec.ofNat (n + w) (acc * 2 ^ w + g.toNat)) := by
  have hlow : BitVec.ofNat w (acc * 2 ^ w + g.toNat) = g := by
    apply BitVec.eq_of_toNat_eq
    simp [Nat.mul_add_mod_of_lt g.isLt]
  have hhigh : (acc * 2 ^ w + g.toNat) / 2 ^ w = acc := by
    rw [Nat.mul_comm, Nat.mul_add_div (Nat.two_pow_pos w), Nat.div_eq_of_lt g.isLt, Nat.add_zero]
  rw [msbBits_ofNat_add, hlow, hhigh]

/-- A number reduced to `m` bits has the same lowest bits. -/
theorem ofNat_mod_two_pow {k m : Nat} (h : k ≤ m) (x : Nat) : BitVec.ofNat k (x % 2 ^ m) = BitVec.ofNat k x := by
  apply BitVec.eq_of_toNat_eq
  simp [Nat.mod_mod_of_dvd x (Nat.pow_dvd_pow 2 h)]

/-- Residual bits are the low `n` bits of the accumulator. -/
theorem residualBits_eq {w n : Nat} (acc : BitVec w) (h : n ≤ w) :
    residualBits acc n = msbBits (BitVec.ofNat n acc.toNat) := by
  obtain ⟨m, rfl⟩ := Nat.exists_eq_add_of_le' h
  have hsplit := msbBits_ofNat_add m n acc.toNat
  rw [BitVec.ofNat_toNat, BitVec.setWidth_eq] at hsplit
  simp [residualBits, hsplit]

theorem residualBits_length {w n : Nat} (acc : BitVec w) (h : n ≤ w) : (residualBits acc n).length = n := by
  rw [residualBits_eq acc h, msbBits_length]

/-- The residual bits a push leaves are the lowest bits of the whole accumulator. -/
theorem residualBits_ofNat {w n : Nat} (x : Nat) (h : n ≤ w) :
    residualBits (BitVec.ofNat w (x % 2 ^ n)) n = msbBits (BitVec.ofNat n x) := by
  rw [residualBits_eq _ h, BitVec.toNat_ofNat, ofNat_mod_two_pow h, ofNat_mod_two_pow le_rfl]

@[simp] theorem residualBits_zero {w : Nat} (acc : BitVec w) : residualBits acc 0 = [] := by
  simp [residualBits_eq acc (Nat.zero_le w), msbBits]

/-- A flushed group: the `n` bits of a number left-justified over zeros. -/
theorem msbBits_leftJustified (n k x : Nat) :
    msbBits (BitVec.ofNat (n + k) (x * 2 ^ k)) = msbBits (BitVec.ofNat n x) ++ List.replicate k false := by
  have hz : BitVec.ofNat k (x * 2 ^ k) = 0#k := by
    apply BitVec.eq_of_toNat_eq
    simp
  rw [msbBits_ofNat_add, hz, Nat.mul_div_cancel _ (Nat.two_pow_pos k)]
  simp [msbBits]

/-! ### Streams -/

@[simp] theorem bitStream_nil {w : Nat} : bitStream ([] : List (BitVec w)) = [] := rfl

@[simp] theorem bitStream_cons {w : Nat} (g : BitVec w) (gs : List (BitVec w)) :
    bitStream (g :: gs) = msbBits g ++ bitStream gs := rfl

@[simp] theorem bitStream_append {w : Nat} (gs hs : List (BitVec w)) :
    bitStream (gs ++ hs) = bitStream gs ++ bitStream hs := List.flatMap_append ..

@[simp] theorem bitStream_length {w : Nat} (gs : List (BitVec w)) : (bitStream gs).length = w * gs.length := by
  induction gs with
  | nil => rfl
  | cons g gs ih => simp [ih, Nat.mul_succ, Nat.add_comm]

/-- Groups of `w` bits with fewer than `w` bits after them are the stream cut into groups from its start. -/
theorem bitStream_eq_take {w : Nat} {gs : List (BitVec w)} {rest stream : List Bool}
    (h : bitStream gs ++ rest = stream) (hr : rest.length < w) :
    bitStream gs = stream.take (w * (stream.length / w)) ∧ rest.length = stream.length % w := by
  have hlen : stream.length = w * gs.length + rest.length := by simp [← h]
  have hdiv : stream.length / w = gs.length := by
    rw [hlen, Nat.mul_add_div (by omega), Nat.div_eq_of_lt hr, Nat.add_zero]
  have hmod : stream.length % w = rest.length := by rw [hlen, Nat.mul_add_mod, Nat.mod_eq_of_lt hr]
  exact ⟨by rw [hdiv, ← h, ← bitStream_length gs, List.take_left], hmod.symm⟩

/-! ### The packer keeps the stream -/

/-- One value into the packer: the bits out, then the residual bits, are the residual bits before, then the value's
(40_bitpack.md R102). -/
theorem packStep_bitStream (r : Packer) (v : U7) :
    bitStream (packStep r v).2 ++ residualBits (packStep r v).1.acc (packStep r v).1.n.toNat =
      residualBits r.acc r.n.toNat ++ msbBits v := by
  rcases Nat.eq_zero_or_pos r.n.toNat with h | h
  · have hn : r.n = 0 := BitVec.eq_of_toNat_eq h
    simp [packStep_empty v hn, h, residualBits]
  · obtain ⟨k, hk⟩ : ∃ k, r.n.toNat = k + 1 := ⟨r.n.toNat - 1, by omega⟩
    have hk7 : k < 7 := by have := r.n.isLt; omega
    have hn : (BitVec.ofNat 3 k).toNat = k := Nat.mod_eq_of_lt (by omega)
    rw [packStep_some v hk, hk, hn, residualBits_ofNat _ hk7.le, residualBits_eq _ (by omega), msbBits_ofNat_append,
      show k + 1 + 7 = 8 + k by omega, msbBits_ofNat_add]
    simp

/-- A flush emits the residual bits, padded with zeros to a whole byte (40_bitpack.md R103). -/
theorem packEnd_bitStream (r : Packer) :
    bitStream (packEnd r true) =
      residualBits r.acc r.n.toNat ++ List.replicate ((8 - r.n.toNat) % 8) false := by
  have hn := r.n.isLt
  rcases Nat.eq_zero_or_pos r.n.toNat with h | h
  · simp [packEnd, h]
  · have hj := msbBits_leftJustified r.n.toNat (8 - r.n.toNat) r.acc.toNat
    rw [Nat.add_sub_cancel' (by omega)] at hj
    rw [residualBits_eq _ (by omega), Nat.mod_eq_of_lt (by omega), ← hj]
    simp [packEnd, h, Nat.shiftLeft_eq]

/-- Where the loop of `pack7to8` leads: to a packer's residual bits, the stream kept (40_bitpack.md R100). -/
theorem packLoop_bitStream {r : Packer} (h : r.Wf) (vs : List U7) :
    ∃ r' : Packer, (packLoop r.acc.toNat r.n.toNat vs).1 = (r'.acc.toNat, r'.n.toNat) ∧
      bitStream (packLoop r.acc.toNat r.n.toNat vs).2 ++ residualBits r'.acc r'.n.toNat =
        residualBits r.acc r.n.toNat ++ bitStream vs := by
  induction vs generalizing r with
  | nil => exact ⟨r, rfl, by simp [packLoop]⟩
  | cons v vs ih =>
    obtain ⟨r', hr', hbits⟩ := ih (packStep_wf r v)
    rw [packLoop_cons h]
    refine ⟨r', hr', ?_⟩
    calc bitStream ((packStep r v).2 ++ _) ++ residualBits r'.acc r'.n.toNat
      _ = bitStream (packStep r v).2 ++
            (residualBits (packStep r v).1.acc (packStep r v).1.n.toNat ++ bitStream vs) := by
        rw [bitStream_append, List.append_assoc, hbits]
      _ = residualBits r.acc r.n.toNat ++ bitStream (v :: vs) := by
        rw [← List.append_assoc, packStep_bitStream, List.append_assoc, bitStream_cons]

/-- `pack7to8` is its loop and the flush of the packer the loop ends in (40_bitpack.md R100, R103). -/
theorem pack7to8_bitStream (vs : List U7) :
    ∃ (out : List Byte) (r : Packer), (∀ f, pack7to8 vs f = out ++ packEnd r f) ∧
      bitStream out ++ residualBits r.acc r.n.toNat = bitStream vs := by
  obtain ⟨r, hr, hbits⟩ := packLoop_bitStream (r := Packer.clear) (by decide) vs
  refine ⟨_, r, fun f => ?_, hbits.trans (by simp [Packer.clear])⟩
  have hr : (packLoop 0 0 vs).1 = (r.acc.toNat, r.n.toNat) := hr
  have hmask (x : Nat) : BitVec.ofNat 8 (x &&& 255) = BitVec.ofNat 8 x := by
    rw [show 255 = 2 ^ 8 - 1 from rfl, and_mask, ofNat_mod_two_pow le_rfl]
  simp only [pack7to8, packEnd, hr, hmask]
  split <;> simp [Packer.clear]

/-- Settles O29: fewer than 8 bits are left after the loop's bytes, and the flush pads those with zeros. -/
theorem packIsMsbFirst : Obligations.PackIsMsbFirst := by
  intro vs
  obtain ⟨out, r, hout, hbits⟩ := pack7to8_bitStream vs
  have hn := r.n.isLt
  have hres := residualBits_length r.acc (show r.n.toNat ≤ 7 by omega)
  obtain ⟨htake, hmod⟩ := bitStream_eq_take hbits (by omega)
  rw [bitStream_length] at htake hmod
  refine ⟨?_, ?_⟩
  · simpa [hout, packEnd] using htake
  · rw [hout, bitStream_append, packEnd_bitStream, ← List.append_assoc, hbits, ← hmod, hres]

/-! ### The unpackers keep the stream -/

/-- The data bits of a tagged value are the low 7 bits of its number (40_bitpack.md R108). -/
@[simp] theorem dataBits_tagged (tag : Bool) (x : Nat) : dataBits (tagged tag x) = BitVec.ofNat 7 x := by
  apply BitVec.eq_of_toNat_eq
  simp [dataBits, tagged_eq]

/-- Bit 7 of a tagged value is the tag (40_bitpack.md R108). -/
@[simp] theorem tagged_getElem_seven (tag : Bool) (x : Nat) : (tagged tag x)[7] = tag := by
  rw [← BitVec.getLsbD_eq_getElem, tagged, BitVec.getLsbD_append]
  simp

/-- One byte into an unpacker: the data bits out, then the residual bits, are the residual bits before, then the byte's
(40_bitpack.md R112). -/
theorem unpackStep_bitStream {r : Unpacker} (b : Byte) (tag : Bool) (h : r.n.toNat ≤ 6) :
    bitStream ((unpackStep r b tag).2.map dataBits) ++
        residualBits (unpackStep r b tag).1.acc (unpackStep r b tag).1.n.toNat =
      residualBits r.acc r.n.toNat ++ msbBits b := by
  rw [residualBits_eq _ h, msbBits_ofNat_append]
  rcases Nat.lt_or_ge r.n.toNat 6 with h6 | h6
  · have hn : (r.n + 1).toNat = r.n.toNat + 1 := by simp; omega
    rw [unpackStep_one b tag (by omega), hn, residualBits_ofNat _ h6, show r.n.toNat + 8 = 7 + (r.n.toNat + 1) by omega,
      msbBits_ofNat_add]
    simp
  · have hn : r.n.toNat = 6 := by omega
    rw [unpackStep_two b tag hn, hn, show 6 + 8 = 7 + 7 from rfl, msbBits_ofNat_add]
    simp

/-- A flush emits the residual bits, padded with zeros to a whole group of 7 (40_bitpack.md R112). -/
theorem unpackEnd_bitStream {r : Unpacker} (tag : Bool) (hn : r.n.toNat ≤ 6) :
    bitStream ((unpackEnd r true tag).map dataBits) =
      residualBits r.acc r.n.toNat ++ List.replicate ((7 - r.n.toNat) % 7) false := by
  rcases Nat.eq_zero_or_pos r.n.toNat with h | h
  · simp [unpackEnd, h]
  · have hj := msbBits_leftJustified r.n.toNat (7 - r.n.toNat) r.acc.toNat
    rw [Nat.add_sub_cancel' (by omega)] at hj
    rw [residualBits_eq _ hn, Nat.mod_eq_of_lt (by omega), ← hj]
    simp [unpackEnd, h, Nat.shiftLeft_eq]

/-- Every value an unpacker gives carries the tag in bit 7 (40_bitpack.md R108). -/
theorem unpackStep_tag (r : Unpacker) (b : Byte) (tag : Bool) : ∀ u ∈ (unpackStep r b tag).2, u.getLsbD 7 = tag := by
  simp only [unpackStep]
  split <;> simp

theorem unpackEnd_tag (r : Unpacker) (f tag : Bool) : ∀ u ∈ unpackEnd r f tag, u.getLsbD 7 = tag := by
  unfold unpackEnd
  split <;> simp

/-- Where the loop of `unpack8to7` leads: to an unpacker's residual bits, the stream kept and every value tagged
(40_bitpack.md R101). -/
theorem unpackLoop_bitStream {r : Unpacker} (h : r.n.toNat ≤ 6) (tag : Bool) (bs : List Byte) :
    ∃ r' : Unpacker, r'.n.toNat ≤ 6 ∧ (unpackLoop tag r.acc.toNat r.n.toNat bs).1 = (r'.acc.toNat, r'.n.toNat) ∧
      bitStream ((unpackLoop tag r.acc.toNat r.n.toNat bs).2.map dataBits) ++ residualBits r'.acc r'.n.toNat =
        residualBits r.acc r.n.toNat ++ bitStream bs ∧
      ∀ u ∈ (unpackLoop tag r.acc.toNat r.n.toNat bs).2, u.getLsbD 7 = tag := by
  induction bs generalizing r with
  | nil => exact ⟨r, h, rfl, by simp [unpackLoop], by simp [unpackLoop]⟩
  | cons b bs ih =>
    obtain ⟨r', hn, hr', hbits, htag⟩ := ih (unpackStep_wf r b tag h).1
    rw [unpackLoop_cons h]
    refine ⟨r', hn, hr', ?_, fun u hu => (List.mem_append.1 hu).elim (unpackStep_tag r b tag u) (htag u)⟩
    calc bitStream (((unpackStep r b tag).2 ++ _).map dataBits) ++ residualBits r'.acc r'.n.toNat
      _ = bitStream ((unpackStep r b tag).2.map dataBits) ++
            (residualBits (unpackStep r b tag).1.acc (unpackStep r b tag).1.n.toNat ++ bitStream bs) := by
        rw [List.map_append, bitStream_append, List.append_assoc, hbits]
      _ = residualBits r.acc r.n.toNat ++ bitStream (b :: bs) := by
        rw [← List.append_assoc, unpackStep_bitStream b tag h, List.append_assoc, bitStream_cons]

/-- `unpack8to7` is its loop and the flush of the unpacker the loop ends in (40_bitpack.md R101, R112). -/
theorem unpack8to7_bitStream (bs : List Byte) (tag : Bool) :
    ∃ (out : List Byte) (r : Unpacker), r.n.toNat ≤ 6 ∧ (∀ f, unpack8to7 bs f tag = out ++ unpackEnd r f tag) ∧
      bitStream (out.map dataBits) ++ residualBits r.acc r.n.toNat = bitStream bs ∧
      ∀ u ∈ out, u.getLsbD 7 = tag := by
  obtain ⟨r, hn, hr, hbits, htag⟩ := unpackLoop_bitStream (r := Unpacker.clear) (by decide) tag bs
  refine ⟨_, r, hn, fun f => ?_, hbits.trans (by simp [Unpacker.clear]), htag⟩
  have hr : (unpackLoop tag 0 0 bs).1 = (r.acc.toNat, r.n.toNat) := hr
  simp only [unpack8to7, unpackEnd, hr, taggedValue_eq]
  split <;> simp [Unpacker.clear]

/-- Settles O30: fewer than 7 bits are left after the loop's values, and the flush pads those with zeros. -/
theorem unpackIsMsbFirst : Obligations.UnpackIsMsbFirst := by
  intro bs tag
  obtain ⟨out, r, hn, hout, hbits, htag⟩ := unpack8to7_bitStream bs tag
  have hres := residualBits_length r.acc hn
  obtain ⟨htake, hmod⟩ := bitStream_eq_take hbits (by omega)
  rw [bitStream_length] at htake hmod
  refine ⟨?_, ?_, fun f u hu => ?_⟩
  · simpa [hout, unpackEnd] using htake
  · rw [hout, List.map_append, bitStream_append, unpackEnd_bitStream tag hn, ← List.append_assoc, hbits, ← hmod, hres]
  · rw [hout] at hu
    exact (List.mem_append.1 hu).elim (htag u) (unpackEnd_tag r f tag u)

/-- Settles O28: an accepted push appends what `packStep` or `unpackStep` emits, and these keep the stream. -/
theorem pushKeepsBitStream : Obligations.PushKeepsBitStream := by
  refine ⟨fun v s t _ hh he => ?_, fun b s t hwf hh he => ?_⟩
  · obtain rfl : effect (.pkPush v) s.release = t := by simpa [exec_accepted hh] using he
    exact ⟨(packStep s.pk v).2, rfl, packStep_bitStream s.pk v⟩
  · obtain rfl : effect (.upPush b) s.release = t := by simpa [exec_accepted hh] using he
    exact ⟨(unpackStep s.up b s.tag).2, rfl, unpackStep_bitStream b s.tag hwf.1⟩

/-! ### The step and the host -/

/-- The port carries the encoder's words unchanged (20_memory.md R55). -/
theorem wordOfBits_toNat (w : Word) : wordOfBits 16 w.toNat = w := by
  simp [wordOfBits, Nat.mod_eq_of_lt w.isLt]

/-- A command on the port that is not held runs. -/
theorem step_runs {s : State} {w : Word} {i : Instr} (hp : s.port = some w) (hd : decode w = .command i)
    (hh : held i s = false) : step s = exec i s := by simp [step, hp, hd, hh]

/-- Settles O7: a command runs unless it is held, and what is held or absent leaves the step to the host. -/
theorem stepRunsDecoded : Obligations.StepRunsDecoded := by
  refine ⟨fun s w i hp hd => ⟨step_runs hp hd, fun hh => step_awaits (.inr ⟨w, i, hp, hd, hh⟩)⟩,
    fun s hp => step_awaits (.inl hp), fun s i hh => step_runs rfl ?_ ?_⟩
  · rw [wordOfBits_toNat, decode_encode]
  · rw [← hh]
    exact held_congr i rfl rfl rfl rfl rfl rfl rfl rfl rfl rfl rfl

theorem hostTurn_read {s : State} {a : BitVec 3} {rest : List HostEvent} (he : s.hostEvents = .read a :: rest) :
    hostTurn s = State.answerRead a { s with hostEvents := rest } := by simp [hostTurn, he]

theorem hostTurn_remove {s : State} {f : FifoId} {rest : List HostEvent} (he : s.hostEvents = .remove f :: rest) :
    hostTurn s = State.removeHead f { s with hostEvents := rest } := by simp [hostTurn, he]

/-- Settles O12: the host's turn is the answer, and a register does not depend on the host's list. -/
theorem hostRead : Obligations.HostRead := by
  intro s a rest ha he
  rw [step_awaits ha, hostTurn_read he]
  rfl

/-- The head of a FIFO goes from its entries to those taken. -/
theorem remove_cons {α : Type} {q : Fifo α} {x : α} {xs : List α} (h : q.entries = x :: xs) :
    q.remove = ⟨q.taken ++ [x], xs⟩ := by simp [Fifo.remove, h]

/-- A removal from any FIFO, empty or not, changes no emitted sequence (70_reset_and_hazards.md R247). -/
theorem removeHead_emitted (f : FifoId) (s : State) :
    (s.removeHead f).pko.emitted = s.pko.emitted ∧ (s.removeHead f).upo.emitted = s.upo.emitted ∧
      (s.removeHead f).fro.emitted = s.fro.emitted ∧ (s.removeHead f).fto.emitted = s.fto.emitted := by
  cases f <;> simp [State.removeHead]

/-- Settles O13: the host's turn removes the head of the FIFO it names. -/
theorem hostRemove : Obligations.HostRemove := by
  intro s rest ha
  have hstep (f : FifoId) (he : s.hostEvents = .remove f :: rest) :
      step s = .next (State.removeHead f { s with hostEvents := rest }) := by rw [step_awaits ha, hostTurn_remove he]
  refine ⟨?_, ?_, ?_, ?_, fun f t he ht => ?_⟩
  case refine_5 =>
    obtain rfl : State.removeHead f { s with hostEvents := rest } = t := by simpa [hstep f he] using ht
    exact removeHead_emitted f _
  all_goals
    intro x xs hx he
    simp only [hstep _ he, State.removeHead, remove_cons hx]

end Sys2Proof.Machine

namespace Sys2Proof.Machine

/-!
PROOFS. The encoding (30_encoding.md): decoding and encoding are inverse, the opcode map of R73 and the decoder say the
same, the illegal words of R75 to R78, and the words an assembly line stands for (R80, R81).
-/

/-! ### Decoding and encoding -/

/-- Settles O2: an instruction's `DATA` passes its form's must-be-0 test and gives the operand back (`withData_data`). -/
theorem decodeEncode : Obligations.DecodeEncode := decode_encode

/-- Settles O3: where the must-be-0 bits are 0, the operand's `DATA` is the word's (`data_withData`). -/
theorem encodeDecode : Obligations.EncodeDecode := by
  intro w i h
  obtain ⟨op, hu, hf, hz, rfl⟩ := (decode_eq_command_iff w i).1 h
  exact (encode_eq_iff _ w).2 ⟨by simpa using hu, by simpa using hf, (data_withData op _ hz).symm⟩

/-- Settles O1: each word is a closed case of the decoder. -/
theorem decodeExamples : Obligations.DecodeExamples := by
  unfold Obligations.DecodeExamples
  decide

/-! ### The opcode map -/

/-- A row's match is its operation's `UNIT` and `FUNC` with `DATA` 0, and its mask covers both fields and the form's
must-be-0 bits (30_encoding.md R72, R73). -/
theorem opcodeMap_bits_mask : ∀ r ∈ opcodeMap,
    r.bits = r.op.unit ++ r.op.func ++ (0 : Byte) ∧ r.mask = 0xF#4 ++ 0xF#4 ++ r.op.form.mustBeZero := by decide

theorem opcodeMap_op_injective : ∀ r₁ ∈ opcodeMap, ∀ r₂ ∈ opcodeMap, r₁.op = r₂.op → r₁ = r₂ := by decide

theorem exists_mem_opcodeMap_op (op : Op) : ∃ r ∈ opcodeMap, r.op = op := by cases op <;> decide

/-- Two words given by their fields are equal exactly when the fields are. -/
theorem fields_inj {u u' f f' : BitVec 4} {d d' : Byte} :
    (u ++ f ++ d : Word) = u' ++ f' ++ d' ↔ u = u' ∧ f = f' ∧ d = d' := by
  constructor
  · intro h
    exact ⟨by simpa only [unitField_append] using congrArg unitField h,
      by simpa only [funcField_append] using congrArg funcField h,
      by simpa only [dataField_append] using congrArg dataField h⟩
  · rintro ⟨rfl, rfl, rfl⟩
    rfl

/-- A row selects a word exactly when the word's `UNIT` and `FUNC` are its operation's and the must-be-0 bits are 0. -/
theorem selects_iff {r : OpcodeRow} (hr : r ∈ opcodeMap) (w : Word) :
    r.selects w = true ↔
      unitField w = r.op.unit ∧ funcField w = r.op.func ∧ dataField w &&& r.op.form.mustBeZero = 0 := by
  obtain ⟨hb, hm⟩ := opcodeMap_bits_mask r hr
  have hand : w &&& r.mask = unitField w ++ funcField w ++ (dataField w &&& r.op.form.mustBeZero) := by
    rw [hm]
    conv_lhs => rw [word_eq_fields w]
    have hall (x : BitVec 4) : x &&& 0xF#4 = x := BitVec.and_allOnes
    refine (BitVec.and_append ..).trans ?_
    rw [BitVec.and_append, hall, hall]
  rw [OpcodeRow.selects, beq_iff_eq, hand, hb, fields_inj]

/-- `UNIT` and `FUNC` determine the operation. -/
theorem op_eq_of_unit_func {op op' : Op} (hu : op.unit = op'.unit) (hf : op.func = op'.func) : op = op' := by
  have h := (opOf_eq_some_iff op op.unit op.func).2 ⟨rfl, rfl⟩
  have h' := (opOf_eq_some_iff op' op.unit op.func).2 ⟨hu, hf⟩
  exact Option.some.inj (h.symm.trans h')

/-- At most one row selects a word (30_encoding.md R74). -/
theorem selects_unique {r₁ r₂ : OpcodeRow} {w : Word} (h₁ : r₁ ∈ opcodeMap) (h₂ : r₂ ∈ opcodeMap)
    (hs₁ : r₁.selects w = true) (hs₂ : r₂.selects w = true) : r₁ = r₂ := by
  obtain ⟨hu₁, hf₁, -⟩ := (selects_iff h₁ w).1 hs₁
  obtain ⟨hu₂, hf₂, -⟩ := (selects_iff h₂ w).1 hs₂
  exact opcodeMap_op_injective r₁ h₁ r₂ h₂ (op_eq_of_unit_func (hu₁.symm.trans hu₂) (hf₁.symm.trans hf₂))

/-- A word decodes to the command of the row that selects it, and to no other (30_encoding.md R74). -/
theorem decode_eq_command_iff_selects (w : Word) (i : Instr) :
    decode w = .command i ↔ ∃ r ∈ opcodeMap, r.selects w = true ∧ i = r.op.withData (dataField w) := by
  rw [decode_eq_command_iff]
  constructor
  · rintro ⟨op, hu, hf, hz, hi⟩
    obtain ⟨r, hr, rfl⟩ := exists_mem_opcodeMap_op op
    exact ⟨r, hr, (selects_iff hr w).2 ⟨hu, hf, hz⟩, hi⟩
  · rintro ⟨r, hr, hs, hi⟩
    obtain ⟨hu, hf, hz⟩ := (selects_iff hr w).1 hs
    exact ⟨r.op, hu, hf, hz, hi⟩

theorem exists_illegal_iff (w : Word) : (∃ e, decode w = .illegal e) ↔ ∀ i, decode w ≠ .command i := by
  cases decode w <;> simp

/-- Settles O4: the map's rows are the decoder's fields and must-be-0 test (`selects_iff`). -/
theorem decodeByMap : Obligations.DecodeByMap := by
  intro w
  refine ⟨fun r₁ h₁ r₂ h₂ => selects_unique h₁ h₂, decode_eq_command_iff_selects w, ?_⟩
  rw [exists_illegal_iff]
  constructor
  · intro h r hr
    exact Bool.eq_false_iff.2 fun hs => h _ ((decode_eq_command_iff_selects w _).2 ⟨r, hr, hs, rfl⟩)
  · intro h i hd
    obtain ⟨r, hr, hs, -⟩ := (decode_eq_command_iff_selects w i).1 hd
    exact absurd hs (by simp [h r hr])

/-! ### Illegal words -/

theorem op_unit_lt (op : Op) : op.unit.toNat < 6 := by cases op <;> decide

theorem decode_unassignedUnit {w : Word} (h : 6 ≤ (unitField w).toNat) : decode w = .illegal .unassignedUnit := by
  simp [decode, h]

theorem decode_unassignedFunc {w : Word} (hu : (unitField w).toNat < 6) (hf : opOf (unitField w) (funcField w) = none) :
    decode w = .illegal .unassignedFunc := by
  simp [decode, Nat.not_le.2 hu, hf]

theorem decode_mustBeZeroBitSet {w : Word} {op : Op} (hu : unitField w = op.unit) (hf : funcField w = op.func)
    (hz : dataField w &&& op.form.mustBeZero ≠ 0) : decode w = .illegal .mustBeZeroBitSet := by
  have hop : opOf op.unit op.func = some op := (opOf_eq_some_iff ..).2 ⟨rfl, rfl⟩
  simpa [decode, hu, hf, hop, Nat.not_le.2 (op_unit_lt op)] using hz

/-- The functions 30_encoding.md R76 leaves unassigned. -/
theorem opOf_eq_none : ∀ u f : BitVec 4,
    (u = 0 ∧ 4 ≤ f.toNat) ∨ (u = 1 ∧ 2 ≤ f.toNat) ∨ (u = 2 ∧ 4 ≤ f.toNat) ∨ (u = 3 ∧ 2 ≤ f.toNat) ∨
      (u = 4 ∧ 3 ≤ f.toNat) ∨ (u = 5 ∧ 2 ≤ f.toNat) → u.toNat < 6 ∧ opOf u f = none := by decide

theorem unitField_toNat (w : Word) : (unitField w).toNat = w.toNat / 4096 := by
  have h := w.isLt
  simp only [unitField, BitVec.extractLsb'_toNat, Nat.shiftRight_eq_div_pow]
  omega

/-- Settles O5: the three tests of the decoder, in its order. -/
theorem illegalWords : Obligations.IllegalWords := by
  refine ⟨fun w => decode_unassignedUnit, fun w => ?_, fun w h => ?_, fun w op => decode_mustBeZeroBitSet, ?_⟩
  · rw [unitField_toNat]
    omega
  · obtain ⟨hu, hf⟩ := opOf_eq_none _ _ h
    exact decode_unassignedFunc hu hf
  · decide

/-- An illegal word on the port is accepted whatever the rest of the state. -/
theorem step_illegal {s : State} {w : Word} {e : IllegalReason} (hp : s.port = some w) (hd : decode w = .illegal e) :
    step s = .next s.acceptIllegal := by simp [step, hp, hd]

/-- Settles O8: an illegal word's step is `State.acceptIllegal`. -/
theorem illegalEffect : Obligations.IllegalEffect := by
  refine ⟨fun s w e hp hd => step_illegal hp hd, fun p => ?_⟩
  have hd : decode (wordOfBits 16 0x6000) = .illegal .unassignedUnit := by decide
  refine ⟨_, step_illegal rfl hd, ?_, ?_⟩
  · rw [State.statusReg, State.acceptIllegal, setstat_status, release_status]
    exact (by decide : BitVec.setWidth 16 (0#5 ||| StatusBit.ill.mask) = 0x0008#16)
  · exact ⟨rfl, rfl, rfl, rfl, rfl, rfl, rfl, rfl, rfl, rfl, rfl, rfl, rfl⟩

/-! ### Assembly -/

/-- The word of three fields as a number: the fields shifted to their places (30_encoding.md R70). -/
theorem fields_toNat (u f : BitVec 4) (d : Byte) :
    BitVec.toNat (u ++ f ++ d : Word) = u.toNat <<< 12 ||| f.toNat <<< 8 ||| d.toNat := by
  refine (BitVec.toNat_append (u ++ f) d).trans ?_
  rw [BitVec.toNat_append, Nat.shiftLeft_or_distrib, ← Nat.shiftLeft_add]

/-- The assembler's shifts put the three fields side by side (30_encoding.md R70, R80). -/
theorem commandWord_eq_fields (op : Op) (d : Byte) : commandWord op d.toNat = op.unit ++ op.func ++ d := by
  have hshift (x : BitVec 4) {k : Nat} (hk : k ≤ 12) : (x.setWidth 16 <<< k).toNat = x.toNat <<< k := by
    rw [BitVec.toNat_shiftLeft, BitVec.toNat_setWidth_of_le (by decide), Nat.shiftLeft_eq]
    refine Nat.mod_eq_of_lt (lt_of_lt_of_le (Nat.mul_lt_mul_of_pos_right x.isLt (Nat.two_pow_pos k)) ?_)
    rw [← Nat.pow_add]
    exact Nat.pow_le_pow_right (by decide) (by omega)
  apply BitVec.eq_of_toNat_eq
  rw [fields_toNat, commandWord, BitVec.toNat_or, BitVec.toNat_or, hshift _ (le_refl 12), hshift _ (by decide),
    BitVec.toNat_ofNat, Nat.mod_eq_of_lt (d.isLt.trans (by decide))]

/-- `w = (UNIT << 12) | (FUNC << 8) | operand` is the encoder's word (30_encoding.md R80). -/
theorem commandWord_data (i : Instr) : commandWord i.op i.data.toNat = encode i := commandWord_eq_fields ..

theorem commandWord_pkPush (v : U7) : commandWord .pkPush v.toNat = encode (.pkPush v) := by
  rw [← BitVec.toNat_setWidth_of_le (by decide : 7 ≤ 8)]
  exact commandWord_data (.pkPush v)

/-- `FLUSH` and `NOFLUSH` are the operands 1 and 0 of the three commands that have them. -/
theorem commandWord_end (f : Bool) :
    commandWord .pkEnd f.toNat = encode (.pkEnd f) ∧ commandWord .upEnd f.toNat = encode (.upEnd f) ∧
      commandWord .rxEnd f.toNat = encode (.rxEnd f) := by cases f <;> decide

/-- `DATA` with its form's must-be-0 bits 0 is an operand in the range of R80, and is 0 where the form has none. -/
theorem fits_of_mustBeZero (fm : Form) (d : Byte) (h : d &&& fm.mustBeZero = 0) :
    fm.fits (if fm = .z then none else some d.toNat) = true ∧ (fm = .z → d = 0) := by
  revert d
  cases fm <;> decide

/-- A command's line assembles to its word (30_encoding.md R80). -/
theorem assemble_command (i : Instr) : assemble (.command i.op (operandOf i)) = some [encode i] := by
  obtain ⟨hfit, hz⟩ := fits_of_mustBeZero i.op.form i.data (withData_data i).1
  have hwf : AsmLine.WellFormed (.command i.op (operandOf i)) = true := hfit
  have hget : (operandOf i).getD 0 = i.data.toNat := by
    by_cases hform : i.op.form = .z <;> simp [operandOf, hform, hz]
  simp only [assemble, hwf, if_true, hget, commandWord_data]

/-- Settles O6: a line's operands are in range because they are words of their form's width, and each gives its
command's word (`commandWord_data`). -/
theorem assembles : Obligations.Assembles := by
  have hv (v : U7) : v.toNat < 128 := v.isLt
  have hb (b : Byte) : b.toNat < 256 := b.isLt
  have hup (b : Byte) : commandWord .upPush b.toNat = encode (.upPush b) := commandWord_data (.upPush b)
  have hrx (b : Byte) : commandWord .rxPush b.toNat = encode (.rxPush b) := commandWord_data (.rxPush b)
  have hstart (b : Byte) : commandWord .ftStart b.toNat = encode (.ftStart b) := commandWord_data (.ftStart b)
  have hdata (b : Byte) : commandWord .ftData b.toNat = encode (.ftData b) := commandWord_data (.ftData b)
  have hend : commandWord .ftEnd 0 = encode .ftEnd := commandWord_data .ftEnd
  have hinit : commandWord .ckInit 0 = encode (.ckInit 0) := commandWord_data (.ckInit 0)
  have hadd (b : Byte) : commandWord .ckAdd b.toNat = encode (.ckAdd b) := commandWord_data (.ckAdd b)
  refine ⟨assemble_command, fun w => ?word, fun vs f => ?pack, fun bs f => ?unpack, fun bs f => ?rxmsg,
    fun id p => ?txframe, fun bs => ?cksum, congrArg (some [·]) (commandWord_data (.sysClrstat 0x1F)),
    fun l hl => by simp [assemble, hl]⟩
  case word => simp [assemble, AsmLine.WellFormed, w.isLt]
  case pack =>
    obtain ⟨hpk, -, -⟩ := commandWord_end f
    simp [assemble, AsmLine.WellFormed, hv, commandWord_pkPush, hpk]
  case unpack =>
    obtain ⟨-, hupEnd, -⟩ := commandWord_end f
    simp [assemble, AsmLine.WellFormed, hb, hup, hupEnd]
  case rxmsg =>
    obtain ⟨-, -, hrxEnd⟩ := commandWord_end f
    simp [assemble, AsmLine.WellFormed, hb, hrx, hrxEnd]
  case txframe => simp [assemble, AsmLine.WellFormed, hb, hstart, hdata, hend]
  case cksum => simp [assemble, AsmLine.WellFormed, hb, hinit, hadd]

end Sys2Proof.Machine

namespace Sys2Proof.Machine

/-!
PROOFS. Bit packing (40_bitpack.md). A unit's part in a sequence of commands is its own step folded over them
(`regroup`): what the packer and the unpackers keep and emit is that fold, and so is each whole-sequence function of
R100 and R101. Counts and round trips then follow from the bit streams.
-/

/-! ### A step folded over its inputs -/

/-- The state after the inputs have been stepped through one after another, and all that the steps give, in order. -/
def regroup {σ ι β : Type} (step : σ → ι → σ × List β) (r : σ) : List ι → σ × List β
  | [] => (r, [])
  | i :: is =>
    let o := regroup step (step r i).1 is
    (o.1, (step r i).2 ++ o.2)

section Regroup
variable {σ ι β : Type} (step : σ → ι → σ × List β) (r : σ)

@[simp] theorem regroup_nil : regroup step r [] = (r, []) := rfl

theorem regroup_cons (i : ι) (is : List ι) :
    regroup step r (i :: is) =
      ((regroup step (step r i).1 is).1, (step r i).2 ++ (regroup step (step r i).1 is).2) := rfl

theorem regroup_append (is js : List ι) :
    regroup step r (is ++ js) =
      ((regroup step (regroup step r is).1 js).1,
       (regroup step r is).2 ++ (regroup step (regroup step r is).1 js).2) := by
  induction is generalizing r with
  | nil => simp
  | cons i is ih => simp [regroup_cons, ih]

theorem regroup_map {κ : Type} (f : κ → ι) (ks : List κ) :
    regroup step r (ks.map f) = regroup (fun r k => step r (f k)) r ks := by
  induction ks generalizing r with
  | nil => rfl
  | cons k ks ih => simp [regroup_cons, ih]

/-- Inputs that change nothing and give nothing can be left out, where that holds along the way. -/
theorem regroup_filter {p : ι → Bool} {good : σ → Prop} {is : List ι} {r : σ} (hr : good r)
    (hgood : ∀ i ∈ is, ∀ r, good r → good (step r i).1)
    (hskip : ∀ i ∈ is, ∀ r, good r → p i = false → step r i = (r, [])) :
    regroup step r (is.filter p) = regroup step r is := by
  induction is generalizing r with
  | nil => rfl
  | cons i is ih =>
    have hrest := fun {r} (hr : good r) => ih hr (fun j hj => hgood j (by simp [hj])) (fun j hj => hskip j (by simp [hj]))
    cases hp : p i
    · simp [hp, regroup_cons, hskip i (by simp) r hr hp, hrest hr]
    · simp [hp, regroup_cons, hrest (hgood i (by simp) r hr)]

end Regroup

/-! ### The whole-sequence functions as folds -/

/-- The loop of `pack7to8` is `packStep` folded over the values (40_bitpack.md R100, R102). -/
theorem packLoop_eq_regroup {r : Packer} (h : r.Wf) (vs : List U7) :
    packLoop r.acc.toNat r.n.toNat vs =
      (((regroup packStep r vs).1.acc.toNat, (regroup packStep r vs).1.n.toNat), (regroup packStep r vs).2) := by
  induction vs generalizing r with
  | nil => rfl
  | cons v vs ih => simp only [packLoop_cons h, regroup_cons, ih (packStep_wf r v)]

/-- `pack7to8` is the fold over its values and the flush, from any packer without residual bits (40_bitpack.md R100). -/
theorem pack7to8_eq_regroup {r : Packer} (h : r.n = 0) (vs : List U7) (f : Bool) :
    pack7to8 vs f = (regroup packStep r vs).2 ++ packEnd (regroup packStep r vs).1 f := by
  have hclear : pack7to8 vs f =
      (regroup packStep Packer.clear vs).2 ++ packEnd (regroup packStep Packer.clear vs).1 f := by
    have hloop := packLoop_eq_regroup packer_clear_wf vs
    rw [show Packer.clear.acc.toNat = 0 from rfl, show Packer.clear.n.toNat = 0 from rfl] at hloop
    have hmask (x : Nat) : BitVec.ofNat 8 (x &&& 255) = BitVec.ofNat 8 x := by
      rw [show 255 = 2 ^ 8 - 1 from rfl, and_mask, ofNat_mod_two_pow le_rfl]
    simp only [pack7to8, packEnd, hloop, hmask]
    split <;> simp
  rw [hclear]
  cases vs with
  | nil => simp [packEnd, h, Packer.clear]
  | cons v vs => rw [regroup_cons, regroup_cons, packStep_empty v h, packStep_empty v rfl]

/-- The bytes of an unpacking call stepped through one after another, every value tagged alike. -/
abbrev unpackAll (tag : Bool) (r : Unpacker) (bs : List Byte) : Unpacker × List Byte :=
  regroup (fun r b => unpackStep r b tag) r bs

/-- The loop of `unpack8to7` is `unpackStep` folded over the bytes (40_bitpack.md R101, R112). -/
theorem unpackLoop_eq_unpackAll {r : Unpacker} (h : r.n.toNat ≤ 6) (tag : Bool) (bs : List Byte) :
    unpackLoop tag r.acc.toNat r.n.toNat bs =
      (((unpackAll tag r bs).1.acc.toNat, (unpackAll tag r bs).1.n.toNat), (unpackAll tag r bs).2) := by
  induction bs generalizing r with
  | nil => rfl
  | cons b bs ih => simp only [unpackLoop_cons h, unpackAll, regroup_cons, ih (unpackStep_wf r b tag h).1]

/-- Without residual bits nothing of the accumulator is seen (10_state.md R26). -/
theorem unpackStep_empty {r : Unpacker} (h : r.n = 0) (b : Byte) (tag : Bool) :
    unpackStep r b tag = unpackStep Unpacker.clear b tag := by
  have hb := b.isLt
  rw [unpackStep_one b tag (by simp [h]), unpackStep_one b tag (by decide)]
  simp only [h, Unpacker.clear, tagged_eq, BitVec.toNat_ofNat, BitVec.ofNat_eq_ofNat, Nat.zero_mod, Nat.zero_mul,
    Nat.zero_add, Nat.pow_one]
  have hlow : (r.acc.toNat * 256 + b.toNat) % 2 = b.toNat % 2 := by omega
  have hhigh : (r.acc.toNat * 256 + b.toNat) / 2 % 128 = b.toNat / 2 % 128 := by omega
  rw [hlow, hhigh]

/-- `unpack8to7` is the fold over its bytes and the flush, from any unpacker without residual bits (40_bitpack.md
R101). -/
theorem unpack8to7_eq_unpackAll {r : Unpacker} (h : r.n = 0) (bs : List Byte) (f tag : Bool) :
    unpack8to7 bs f tag = (unpackAll tag r bs).2 ++ unpackEnd (unpackAll tag r bs).1 f tag := by
  have hclear : unpack8to7 bs f tag =
      (unpackAll tag Unpacker.clear bs).2 ++ unpackEnd (unpackAll tag Unpacker.clear bs).1 f tag := by
    have hloop := unpackLoop_eq_unpackAll (r := Unpacker.clear) (by decide) tag bs
    rw [show Unpacker.clear.acc.toNat = 0 from rfl, show Unpacker.clear.n.toNat = 0 from rfl] at hloop
    simp only [unpack8to7, unpackEnd, hloop, taggedValue_eq]
    split <;> simp
  rw [hclear]
  cases bs with
  | nil => simp [unpackEnd, h, Unpacker.clear]
  | cons b bs => simp only [unpackAll, regroup_cons, unpackStep_empty h]

/-! ### A unit that emits to a FIFO of its own -/

/-- A unit with a FIFO of its own: where its state and its FIFO are, and what each command does to both. Of its own
commands each is held exactly when it would emit more than there is room for (70_reset_and_hazards.md R240). -/
structure EmittingUnit (σ : Type) where
  state : State → σ
  fifo  : State → Fifo Byte
  depth : Params → Nat
  own   : Instr → Bool
  step  : σ → Instr → σ × List Byte
  state_effect : ∀ i s, state (effect i s.release) = (step (state s) i).1
  fifo_effect  : ∀ i s, fifo (effect i s.release) = (fifo s).append (step (state s) i).2
  held_own     : ∀ i s, own i = true →
    (held i s = false ↔ (step (state s) i).2.length ≤ (fifo s).free (depth s.params))

section EmittingUnit
variable {σ : Type} (U : EmittingUnit σ)

/-- Accepted commands do to the unit and its FIFO what its step folded over them says. -/
theorem acceptAll_regroup {cs : List Instr} {s t : State} (h : acceptAll cs s = some t) :
    U.state t = (regroup U.step (U.state s) cs).1 ∧
      U.fifo t = (U.fifo s).append (regroup U.step (U.state s) cs).2 := by
  induction cs generalizing s with
  | nil =>
    obtain rfl : s = t := by simpa using h
    simp
  | cons i cs ih =>
    obtain ⟨-, hrest⟩ := acceptAll_cons_eq_some.1 h
    obtain ⟨hstate, hfifo⟩ := ih hrest
    rw [U.state_effect] at hstate hfifo
    rw [regroup_cons, hfifo, U.fifo_effect]
    exact ⟨hstate, by simp [Fifo.append]⟩

/-- The unit's own commands are accepted whole where there is room for all they emit. -/
theorem acceptAll_of_room {cs : List Instr} {s : State} (hown : ∀ i ∈ cs, U.own i = true)
    (hroom : (regroup U.step (U.state s) cs).2.length ≤ (U.fifo s).free (U.depth s.params)) :
    ∃ t, acceptAll cs s = some t := by
  induction cs generalizing s with
  | nil => exact ⟨s, rfl⟩
  | cons i cs ih =>
    rw [regroup_cons, List.length_append] at hroom
    have hh : held i s = false := (U.held_own i s (hown i (by simp))).2 (by omega)
    obtain ⟨hp, -⟩ := effect_host_side i s.release
    obtain ⟨t, ht⟩ := ih (s := effect i s.release) (fun j hj => hown j (by simp [hj])) (by
      rw [U.state_effect, U.fifo_effect, hp]
      simp only [Fifo.free, append_entries, List.length_append, release_params] at hroom ⊢
      omega)
    exact ⟨t, acceptAll_cons_eq_some.2 ⟨hh, ht⟩⟩

end EmittingUnit

/-- Only commands of `PK` write to `PKO`, and only those of `UP` to `UPO` (10_state.md R32). -/
theorem effect_fifos_frame (i : Instr) (s : State) :
    (i.isPk = false → (effect i s).pko = s.pko) ∧ (i.isUp = false → (effect i s).upo = s.upo) := by
  obtain ⟨hpko, hupo, -, -⟩ := effect_growsBy_demand i s
  obtain ⟨dpko, dupo, -, -⟩ := demand_of_not_writes i s
  obtain ⟨-, -, kpko⟩ := growsBy_frame hpko dpko
  obtain ⟨-, -, kupo⟩ := growsBy_frame hupo dupo
  exact ⟨fun hi => kpko.resolve_right (by simp [Instr.writes, hi]),
    fun hi => kupo.resolve_right (by simp [Instr.writes, hi])⟩

/-- What each command does to the packer's residual bits, and the bytes it emits (40_bitpack.md R102, R103). -/
def packerStep (r : Packer) : Instr → Packer × List Byte
  | .pkPush v => packStep r v
  | .pkEnd f => (Packer.clear, packEnd r f)
  | .sysSreset => (Packer.clear, [])
  | _ => (r, [])

/-- The packer with `PKO`. -/
def packerUnit : EmittingUnit Packer where
  state := State.pk
  fifo := State.pko
  depth := Params.pkoDepth
  own := Instr.isPk
  step := packerStep
  state_effect i s := by
    obtain ⟨-, -, hpk, -⟩ := effect_units_frame i s.release
    cases i with
    | pkPush | pkEnd | sysSreset => rfl
    | _ => exact hpk.resolve_right (by simp [Instr.op, Instr.isPk])
  fifo_effect i s := by
    obtain ⟨hpko, -⟩ := effect_fifos_frame i s.release
    cases i with
    | pkPush | pkEnd => rfl
    | _ => exact (hpko rfl).trans (append_nil _).symm
  held_own i s h := by
    cases i with
    | pkPush v => rw [held_pkPush, packerStep, packStep_length]
    | pkEnd f => rw [held_pkEnd, packerStep, packEnd_length]
    | _ => simp [Instr.isPk] at h

/-- What each command does to `UP` and to the tag, and the values it emits (40_bitpack.md R105, R106, R108). -/
def unpackerStep (r : Unpacker × Bool) : Instr → (Unpacker × Bool) × List Byte
  | .upPush b => (((unpackStep r.1 b r.2).1, r.2), (unpackStep r.1 b r.2).2)
  | .upEnd f => ((Unpacker.clear, r.2), unpackEnd r.1 f r.2)
  | .sysWrctrl c => ((r.1, c.getLsbD 0), [])
  | .sysSreset => ((Unpacker.clear, false), [])
  | _ => (r, [])

/-- Bit 0 of the operand is the new `TAG` (44_system.md R191). -/
theorem newTag_getLsbD (c : BitVec 2) : (newTxform c ++ newTag c).getLsbD 0 = c.getLsbD 0 := by
  revert c; decide

/-- `UP` and `CTRL.TAG`, with `UPO`. -/
def unpackerUnit : EmittingUnit (Unpacker × Bool) where
  state s := (s.up, s.tag)
  fifo := State.upo
  depth := Params.upoDepth
  own := Instr.isUp
  step := unpackerStep
  state_effect i s := by
    obtain ⟨hctrl, -, -, hup, -⟩ := effect_units_frame i s.release
    cases i with
    | upPush | upEnd => rfl
    | sysSreset => exact congrArg (Prod.mk Unpacker.clear) (by decide : (0 : BitVec 2).getLsbD 0 = false)
    | sysWrctrl c => exact congrArg (Prod.mk s.up) (newTag_getLsbD c)
    | _ =>
      have hctrl := hctrl.resolve_right (by simp [Instr.op])
      have hup := hup.resolve_right (by simp [Instr.op, Instr.isUp])
      simp [State.tag, hctrl, hup, unpackerStep]
  fifo_effect i s := by
    obtain ⟨-, hupo⟩ := effect_fifos_frame i s.release
    cases i with
    | upPush | upEnd => rfl
    | _ => exact (hupo rfl).trans (append_nil _).symm
  held_own i s h := by
    cases i with
    | upPush b => rw [held_upPush, unpackerStep, unpackStep_length]
    | upEnd f => rw [held_upEnd, unpackerStep, unpackEnd_length]
    | _ => simp [Instr.isUp] at h

/-! ### Calls of the packer and of `UP` -/

/-- A packing call gives the bytes of `pack7to8` and leaves no residual bits (40_bitpack.md R104). -/
theorem regroup_packCommands {r : Packer} (h : r.n = 0) (vs : List U7) (f : Bool) :
    regroup packerStep r (packCommands vs f) = (Packer.clear, pack7to8 vs f) := by
  rw [packCommands, regroup_append, regroup_map, pack7to8_eq_regroup h]
  simp [regroup_cons, packerStep]

/-- Settles O31: commands of other units are skipped, and room for all bytes is room for each. -/
theorem packEquivalence : Obligations.PackEquivalence := by
  refine ⟨fun cs vs f s t hn hcs hreset h => ?_, fun vs f s hn hroom => ?_⟩
  · obtain ⟨hpk, hpko⟩ := acceptAll_regroup packerUnit h
    have hskip : regroup packerStep s.pk (cs.filter Instr.isPk) = regroup packerStep s.pk cs := by
      refine regroup_filter packerStep (good := fun _ => True) trivial (fun _ _ _ _ => trivial) fun i hi r _ hown => ?_
      cases i with
      | pkPush | pkEnd => simp [Instr.isPk] at hown
      | sysSreset => exact absurd hi hreset
      | _ => rfl
    have hall : regroup packerStep s.pk cs = (Packer.clear, pack7to8 vs f) := by
      rw [← hskip, hcs, regroup_packCommands hn]
    have hpk : t.pk = Packer.clear := hpk.trans (congrArg Prod.fst hall)
    have hpko : t.pko = s.pko.append (pack7to8 vs f) := hpko.trans (congrArg _ (congrArg Prod.snd hall))
    simp [hpk, hpko, Packer.clear]
  · refine acceptAll_of_room packerUnit (fun i hi => ?_) ?_
    · simp only [packCommands, List.mem_append, List.mem_map, List.mem_singleton] at hi
      rcases hi with ⟨v, -, rfl⟩ | rfl <;> rfl
    · exact (congrArg (List.length ∘ Prod.snd) (regroup_packCommands hn vs f)).trans_le hroom

/-- Pushes into `UP` keep the tag and give every value with it (40_bitpack.md R108). -/
theorem regroup_upPush (r : Unpacker) (tag : Bool) (bs : List Byte) :
    regroup unpackerStep (r, tag) (bs.map .upPush) = (((unpackAll tag r bs).1, tag), (unpackAll tag r bs).2) := by
  induction bs generalizing r with
  | nil => rfl
  | cons b bs ih => simp only [List.map_cons, unpackAll, regroup_cons, unpackerStep, ih]

/-- An unpacking call gives the values of `unpack8to7` and leaves no residual bits (40_bitpack.md R107). -/
theorem regroup_unpackCommands {r : Unpacker} (h : r.n = 0) (tag : Bool) (bs : List Byte) (f : Bool) :
    regroup unpackerStep (r, tag) (unpackCommands bs f) = ((Unpacker.clear, tag), unpack8to7 bs f tag) := by
  rw [unpackCommands, regroup_append, regroup_upPush, unpack8to7_eq_unpackAll h]
  simp [regroup_cons, unpackerStep]

/-- An unpacking call with room for its values is accepted whole (40_bitpack.md R107). -/
theorem acceptAll_unpackCommands {bs : List Byte} {f : Bool} {s : State} (hn : s.up.n = 0)
    (hroom : (unpack8to7 bs f s.tag).length ≤ s.upo.free s.params.upoDepth) :
    ∃ t, acceptAll (unpackCommands bs f) s = some t := by
  refine acceptAll_of_room unpackerUnit (fun i hi => ?_) ?_
  · simp only [unpackCommands, List.mem_append, List.mem_map, List.mem_singleton] at hi
    rcases hi with ⟨b, -, rfl⟩ | rfl <;> rfl
  · exact (congrArg (List.length ∘ Prod.snd) (regroup_unpackCommands hn s.tag bs f)).trans_le hroom

/-- Settles O37: the commands between those of `UP` keep `CTRL.TAG` and are skipped. -/
theorem unpackEquivalence : Obligations.UnpackEquivalence := by
  refine ⟨fun cs bs f s t hn hcs hreset htag h => ?_, fun bs f s => acceptAll_unpackCommands⟩
  obtain ⟨hup, hupo⟩ := acceptAll_regroup unpackerUnit h
  have hskip : regroup unpackerStep (s.up, s.tag) (cs.filter Instr.isUp) = regroup unpackerStep (s.up, s.tag) cs := by
    refine regroup_filter unpackerStep (good := fun r => r.2 = s.tag) rfl (fun i hi r hr => ?_) fun i hi r hr hown => ?_
    · cases i with
      | sysWrctrl c => exact htag c hi
      | sysSreset => exact absurd hi hreset
      | _ => exact hr
    · cases i with
      | upPush | upEnd => simp [Instr.isUp] at hown
      | sysWrctrl c => exact congrArg (fun tag => ((r.1, tag), [])) ((htag c hi).trans hr.symm)
      | sysSreset => exact absurd hi hreset
      | _ => rfl
  have hall : regroup unpackerStep (s.up, s.tag) cs = ((Unpacker.clear, s.tag), unpack8to7 bs f s.tag) := by
    rw [← hskip, hcs, regroup_unpackCommands hn]
  have hup : t.up = Unpacker.clear := congrArg Prod.fst (hup.trans (congrArg Prod.fst hall))
  have hupo : t.upo = s.upo.append (unpack8to7 bs f s.tag) := hupo.trans (congrArg _ (congrArg Prod.snd hall))
  simp [hup, hupo, Unpacker.clear]

/-! ### The tag -/

/-- The tag changes neither the residual bits a byte leaves nor the data bits it gives (40_bitpack.md R108). -/
theorem unpackStep_tag_irrelevant (r : Unpacker) (b : Byte) (tag tag' : Bool) :
    (unpackStep r b tag).1 = (unpackStep r b tag').1 ∧
      (unpackStep r b tag).2.map dataBits = (unpackStep r b tag').2.map dataBits := by
  simp only [unpackStep]
  split <;> simp

theorem unpackEnd_tag_irrelevant (r : Unpacker) (f tag tag' : Bool) :
    (unpackEnd r f tag).map dataBits = (unpackEnd r f tag').map dataBits := by
  simp only [unpackEnd]
  split <;> simp

/-- Settles O38: neither holding nor the residual bits depend on `CTRL`, and each value carries the tag in bit 7. -/
theorem tagIsAppliedAtEmission : Obligations.TagIsAppliedAtEmission := by
  intro i s t c hi hh h
  have hacc := exec_accepted hh
  obtain rfl : effect i s.release = t := by simpa [hacc] using h
  cases i with
  | upPush b =>
    obtain ⟨hr, hd⟩ := unpackStep_tag_irrelevant s.up b (c.getLsbD 0) s.tag
    exact ⟨_, _, _, exec_accepted hh, hr, rfl, rfl, hd, unpackStep_tag s.up b s.tag, unpackStep_tag s.up b (c.getLsbD 0)⟩
  | upEnd f =>
    have hd := unpackEnd_tag_irrelevant s.up f (c.getLsbD 0) s.tag
    exact ⟨_, _, _, exec_accepted hh, rfl, rfl, rfl, hd, unpackEnd_tag s.up f s.tag, unpackEnd_tag s.up f (c.getLsbD 0)⟩
  | _ => simp [Instr.isUp] at hi

/-! ### Counts -/

/-- Bits out and left are the bits before and 7 more a value (40_bitpack.md R113). -/
theorem regroup_packStep_count (r : Packer) (vs : List U7) :
    8 * (regroup packStep r vs).2.length + (regroup packStep r vs).1.n.toNat = r.n.toNat + 7 * vs.length := by
  induction vs generalizing r with
  | nil => simp
  | cons v vs ih =>
    have hres (r : Packer) : (residualBits r.acc r.n.toNat).length = r.n.toNat :=
      residualBits_length r.acc (by have := r.n.isLt; omega)
    have hstep := congrArg List.length (packStep_bitStream r v)
    simp only [List.length_append, bitStream_length, msbBits_length, hres] at hstep
    have hrest := ih (packStep r v).1
    simp only [regroup_cons, List.length_append, List.length_cons]
    omega

/-- Bits out and left are the bits before and 8 more a byte, fewer than 7 being left (40_bitpack.md R113). -/
theorem unpackAll_count {r : Unpacker} (h : r.n.toNat ≤ 6) (tag : Bool) (bs : List Byte) :
    7 * (unpackAll tag r bs).2.length + (unpackAll tag r bs).1.n.toNat = r.n.toNat + 8 * bs.length ∧
      (unpackAll tag r bs).1.n.toNat ≤ 6 := by
  induction bs generalizing r with
  | nil => simpa using h
  | cons b bs ih =>
    have hn := (unpackStep_wf r b tag h).1
    have hstep := congrArg List.length (unpackStep_bitStream b tag h)
    simp only [List.length_append, bitStream_length, msbBits_length, List.length_map, residualBits_length _ hn,
      residualBits_length _ h] at hstep
    obtain ⟨hrest, hle⟩ := ih hn
    refine ⟨?_, hle⟩
    simp only [unpackAll, regroup_cons, List.length_append, List.length_cons] at hrest ⊢
    omega

theorem pack7to8_length (vs : List U7) :
    (pack7to8 vs false).length = 7 * vs.length / 8 ∧ (pack7to8 vs true).length = (7 * vs.length + 7) / 8 := by
  have hcount := regroup_packStep_count Packer.clear vs
  have hlt := (regroup packStep Packer.clear vs).1.n.isLt
  have hclear : Packer.clear.n.toNat = 0 := rfl
  simp only [pack7to8_eq_regroup (r := Packer.clear) rfl, List.length_append, packEnd_length]
  constructor
  · simp; omega
  · simp; split <;> omega

theorem unpack8to7_length (bs : List Byte) (tag : Bool) :
    (unpack8to7 bs false tag).length = 8 * bs.length / 7 ∧ (unpack8to7 bs true tag).length = (8 * bs.length + 6) / 7 := by
  obtain ⟨hcount, hle⟩ := unpackAll_count (r := Unpacker.clear) (by decide) tag bs
  have hclear : Unpacker.clear.n.toNat = 0 := rfl
  simp only [unpack8to7_eq_unpackAll (r := Unpacker.clear) rfl, List.length_append, unpackEnd_length]
  constructor
  · simp; omega
  · simp; split <;> omega

/-! ### Round trips -/

theorem msbBits_injective {w : Nat} {g h : BitVec w} (e : msbBits g = msbBits h) : g = h := by
  refine BitVec.eq_of_getMsbD_eq fun i hi => ?_
  simpa [msbBits, hi] using congrArg (·[i]?) e

theorem bitStream_injective {w : Nat} (hw : 0 < w) {gs hs : List (BitVec w)} (e : bitStream gs = bitStream hs) :
    gs = hs := by
  have hlen : gs.length = hs.length := by simpa [hw.ne'] using congrArg List.length e
  induction gs generalizing hs with
  | nil => exact (List.length_eq_zero_iff.1 hlen.symm).symm
  | cons g gs ih =>
    obtain _ | ⟨h, hs⟩ := hs
    · simp at hlen
    · obtain ⟨hg, hgs⟩ := List.append_inj e (by simp)
      rw [msbBits_injective hg, ih hgs (by simpa using hlen)]

theorem bitStream_take {w : Nat} (gs : List (BitVec w)) (k : Nat) :
    bitStream (gs.take k) = (bitStream gs).take (w * k) := by
  rcases Nat.le_total gs.length k with h | h
  · rw [List.take_of_length_le h, List.take_of_length_le (by simpa using Nat.mul_le_mul_left w h)]
  · conv_rhs => rw [← List.take_append_drop k gs, bitStream_append]
    rw [List.take_left' (by simp [h])]

/-- Values that carry one tag are their data bits under that tag (40_bitpack.md R108). -/
theorem eq_map_dataBits {us : List Byte} {tag : Bool} (htag : ∀ u ∈ us, u.getLsbD 7 = tag) :
    us = (us.map dataBits).map (BitVec.ofBool tag ++ ·) := by
  have htagged : ∀ u : Byte, BitVec.ofBool (u.getLsbD 7) ++ dataBits u = u := by decide
  rw [List.map_map]
  exact (List.map_id us).symm.trans (List.map_congr_left fun u hu => (htagged u).symm.trans (by rw [htag u hu]; rfl))

/-- The words 0x1080 to 0x10FF would push a value with bit 7 set (40_bitpack.md R102). -/
theorem decode_pkPush_bit7 {w : Word} (h₁ : 0x1080 ≤ w.toNat) (h₂ : w.toNat ≤ 0x10FF) :
    decode w = .illegal .mustBeZeroBitSet := by
  have hbit : ∀ d : Byte, 128 ≤ d.toNat → d &&& Op.pkPush.form.mustBeZero ≠ 0 := by decide
  have hu : (unitField w).toNat = 1 := by rw [unitField_toNat]; omega
  have hf : (funcField w).toNat = 0 := by
    simp only [funcField, BitVec.extractLsb'_toNat, Nat.shiftRight_eq_div_pow]
    omega
  have hd : 128 ≤ (dataField w).toNat := by
    simp only [dataField, BitVec.extractLsb'_toNat, Nat.shiftRight_eq_div_pow]
    omega
  exact decode_mustBeZeroBitSet (op := .pkPush) (BitVec.eq_of_toNat_eq hu) (BitVec.eq_of_toNat_eq hf) (hbit _ hd)

/-- Settles O33: both cuts keep the stream from its start, and a stream determines its groups. -/
theorem roundTripNoFlush : Obligations.RoundTripNoFlush := by
  refine ⟨fun vs => ?values, fun bs => ?bytes, fun bs f u hu => ?tagged⟩
  case values =>
    obtain ⟨hlen, -⟩ := pack7to8_length vs
    obtain ⟨hpack, -⟩ := packIsMsbFirst vs
    obtain ⟨hunpack, -, htag⟩ := unpackIsMsbFirst (pack7to8 vs false) false
    have hdata : (unpack8to7 (pack7to8 vs false) false false).map dataBits =
        vs.take (8 * (7 * vs.length / 8) / 7) := by
      apply bitStream_injective (by decide)
      rw [hunpack, hlen, hpack, List.take_take, bitStream_take, Nat.min_eq_left (by omega)]
    have hround : unpack8to7 (pack7to8 vs false) false false =
        (vs.map (·.setWidth 8)).take (8 * (7 * vs.length / 8) / 7) := by
      have hzero : ∀ v : U7, BitVec.ofBool false ++ v = v.setWidth 8 := by decide
      rw [eq_map_dataBits (htag false), hdata, ← List.map_take]
      exact List.map_congr_left fun v _ => hzero v
    refine ⟨hround, ?_⟩
    rw [hround, List.take_eq_self_iff, List.length_map, Nat.le_div_iff_mul_le (by decide)]
    omega
  case bytes =>
    have hlen := (unpack8to7_length bs false).1
    obtain ⟨hunpack, -, -⟩ := unpackIsMsbFirst bs false
    obtain ⟨hpack, -⟩ := packIsMsbFirst ((unpack8to7 bs false false).map dataBits)
    have hround : pack7to8 ((unpack8to7 bs false false).map dataBits) false =
        bs.take (7 * (8 * bs.length / 7) / 8) := by
      apply bitStream_injective (by decide)
      rw [hpack, hunpack, List.length_map, hlen, List.take_take, bitStream_take, Nat.min_eq_left (by omega)]
    rw [hround]
    refine ⟨List.take_prefix .., ?_⟩
    rw [List.take_eq_self_iff, Nat.le_div_iff_mul_le (by decide)]
    omega
  case tagged =>
    have hbit : ∀ u : Byte, u.getLsbD 7 = true → 128 ≤ u.toNat := by decide
    obtain ⟨-, -, htag⟩ := unpackIsMsbFirst bs true
    have hu := hbit u (htag f u hu)
    have hword : (0x1000 ||| u.setWidth 16 : Word).toNat = 0x1000 + u.toNat := by
      rw [BitVec.toNat_or, BitVec.toNat_setWidth_of_le (by decide)]
      exact (Nat.shiftLeft_add_eq_or_of_lt (i := 12) (u.isLt.trans (by decide)) 1).symm
    exact ⟨hu, decode_pkPush_bit7 (by omega) (by have := u.isLt; omega)⟩

/-- Settles O34: the zeros of both flushes together are one whole value, or there are none. -/
theorem roundTripFlush : Obligations.RoundTripFlush := by
  intro vs tag
  obtain ⟨-, hlen⟩ := pack7to8_length vs
  obtain ⟨-, hpack⟩ := packIsMsbFirst vs
  obtain ⟨-, hunpack, htag⟩ := unpackIsMsbFirst (pack7to8 vs true) tag
  have hdata : (unpack8to7 (pack7to8 vs true) true tag).map dataBits =
      vs ++ if 7 * vs.length % 8 = 0 then [] else [0] := by
    apply bitStream_injective (by decide)
    rw [hunpack, hpack, hlen, bitStream_append, List.append_assoc, List.replicate_append_replicate]
    congr 1
    split
    · next h0 => rw [show (8 - 7 * vs.length % 8) % 8 + (7 - 8 * ((7 * vs.length + 7) / 8) % 7) % 7 = 0 by omega]; rfl
    · next h0 =>
      have hbits : 8 * ((7 * vs.length + 7) / 8) = 7 * vs.length + (8 - 7 * vs.length % 8) := by omega
      have hpad : ∀ j < 8, j ≠ 0 → (8 - j) % 8 + (7 - (8 - j) % 7) % 7 = 7 := by decide
      rw [hbits, Nat.mul_add_mod, hpad _ (Nat.mod_lt _ (by decide)) h0]
      decide
  rw [eq_map_dataBits (htag true), hdata, List.map_append]
  congr 1
  split <;> rfl

/-! ### `RX` and the receiver -/

/-- What a command of `RX` does to its residual bits, and the values it gives to the receiver (40_bitpack.md R109,
R110). -/
def rxStep (r : Unpacker) : Instr → Unpacker × List Byte
  | .rxPush b => unpackStep r b false
  | .rxEnd f => (Unpacker.clear, unpackEnd r f false)
  | _ => (r, [])

/-- The values given to the receiver and the residual bits left, of what an unpacker gives and leaves. -/
def State.feed (s : State) (o : Unpacker × List Byte) : State := { s.frSteps o.2 with rx := o.1 }

@[simp] theorem feed_rx (s : State) (o : Unpacker × List Byte) : (s.feed o).rx = o.1 := rfl

theorem feed_eq_run (s : State) (o : Unpacker × List Byte) :
    s.feed o =
      { s with
        rx := o.1
        fr := (s.fr.run s.params.frDepth o.2).1
        fro := s.fro.append (s.fr.run s.params.frDepth o.2).2.1
        status := s.status ||| (s.fr.run s.params.frDepth o.2).2.2 } := by
  rw [State.feed, frSteps_eq_run]

/-- Residual bits are no part of what the receiver sees. -/
theorem frSteps_withRx (s : State) (r : Unpacker) (us : List Byte) :
    State.frSteps { s with rx := r } us = s.feed (r, us) := by
  simp only [feed_eq_run, frSteps_eq_run]

theorem feed_release (s : State) (o : Unpacker × List Byte) : s.release.feed o = (s.feed o).release := by
  simp only [feed_eq_run, State.release]

theorem feed_feed (s : State) (o o' : Unpacker × List Byte) : (s.feed o).feed o' = s.feed (o'.1, o.2 ++ o'.2) := by
  rw [State.feed, State.feed, frSteps_withRx, State.feed, State.feed]
  simp [State.frSteps]

theorem framesClosed_append (depth : Nat) (r : Receiver) (us vs : List Byte) :
    r.framesClosed depth (us ++ vs) =
      r.framesClosed depth us + (r.run depth us).1.framesClosed depth vs := by
  induction us generalizing r with
  | nil => simp [Receiver.run, framesClosed_nil]
  | cons u us ih => simp only [List.cons_append, framesClosed_cons, ih, Receiver.run]; omega

/-- A command of `RX` gives its values to the receiver (40_bitpack.md R109, R110), and is held exactly when they close
more frames than `FRO` has room for (70_reset_and_hazards.md R240). -/
theorem effect_of_rx {i : Instr} (h : i.op = .rxPush ∨ i.op = .rxEnd) (s : State) :
    effect i s = s.feed (rxStep s.rx i) ∧
    (held i s = false ↔ s.fr.framesClosed s.params.frDepth (rxStep s.rx i).2 ≤ s.fro.free s.params.froDepth) := by
  cases i with
  | rxPush b => exact ⟨frSteps_withRx .., held_rxPush s b⟩
  | rxEnd f => exact ⟨frSteps_withRx .., held_rxEnd s f⟩
  | _ => simp [Instr.op] at h

/-- Accepted commands of `RX` give the receiver all their values in order. -/
theorem acceptAll_rx {cs : List Instr} {s t : State} (hrx : ∀ i ∈ cs, i.op = .rxPush ∨ i.op = .rxEnd)
    (h : acceptAll cs s = some t) :
    t.release = s.release.feed (regroup rxStep s.rx cs) := by
  induction cs generalizing s with
  | nil =>
    obtain rfl : s = t := by simpa using h
    rfl
  | cons i cs ih =>
    obtain ⟨-, hrest⟩ := acceptAll_cons_eq_some.1 h
    obtain ⟨heff, -⟩ := effect_of_rx (hrx i (by simp)) s.release
    rw [heff] at hrest
    rw [ih (fun j hj => hrx j (by simp [hj])) hrest, regroup_cons, ← feed_release, feed_feed]
    rfl

/-- Commands of `RX` are accepted whole where there is room for the frames their values close. -/
theorem acceptAll_rx_of_room {cs : List Instr} {s : State} (hrx : ∀ i ∈ cs, i.op = .rxPush ∨ i.op = .rxEnd)
    (hroom : s.fr.framesClosed s.params.frDepth (regroup rxStep s.rx cs).2 ≤ s.fro.free s.params.froDepth) :
    ∃ t, acceptAll cs s = some t := by
  induction cs generalizing s with
  | nil => exact ⟨s, rfl⟩
  | cons i cs ih =>
    obtain ⟨heff, -⟩ := effect_of_rx (hrx i (by simp)) s.release
    obtain ⟨-, hheld⟩ := effect_of_rx (hrx i (by simp)) s
    rw [regroup_cons, framesClosed_append] at hroom
    have hh := hheld.2 (by omega)
    have hlen := run_frames_length s.params.frDepth s.fr (rxStep s.rx i).2
    obtain ⟨t, ht⟩ := ih (s := effect i s.release) (fun j hj => hrx j (by simp [hj])) (by
      rw [heff, feed_eq_run]
      simp only [Fifo.free, append_entries, List.length_append, release_fr, release_params, release_fro,
        release_rx] at hroom ⊢
      omega)
    exact ⟨t, acceptAll_cons_eq_some.2 ⟨hh, ht⟩⟩

/-- After a command has been accepted the port is free (20_memory.md R51). -/
theorem acceptAll_port {cs : List Instr} {s t : State} (hne : cs ≠ []) (h : acceptAll cs s = some t) :
    t.port = none := by
  induction cs generalizing s with
  | nil => contradiction
  | cons i cs ih =>
    obtain ⟨-, hrest⟩ := acceptAll_cons_eq_some.1 h
    cases cs with
    | nil =>
      obtain rfl : effect i s.release = t := by simpa using hrest
      obtain ⟨-, hp, -⟩ := effect_host_side i s.release
      exact hp
    | cons j cs => exact ih (by simp) hrest

theorem release_of_port {s : State} (h : s.port = none) : s.release = s := by
  rw [State.release, ← h]

/-- An inbound message gives the receiver the values of `unpack8to7` (40_bitpack.md R111). -/
theorem regroup_rxmsgCommands {r : Unpacker} (h : r.n = 0) (bs : List Byte) (f : Bool) :
    regroup rxStep r (rxmsgCommands bs f) = (Unpacker.clear, unpack8to7 bs f false) := by
  rw [rxmsgCommands, regroup_append, regroup_map, unpack8to7_eq_unpackAll h]
  simp [regroup_cons, rxStep]

theorem rx_of_mem_rxmsgCommands {bs : List Byte} {f : Bool} :
    ∀ i ∈ rxmsgCommands bs f, i.op = .rxPush ∨ i.op = .rxEnd := by
  intro i hi
  simp only [rxmsgCommands, List.mem_append, List.mem_map, List.mem_singleton] at hi
  rcases hi with ⟨b, -, rfl⟩ | rfl
  · exact .inl rfl
  · exact .inr rfl

/-- Settles O42: the fold over a message's commands is the fold of `fr_step` over `unpack8to7`. -/
theorem rxEquivalence : Obligations.RxEquivalence := by
  refine ⟨fun bs f s t hn h => ?_, fun bs f s hn hroom => acceptAll_rx_of_room rx_of_mem_rxmsgCommands ?_⟩
  · have ht := acceptAll_rx rx_of_mem_rxmsgCommands h
    rw [release_of_port (acceptAll_port (by simp [rxmsgCommands]) h), regroup_rxmsgCommands hn, feed_release] at ht
    exact ht
  · rwa [regroup_rxmsgCommands hn]

theorem toNat_of_eq_zero {w : Nat} {n : BitVec w} (h : n = 0) : n.toNat = 0 := by simp [h]

/-- Settles O32: the counts of the folds, a whole number of groups out and the remainder left. -/
theorem regroupCounts : Obligations.RegroupCounts := by
  refine ⟨pack7to8_length, unpack8to7_length, fun vs s t hn h => ?_, fun bs s t hn h => ?_, fun bs s t hn h => ?_⟩
  · have ht : t.pk = (regroup packStep s.pk vs).1 := by
      obtain ⟨hpk, -⟩ := acceptAll_regroup packerUnit h
      rw [regroup_map] at hpk
      exact hpk
    have hcount := regroup_packStep_count s.pk vs
    have hlt := t.pk.n.isLt
    rw [← ht, toNat_of_eq_zero hn] at hcount
    omega
  · have ht : t.up = (unpackAll s.tag s.up bs).1 := by
      obtain ⟨hup, -⟩ := acceptAll_regroup unpackerUnit h
      exact congrArg Prod.fst (hup.trans (congrArg Prod.fst (regroup_upPush s.up s.tag bs)))
    obtain ⟨hcount, hle⟩ := unpackAll_count (r := s.up) (by rw [toNat_of_eq_zero hn]; decide) s.tag bs
    rw [← ht] at hcount hle
    rw [toNat_of_eq_zero hn] at hcount
    omega
  · have ht : t.rx = (unpackAll false s.rx bs).1 := by
      have hrx := congrArg State.rx (acceptAll_rx (by simp [Instr.op]) h)
      rw [regroup_map] at hrx
      exact hrx
    obtain ⟨hcount, hle⟩ := unpackAll_count (r := s.rx) (by rw [toNat_of_eq_zero hn]; decide) false bs
    rw [← ht] at hcount hle
    rw [toNat_of_eq_zero hn] at hcount
    omega

/-! ### A flush into the receiver -/

/-- A flushed value of fewer than 7 bits is even, so it is not `frameEnd` (40_bitpack.md R110). -/
theorem unpackEnd_ne_frameEnd {r : Unpacker} (h : r.n.toNat ≤ 6) (f : Bool) :
    ∀ u ∈ unpackEnd r f false, u ≠ Config.frameEnd := by
  intro u hu he
  obtain ⟨k, hk⟩ : ∃ k, 7 - r.n.toNat = k + 1 := ⟨6 - r.n.toNat, by omega⟩
  unfold unpackEnd at hu
  split at hu
  · rw [List.mem_singleton, hk, Nat.shiftLeft_eq, pow_succ, ← Nat.mul_assoc, tagged_eq] at hu
    have hodd := congrArg BitVec.toNat (hu.symm.trans he)
    have hthree : Config.frameEnd.toNat = 3 := rfl
    rw [hthree, Bool.toNat_false, BitVec.toNat_ofNat] at hodd
    omega
  · simp at hu

/-- A value other than `frameEnd` closes no frame and can set `OVF` only (42_frame_rx.md R141 to R148). -/
theorem step_of_ne_frameEnd (depth : Nat) (r : Receiver) {u : Byte} (h : u ≠ Config.frameEnd) :
    (r.step depth u).2 = .none ∨ (r.step depth u).2 = .error .ovf := by
  rcases step_receiver_cases depth r u with
    ⟨-, -, e⟩ | ⟨-, -, e⟩ | ⟨-, he, -⟩ | ⟨-, -, -, e⟩ | ⟨-, -, -, e⟩ | ⟨-, -, e⟩ | ⟨-, -, e⟩
  case inr.inr.inl => exact absurd he h
  all_goals simp [e]

/-- Values other than `frameEnd` close no frame and can set `OVF` only. -/
theorem run_of_ne_frameEnd (depth : Nat) (r : Receiver) {us : List Byte} (h : ∀ u ∈ us, u ≠ Config.frameEnd) :
    (r.run depth us).2.1 = [] ∧
      ((r.run depth us).2.2 = 0 ∨ (r.run depth us).2.2 = StatusBit.ovf.mask) := by
  induction us generalizing r with
  | nil => exact ⟨rfl, .inl rfl⟩
  | cons u us ih =>
    obtain ⟨hframes, hbits⟩ := ih (r.step depth u).1 (fun v hv => h v (by simp [hv]))
    rcases step_of_ne_frameEnd depth r (h u (by simp)) with hu | hu <;> rcases hbits with hb | hb <;>
      simp [Receiver.run, hu, hframes, hb, RxEvent.frames, RxEvent.bits]

/-- Setting `OVF` leaves every other STATUS bit as it was. -/
theorem getLsbD_or_ovf (status : BitVec 5) {bits : BitVec 5} (hbits : bits = 0 ∨ bits = StatusBit.ovf.mask)
    {b : StatusBit} (hne : b ≠ .ovf) : (status ||| bits).getLsbD b.code = status.getLsbD b.code := by
  have hbit : bits.getLsbD b.code = false := by
    rcases hbits with rfl | rfl
    · exact BitVec.getLsbD_zero
    · revert hne; cases b <;> decide
  rw [BitVec.getLsbD_or, hbit, Bool.or_false]

/-- Settles O41: the flushed value is no `frameEnd`, so it needs no room and changes no bit but `OVF`. -/
theorem rxEndNeverCloses : Obligations.RxEndNeverCloses := by
  intro f s hn
  obtain ⟨hframes, hbits⟩ := run_of_ne_frameEnd s.params.frDepth s.fr (unpackEnd_ne_frameEnd hn f)
  have hh : held (.rxEnd f) s = false := by
    rw [held_rxEnd, ← run_frames_length, hframes]
    exact Nat.zero_le _
  refine ⟨_, exec_accepted hh, ?_, ?_, ?_, ?_⟩ <;> rw [effect, frSteps_eq_run]
  · rfl
  · simp [hframes]
  · exact getLsbD_or_ovf s.status hbits (b := .short) (by decide)
  · exact getLsbD_or_ovf s.status hbits (b := .ckerr) (by decide)

/-! ### Single commands -/

/-- A command's word is its row's bits with the operand below them (30_encoding.md R80). -/
theorem encode_eq_or (i : Instr) (op : Op) {high : Word} (hop : i.op = op) (hhigh : commandWord op 0 = high) :
    encode i = high ||| i.data.setWidth 16 := by
  rw [← commandWord_data, ← hhigh, hop, commandWord, commandWord, BitVec.ofNat_toNat]
  simp

/-- An operand of fewer than 8 bits, widened to a byte and then to a word. -/
theorem setWidth_byte_word {w : Nat} (h : w ≤ 8) (x : BitVec w) : (x.setWidth 8).setWidth 16 = x.setWidth 16 :=
  BitVec.setWidth_setWidth (by omega)

/-- The operand words of the three `END` commands. -/
theorem data_setWidth_ofBool (f : Bool) : ((BitVec.ofBool f).setWidth 8).setWidth 16 = (BitVec.ofBool f).setWidth 16 :=
  setWidth_byte_word (by decide) _

/-- A command whose condition for acceptance fails is held, and changes nothing. -/
theorem exec_of_not {i : Instr} {s : State} {p : Prop} (hiff : held i s = false ↔ p) (h : ¬ p) :
    exec i s = .next s :=
  exec_held (by simpa using mt hiff.1 h)

/-- A register that is not 0 counts at least one bit. -/
theorem one_le_toNat {w : Nat} {n : BitVec w} (h : n ≠ 0) : 1 ≤ n.toNat :=
  Nat.one_le_iff_ne_zero.2 fun h0 => h (BitVec.eq_of_toNat_eq (by simp [h0]))

theorem packEnd_none {r : Packer} {f : Bool} (h : f = false ∨ r.n = 0) : packEnd r f = [] := by
  rcases h with rfl | h
  · simp [packEnd]
  · simp [packEnd, h]

theorem packEnd_some {r : Packer} (h : r.n ≠ 0) :
    packEnd r true = [BitVec.ofNat 8 (r.acc.toNat * 2 ^ (8 - r.n.toNat))] := by
  rw [packEnd, if_pos ⟨rfl, one_le_toNat h⟩, Nat.shiftLeft_eq]

/-- From reset, with room for its bytes, a sequence of the packer's commands gives them (40_bitpack.md R102). -/
theorem packer_fromReset {cs : List Instr} {p : Params} (hown : ∀ i ∈ cs, i.isPk = true)
    (hroom : (regroup packerStep Packer.clear cs).2.length ≤ p.pkoDepth) :
    (acceptAll cs (State.resetWith p)).map (fun t => (t.pko.entries, t.readReg 2)) =
      some ((regroup packerStep Packer.clear cs).2,
        0#1 ++ (regroup packerStep Packer.clear cs).1.acc ++ 0#5 ++ (regroup packerStep Packer.clear cs).1.n) := by
  obtain ⟨t, ht⟩ := acceptAll_of_room packerUnit (s := State.resetWith p) hown hroom
  obtain ⟨hpk, hpko⟩ := acceptAll_regroup packerUnit ht
  have hpk : t.pk = (regroup packerStep Packer.clear cs).1 := hpk
  have hpko : t.pko.entries = (regroup packerStep Packer.clear cs).2 := congrArg Fifo.entries hpko
  rw [ht, Option.map_some, hpko, ← hpk]
  rfl

/-- Settles O26: `packStep_empty` and `packStep_some` under the hold of `held_pkPush`. -/
theorem pkPush : Obligations.PkPush := by
  refine ⟨fun v => ?word, fun w => decode_pkPush_bit7, fun v s hn => ?empty, fun v s k hk hfree => ?emits,
    fun v s hn hfull => ?held, fun vs s t hlen hn h => ?eight, fun p hp => ?examples⟩
  case word =>
    rw [encode_eq_or (.pkPush v) .pkPush (high := 0x1000) rfl (by decide), Instr.data, setWidth_byte_word (by decide)]
  case empty =>
    have hh : held (.pkPush v) s = false := by simp [held_pkPush, hn]
    rw [exec_accepted hh, effect, release_pk, packStep_empty v hn, State.emitPko, append_nil]
    rfl
  case emits =>
    have hh : held (.pkPush v) s = false := by simpa [held_pkPush, hk] using hfree
    rw [exec_accepted hh, effect, release_pk, packStep_some v hk]
    rfl
  case held => exact exec_of_not (held_pkPush s v) (by simp [one_le_toNat hn, hfull])
  case eight =>
    obtain ⟨hpk, hpko⟩ := acceptAll_regroup packerUnit h
    rw [regroup_map] at hpk hpko
    have hpk : t.pk = (regroup packStep s.pk vs).1 := hpk
    have hpko : t.pko = s.pko.append (regroup packStep s.pk vs).2 := hpko
    have hcount := regroup_packStep_count s.pk vs
    have hlt := t.pk.n.isLt
    rw [← hpk, hlen, toNat_of_eq_zero hn] at hcount
    refine ⟨BitVec.eq_of_toNat_eq (y := 0) (show t.pk.n.toNat = 0 by omega), ?_⟩
    rw [hpko, append_entries, List.length_append]
    omega
  case examples =>
    obtain ⟨-, -, hroom, -⟩ := hp
    constructor
    · rw [packer_fromReset (cs := [.pkPush 0x41]) (by decide) (Nat.zero_le _)]
      decide
    · rw [packer_fromReset (cs := [.pkPush 0x41, .pkPush 0x7F]) (by decide) hroom]
      decide

/-- Settles O27: `packEnd_none` and `packEnd_some` under the hold of `held_pkEnd`. -/
theorem pkEnd : Obligations.PkEnd := by
  have hgone {f : Bool} {s : State} (h : f = false ∨ s.pk.n = 0) :
      exec (.pkEnd f) s = .next { s with pk := ⟨0, 0⟩, port := none } := by
    have hh : held (.pkEnd f) s = false := by rw [held_pkEnd]; rcases h with rfl | h <;> simp [*]
    rw [exec_accepted hh, effect, release_pk, packEnd_none h, State.emitPko, append_nil]
    rfl
  have hflush {s : State} (hn : s.pk.n ≠ 0) (hfree : 1 ≤ s.pko.free s.params.pkoDepth) :
      exec (.pkEnd true) s = .next { s with
        pk := ⟨0, 0⟩
        pko := ⟨s.pko.taken, s.pko.entries ++ [BitVec.ofNat 8 (s.pk.acc.toNat * 2 ^ (8 - s.pk.n.toNat))]⟩
        port := none } := by
    have hh : held (.pkEnd true) s = false := by simpa [held_pkEnd, one_le_toNat hn] using hfree
    rw [exec_accepted hh, effect, release_pk, packEnd_some hn]
    rfl
  refine ⟨fun f => ?word, fun f s => hgone, fun s => hflush, fun s hn hfull => ?held, fun s hreg hfree => ?register⟩
  case word => rw [encode_eq_or (.pkEnd f) .pkEnd (high := 0x1100) rfl (by decide), Instr.data, data_setWidth_ofBool]
  case held => exact exec_of_not (held_pkEnd s true) (by simp [one_le_toNat hn, hfull])
  case register =>
    have hst := (pkSt_toNat s).symm.trans (congrArg BitVec.toNat hreg)
    have hlt := s.pk.n.isLt
    simp only [BitVec.ofNat_eq_ofNat, BitVec.toNat_ofNat] at hst
    have hn : s.pk.n.toNat = 6 := by omega
    have hacc : s.pk.acc.toNat = 63 := by omega
    have hn0 : s.pk.n ≠ 0 := fun h0 => by simp [h0] at hn
    refine ⟨⟨_, hflush hn0 hfree, ?_, (by decide : (0#1 ++ 0#7 ++ 0#5 ++ 0#3 : Word) = 0)⟩, _, hgone (.inl rfl), rfl⟩
    rw [hn, hacc]
    rfl

theorem unpackEnd_none {r : Unpacker} {f tag : Bool} (h : f = false ∨ r.n = 0) : unpackEnd r f tag = [] := by
  rcases h with rfl | h
  · simp [unpackEnd]
  · simp [unpackEnd, h]

theorem unpackEnd_some {r : Unpacker} {tag : Bool} (h : r.n ≠ 0) :
    unpackEnd r true tag = [tagged tag (r.acc.toNat * 2 ^ (7 - r.n.toNat))] := by
  rw [unpackEnd, if_pos ⟨rfl, one_le_toNat h⟩, Nat.shiftLeft_eq]

/-- From reset and a `CTRL`, with room for its values, a sequence of the commands of `UP` gives them (40_bitpack.md
R105). -/
theorem unpacker_fromReset {cs : List Instr} {p : Params} (c : BitVec 2) (hown : ∀ i ∈ cs, i.isUp = true)
    (hroom : (regroup unpackerStep (Unpacker.clear, c.getLsbD 0) cs).2.length ≤ p.upoDepth) :
    (acceptAll cs { State.resetWith p with ctrl := c }).map (fun t => (t.upo.entries, t.readReg 3)) =
      some ((regroup unpackerStep (Unpacker.clear, c.getLsbD 0) cs).2,
        0#2 ++ (regroup unpackerStep (Unpacker.clear, c.getLsbD 0) cs).1.1.acc ++ 0#5 ++
          (regroup unpackerStep (Unpacker.clear, c.getLsbD 0) cs).1.1.n) := by
  obtain ⟨t, ht⟩ := acceptAll_of_room unpackerUnit (s := { State.resetWith p with ctrl := c }) hown hroom
  obtain ⟨hup, hupo⟩ := acceptAll_regroup unpackerUnit ht
  have hup : t.up = (regroup unpackerStep (Unpacker.clear, c.getLsbD 0) cs).1.1 := congrArg Prod.fst hup
  have hupo : t.upo.entries = (regroup unpackerStep (Unpacker.clear, c.getLsbD 0) cs).2 := congrArg Fifo.entries hupo
  rw [ht, Option.map_some, hupo, ← hup]
  rfl

/-- Settles O35: `unpackStep_one` and `unpackStep_two` under the hold of `held_upPush`. -/
theorem upPush : Obligations.UpPush := by
  have hsix {s : State} (hn : s.up.n = 6) : s.up.n.toNat = 6 := by simp [hn]
  refine ⟨fun b => encode_eq_or (.upPush b) .upPush rfl (by decide), fun b s hn hfree => ?one,
    fun b s hn hfull => ?oneHeld, fun b s hn hfree => ?two, fun b s hn hfull => ?twoHeld, fun p hp => ?fromReset⟩
  case one =>
    have hh : held (.upPush b) s = false := by simpa [held_upPush, show ¬ 6 ≤ s.up.n.toNat by omega] using hfree
    rw [exec_accepted hh, effect, release_up, unpackStep_one b _ hn, tagged_eq]
    rfl
  case oneHeld => exact exec_of_not (held_upPush s b) (by rw [if_neg (by omega)]; omega)
  case two =>
    have hh : held (.upPush b) s = false := by simpa [held_upPush, hsix hn] using hfree
    rw [exec_accepted hh, effect, release_up, unpackStep_two b _ (hsix hn), tagged_eq, tagged_eq,
      show (s.up.acc.toNat * 256 + b.toNat) % 128 = b.toNat % 128 by omega]
    rfl
  case twoHeld => exact exec_of_not (held_upPush s b) (by rw [if_pos (hsix hn).ge]; omega)
  case fromReset =>
    obtain ⟨-, -, -, hdepth, -⟩ := hp
    refine (unpacker_fromReset (cs := [.upPush 0x83]) 0 (by decide) ((by decide : 1 ≤ 2).trans hdepth)).trans ?_
    decide

/-- Settles O36: `unpackEnd_none` and `unpackEnd_some` under the hold of `held_upEnd`. -/
theorem upEnd : Obligations.UpEnd := by
  refine ⟨fun f => ?word, fun f s h => ?gone, fun s hn hfree => ?flush, fun s hn hfull => ?held, fun p c hp => ?fromReset⟩
  case word => rw [encode_eq_or (.upEnd f) .upEnd (high := 0x2100) rfl (by decide), Instr.data, data_setWidth_ofBool]
  case gone =>
    have hh : held (.upEnd f) s = false := by rw [held_upEnd]; rcases h with rfl | h <;> simp [*]
    rw [exec_accepted hh, effect, release_up, unpackEnd_none h, State.emitUpo, append_nil]
    rfl
  case flush =>
    have hh : held (.upEnd true) s = false := by simpa [held_upEnd, one_le_toNat hn] using hfree
    rw [exec_accepted hh, effect, release_up, unpackEnd_some hn, tagged_eq]
    rfl
  case held => exact exec_of_not (held_upEnd s true) (by simp [one_le_toNat hn, hfull])
  case fromReset =>
    obtain ⟨-, -, -, hdepth, -⟩ := hp
    have hcall : ∀ tag : Bool,
        (regroup unpackerStep (Unpacker.clear, tag) [.upPush 0xFF, .upEnd true]).2 =
          if tag then [0xFF, 0xC0] else [0x7F, 0x40] := by decide
    have hlen : ∀ tag : Bool,
        (regroup unpackerStep (Unpacker.clear, tag) [.upPush 0xFF, .upEnd true]).2.length = 2 := by decide
    have hrest := congrArg (Option.map Prod.fst)
      (unpacker_fromReset (newTxform c ++ newTag c) (by decide) ((hlen _).trans_le hdepth))
    rw [hcall, newTag_getLsbD, Option.map_map] at hrest
    rw [acceptAll_cons, held_sysWrctrl]
    exact hrest

/-- A value with tag 0 is its number (40_bitpack.md R109). -/
theorem eq_tagged_false {u : Byte} {x : Nat} (h : u.toNat = x % 128) : u = tagged false x := by
  rw [tagged_eq]
  exact BitVec.eq_of_toNat_eq (by simp; omega)

/-- From reset a sequence of the commands of `RX` that closes no frame gives the receiver its values (40_bitpack.md
R109, R110). -/
theorem rx_fromReset {cs : List Instr} {p : Params} (hrx : ∀ i ∈ cs, i.op = .rxPush ∨ i.op = .rxEnd)
    (hclosed : Receiver.framesClosed p.frDepth ⟨.idle, []⟩ (regroup rxStep Unpacker.clear cs).2 = 0) :
    ∃ t, acceptAll cs (State.resetWith p) = some t ∧ t.rx = (regroup rxStep Unpacker.clear cs).1 ∧
      t.fr = (Receiver.run p.frDepth ⟨.idle, []⟩ (regroup rxStep Unpacker.clear cs).2).1 := by
  obtain ⟨t, ht⟩ := acceptAll_rx_of_room (s := State.resetWith p) hrx (hclosed.trans_le (Nat.zero_le _))
  have hend := acceptAll_rx hrx ht
  rw [feed_eq_run] at hend
  exact ⟨t, ht, congrArg State.rx hend, congrArg State.fr hend⟩

/-- Settles O39: `unpackStep_one` and `unpackStep_two` under the hold of `held_rxPush`. -/
theorem rxPush : Obligations.RxPush := by
  refine ⟨fun b => encode_eq_or (.rxPush b) .rxPush rfl (by decide), fun b u s hn hu => ?one,
    fun b u v s hn hu hv => ?two, fun p => ?fromReset⟩
  case one =>
    have hstep := unpackStep_one (r := s.rx) b false hn
    have hheld := held_rxPush s b
    rw [← eq_tagged_false hu] at hstep
    rw [hstep] at hheld
    refine ⟨fun hroom => ?_, fun hfull => exec_of_not hheld hfull.not_ge⟩
    rw [exec_accepted (hheld.2 hroom), effect, release_rx, hstep]
    rfl
  case two =>
    have hstep := unpackStep_two (r := s.rx) b false (by simp [hn])
    have hheld := held_rxPush s b
    rw [← eq_tagged_false hu, ← eq_tagged_false (u := v) (by omega)] at hstep
    rw [hstep] at hheld
    refine ⟨fun hroom => ?_, fun hfull => exec_of_not hheld hfull.not_ge⟩
    rw [exec_accepted (hheld.2 hroom), effect, release_rx, hstep]
    rfl
  case fromReset =>
    have hvalues : regroup rxStep Unpacker.clear [.rxPush 0x04] = (⟨0, 1⟩, [Config.frameStart]) := by decide
    obtain ⟨t, ht, hr, hfr⟩ := rx_fromReset (cs := [.rxPush 0x04]) (p := p) (by decide) (by rw [hvalues]; rfl)
    rw [hvalues] at hr hfr
    have hreg : t.readReg 4 = 0x0001 :=
      (congrArg (fun r : Unpacker => (0#2 ++ r.acc ++ 0#5 ++ r.n : Word)) hr).trans (by decide)
    rw [ht, Option.map_some, hfr, hreg]
    rfl

/-- Settles O40: `unpackEnd_none` and `unpackEnd_some` under the hold of `held_rxEnd`. -/
theorem rxEnd : Obligations.RxEnd := by
  refine ⟨fun f => ?word, fun f s h => ?gone, fun u s hn hu hroom => ?flush, fun p hp => ?fromReset⟩
  case word => rw [encode_eq_or (.rxEnd f) .rxEnd (high := 0x2300) rfl (by decide), Instr.data, data_setWidth_ofBool]
  case gone =>
    have hh : held (.rxEnd f) s = false := by rw [held_rxEnd, unpackEnd_none h]; exact Nat.zero_le _
    rw [exec_accepted hh, effect, release_rx, unpackEnd_none h]
    rfl
  case flush =>
    have hend := unpackEnd_some (tag := false) hn
    rw [← eq_tagged_false hu] at hend
    have hh : held (.rxEnd true) s = false := by rwa [held_rxEnd, hend]
    rw [exec_accepted hh, effect, release_rx, hend]
    rfl
  case fromReset =>
    obtain ⟨hdepth, -⟩ := hp
    have hvalues : regroup rxStep Unpacker.clear [.rxPush 0x04, .rxEnd true] =
        (Unpacker.clear, [Config.frameStart, 0x00]) := by decide
    have hrun : Receiver.run p.frDepth ⟨.idle, []⟩ [Config.frameStart, 0x00] = (⟨.collecting, [0x00]⟩, [], 0) := by
      have hroom : 0 < p.frDepth := by omega
      simp [Receiver.run, Receiver.step, Config.frameStart, Config.frameEnd, hroom, RxEvent.frames, RxEvent.bits]
    obtain ⟨t, ht, -, hfr⟩ := rx_fromReset (cs := [.rxPush 0x04, .rxEnd true]) (p := p) (by decide)
      (by rw [hvalues, ← run_frames_length, hrun]; rfl)
    rw [hvalues, hrun] at hfr
    rw [ht, Option.map_some, hfr]

end Sys2Proof.Machine

namespace Sys2Proof.Machine

/-!
PROOFS. The checksum (41_checksum.md): the fold and its floor as functions, which folds collide, and the checksum unit,
whose accumulator is a fold of its own commands (`ckStep`).
-/

/-! ### The fold and the floor -/

theorem xorfold_eq_foldr (s : List Byte) : xorfold s = s.foldr (· ^^^ ·) 0 := List.foldl_eq_foldr ..

theorem xorfold_cons (b : Byte) (s : List Byte) : xorfold (b :: s) = b ^^^ xorfold s := by
  rw [xorfold_eq_foldr, xorfold_eq_foldr, List.foldr_cons]

theorem xorfold_append (s s' : List Byte) : xorfold (s ++ s') = xorfold s ^^^ xorfold s' := by
  induction s with
  | nil => exact BitVec.zero_xor.symm
  | cons b s ih => rw [List.cons_append, xorfold_cons, xorfold_cons, ih, BitVec.xor_assoc]

/-- The order of the bytes does not matter (41_checksum.md R131). -/
theorem xorfold_perm {s s' : List Byte} (h : s.Perm s') : xorfold s' = xorfold s := by
  rw [xorfold_eq_foldr, xorfold_eq_foldr, h.foldr_eq]

/-- Bytes below 128 fold to one below 128 (41_checksum.md R131). -/
theorem xorfold_lt {s : List Byte} (h : ∀ b ∈ s, b.toNat < 128) : (xorfold s).toNat < 128 := by
  induction s with
  | nil => decide
  | cons b s ih =>
    obtain ⟨hb, hs⟩ := List.forall_mem_cons.1 h
    rw [xorfold_cons, BitVec.toNat_xor]
    exact Nat.xor_lt_two_pow (n := 7) hb (ih hs)

/-- XORing one byte with `m` XORs the fold with `m` (41_checksum.md R136). -/
theorem xorfold_change (before after : List Byte) (b m : Byte) :
    xorfold (before ++ (b ^^^ m) :: after) = xorfold (before ++ b :: after) ^^^ m := by
  simp only [xorfold_append, xorfold_cons]
  ac_rfl

/-- The floor adjustment as a number: the addition never carries out (41_checksum.md R130). -/
theorem ck10_toNat (r : Byte) : (ck10 r).toNat = if r.toNat < 10 then r.toNat + 10 else r.toNat := by
  have hlt : r < Config.floorThreshold ↔ r.toNat < 10 := BitVec.lt_def
  simp only [ck10, hlt]
  split
  · rw [Config.floorOffset, BitVec.toNat_add_of_lt]
    · rfl
    · change r.toNat + 10 < 2 ^ 8
      omega
  · rfl

/-- Two raw values collide exactly when they are `j` and `j + 10` (41_checksum.md R135). -/
theorem ck10_eq_iff {r r' : Byte} (hne : r ≠ r') :
    ck10 r = ck10 r' ↔ ∃ j < 10, (r.toNat = j ∧ r'.toNat = j + 10) ∨ (r'.toNat = j ∧ r.toNat = j + 10) := by
  have hne' : r.toNat ≠ r'.toNat := mt BitVec.eq_of_toNat_eq hne
  rw [← BitVec.toNat_inj, ck10_toNat, ck10_toNat]
  constructor
  · intro h
    by_cases hr : r.toNat < 10
    · rw [if_pos hr] at h
      exact ⟨r.toNat, hr, .inl ⟨rfl, by split at h <;> omega⟩⟩
    · rw [if_neg hr] at h
      exact ⟨r'.toNat, by split at h <;> omega, .inr ⟨rfl, by split at h <;> omega⟩⟩
  · rintro ⟨j, hj, ⟨hr, hr'⟩ | ⟨hr', hr⟩⟩
    · rw [if_pos (by omega), if_neg (by omega), hr, hr']
    · rw [if_neg (by omega), if_pos (by omega), hr, hr']

/-- A colliding pair differs by XOR in 10, 14, 22 or 26, never in one bit (41_checksum.md R136). -/
theorem xor_ne_bit_of_add_ten {r r' : Byte} {j k : Nat} (hj : j < 10) (hr : r.toNat = j) (hr' : r'.toNat = j + 10)
    (hk : k < 8) : r ^^^ r' ≠ 1#8 <<< k := by
  have hpairs : ∀ j < 10, ∀ k < 8, BitVec.ofNat 8 j ^^^ BitVec.ofNat 8 (j + 10) ≠ 1#8 <<< k := by decide
  have h := hpairs j hj k hk
  rwa [← hr', ← hr, BitVec.ofNat_toNat, BitVec.ofNat_toNat, BitVec.setWidth_eq, BitVec.setWidth_eq] at h

/-- Raw values that differ in one bit do not collide (41_checksum.md R136). -/
theorem ck10_ne_of_xor_bit {r r' : Byte} {k : Nat} (hk : k < 8) (hxor : r ^^^ r' = 1#8 <<< k) : ck10 r ≠ ck10 r' := by
  have hbit : ∀ k < 8, 1#8 <<< k ≠ 0#8 := by decide
  have hne : r ≠ r' := by
    rintro rfl
    exact hbit k hk (hxor.symm.trans BitVec.xor_self)
  intro hck
  obtain ⟨j, hj, ⟨hr, hr'⟩ | ⟨hr', hr⟩⟩ := (ck10_eq_iff hne).1 hck
  · exact xor_ne_bit_of_add_ten hj hr hr' hk hxor
  · exact xor_ne_bit_of_add_ten hj hr' hr hk ((BitVec.xor_comm ..).trans hxor)

/-! ### The checksum of a sequence -/

theorem checksum_toNat (s : List Byte) :
    (checksum s).toNat = if (xorfold s).toNat < 10 then (xorfold s).toNat + 10 else (xorfold s).toNat := ck10_toNat _

/-- Settles O44: `checksum_toNat` over the fold. -/
theorem checksumFunction : Obligations.ChecksumFunction := by
  have hrange (s : List Byte) : 10 ≤ (checksum s).toNat ∧ (checksum s).toNat ≤ 255 := by
    have hlt := (xorfold s).isLt
    rw [checksum_toNat]
    split <;> omega
  refine ⟨ck10_toNat, fun s => ⟨rfl, xorfold_eq_foldr s⟩, hrange, fun s hs => ?below,
    fun s => ⟨fun h => ?raised, fun h => ?kept⟩, fun s => ?delimiter,
    fun s s' h => congrArg ck10 (xorfold_perm h), by decide⟩
  case below =>
    have hlt := xorfold_lt hs
    rw [checksum_toNat]
    split <;> omega
  case raised => exact (checksum_toNat s).trans (if_pos (by omega))
  case kept => exact BitVec.eq_of_toNat_eq ((checksum_toNat s).trans (if_neg (by omega)))
  case delimiter =>
    have hge := (hrange s).1
    constructor <;> intro h <;> simp [h, Config.frameStart, Config.frameEnd] at hge

/-- Settles O45: `ck10_eq_iff` and `ck10_ne_of_xor_bit` over the fold. -/
theorem checksumDetection : Obligations.ChecksumDetection := by
  refine ⟨fun r r' => ck10_eq_iff, by decide, by decide, fun before after b k hk => ?_⟩
  have hfold := xorfold_change before after b (1#8 <<< k)
  refine ⟨hfold, ck10_ne_of_xor_bit hk ?_⟩
  rw [hfold, BitVec.xor_comm, ← BitVec.xor_assoc, BitVec.xor_self, BitVec.zero_xor]

/-! ### The checksum unit -/

/-- What each command does to the checksum unit's accumulator (41_checksum.md R132, R133; 44_system.md R193). -/
def ckStep (acc : Byte) : Instr → Byte
  | .ckInit d => d
  | .ckAdd d => acc ^^^ d
  | .sysSreset => 0
  | _ => acc

theorem effect_ck (i : Instr) (s : State) : (effect i s).ck = ckStep s.ck i := by
  obtain ⟨-, -, -, -, -, -, -, hck⟩ := effect_units_frame i s
  cases i with
  | ckInit | ckAdd | sysSreset => rfl
  | _ => exact hck.resolve_right (by simp [Instr.op, Instr.isCk])

theorem acceptAll_ck {cs : List Instr} {s t : State} (h : acceptAll cs s = some t) : t.ck = cs.foldl ckStep s.ck := by
  induction cs generalizing s with
  | nil =>
    obtain rfl : s = t := by simpa using h
    rfl
  | cons i cs ih =>
    obtain ⟨-, hrest⟩ := acceptAll_cons_eq_some.1 h
    rw [ih hrest, effect_ck, release_ck, List.foldl_cons]

/-- Commands of `CK` are never held (41_checksum.md R132, R133). -/
theorem held_of_isCk {i : Instr} (h : i.isCk = true) (s : State) : held i s = false := by
  cases i with
  | ckInit d => exact held_ckInit s d
  | ckAdd d => exact held_ckAdd s d
  | _ => simp [Instr.isCk] at h

/-- Commands of `CK` by themselves are always accepted. -/
theorem acceptAll_map_ck {cs : List Instr} (h : ∀ i ∈ cs, i.isCk = true) (s : State) :
    (acceptAll cs s).map (·.ck) = some (cs.foldl ckStep s.ck) := by
  induction cs generalizing s with
  | nil => rfl
  | cons i cs ih =>
    obtain ⟨hi, hcs⟩ := List.forall_mem_cons.1 h
    rw [acceptAll_cons, held_of_isCk hi, if_neg Bool.false_ne_true, ih hcs, effect_ck, release_ck, List.foldl_cons]

/-- `CK_ST` shows the checksum above the accumulator (10_state.md R33). -/
theorem readReg_ck (s : State) : s.readReg 7 = ck10 s.ck ++ s.ck := rfl

theorem acceptAll_map_ckSt {cs : List Instr} (h : ∀ i ∈ cs, i.isCk = true) (s : State) :
    (acceptAll cs s).map (·.readReg 7) = some (ck10 (cs.foldl ckStep s.ck) ++ cs.foldl ckStep s.ck) := by
  have hck := congrArg (Option.map fun c => ck10 c ++ c) (acceptAll_map_ck h s)
  rwa [Option.map_map] at hck

/-- Commands of other units leave the accumulator alone, but for `SYS.SRESET`. -/
theorem foldl_ckStep_filter {cs : List Instr} (hreset : .sysSreset ∉ cs) (acc : Byte) :
    (cs.filter Instr.isCk).foldl ckStep acc = cs.foldl ckStep acc := by
  rw [List.foldl_filter]
  refine List.foldl_ext _ _ acc fun a i hi => ?_
  cases i with
  | sysSreset => contradiction
  | _ => rfl

/-- `CK.INIT 0` and a `CK.ADD` for each byte fold the bytes (41_checksum.md R134). -/
theorem foldl_ckStep_cksumCommands (bs : List Byte) (acc : Byte) :
    (cksumCommands bs).foldl ckStep acc = xorfold bs := by
  rw [cksumCommands, List.foldl_cons, List.foldl_map]
  rfl

theorem isCk_of_mem_cksumCommands {bs : List Byte} : ∀ i ∈ cksumCommands bs, i.isCk = true := by
  simp [cksumCommands, Instr.isCk]

/-- Settles O47: other units' commands are skipped, and what is left folds the bytes. -/
theorem ckEquivalence : Obligations.CkEquivalence := by
  refine ⟨fun cs bs s t hcs hreset h => ?_, fun bs s => ?_⟩
  · have hck : t.ck = xorfold bs := by
      rw [acceptAll_ck h, ← foldl_ckStep_filter hreset, hcs, foldl_ckStep_cksumCommands]
    refine ⟨hck, ?_⟩
    rw [readReg_ck, hck, BitVec.extractLsb'_append_eq_left, checksum]
  · obtain ⟨t, ht, -⟩ := Option.map_eq_some_iff.1 (acceptAll_map_ck isCk_of_mem_cksumCommands s)
    exact ⟨t, ht⟩

/-- Settles O46: the two commands are never held, and sequences of them are folds of `ckStep`. -/
theorem ckCommands : Obligations.CkCommands := by
  refine ⟨fun d => ⟨encode_eq_or (.ckInit d) .ckInit rfl (by decide),
    encode_eq_or (.ckAdd d) .ckAdd rfl (by decide)⟩,
    fun d s => exec_accepted (held_ckInit s d), fun d s => exec_accepted (held_ckAdd s d), fun d s => ?twice,
    fun s => ⟨?init, ?add⟩⟩
  case twice =>
    rw [acceptAll_map_ck (by simp [Instr.isCk])]
    simp [ckStep]
  case init =>
    rw [acceptAll_map_ckSt (by decide)]
    simp only [List.foldl, ckStep]
    decide
  case add =>
    rw [acceptAll_map_ckSt (by decide)]
    simp only [List.foldl, ckStep]
    decide

end Sys2Proof.Machine

namespace Sys2Proof.Machine

/-!
PROOFS. The frame receiver (42_frame_rx.md): an equation for each arm of `fr_step` and for each way a frame closes,
`FR.PUSH` in terms of the receiver's own step, a whole frame given to an idle receiver, and how little one command and
one value can bring about (R153).
-/

/-! ### The arms of the receive step -/

section
variable {depth : Nat} {r : Receiver} {u : Byte}

theorem step_idle_start (h : r.state = .idle) : r.step depth Config.frameStart = (⟨.collecting, []⟩, .none) := by
  simp [Receiver.step, h]

theorem step_idle_skip (h : r.state = .idle) (hu : u ≠ Config.frameStart) : r.step depth u = (r, .none) := by
  simp [Receiver.step, h, hu]

theorem step_collecting_byte (h : r.state = .collecting) (hu : u ≠ Config.frameEnd) (hroom : r.buf.length < depth) :
    r.step depth u = (⟨.collecting, r.buf ++ [u]⟩, .none) := by
  simp [Receiver.step, h, hu, hroom]

theorem step_collecting_full (h : r.state = .collecting) (hu : u ≠ Config.frameEnd) (hfull : depth ≤ r.buf.length) :
    r.step depth u = (⟨.overrun, []⟩, .error .ovf) := by
  simp [Receiver.step, h, hu, hfull.not_gt]

theorem step_collecting_close (h : r.state = .collecting) :
    r.step depth Config.frameEnd = (⟨.idle, []⟩, frameClose r.buf) := by
  simp [Receiver.step, h]

theorem step_overrun_end (h : r.state = .overrun) : r.step depth Config.frameEnd = (⟨.idle, r.buf⟩, .none) := by
  simp [Receiver.step, h]

theorem step_overrun_skip (h : r.state = .overrun) (hu : u ≠ Config.frameEnd) : r.step depth u = (r, .none) := by
  simp [Receiver.step, h, hu]

end

/-! ### The ways a frame closes -/

theorem frameClose_short {buf : List Byte} (h : buf.length ≤ 1) : frameClose buf = .error .short := if_pos h

/-- A close with two bytes or more compares the last with the checksum over the others (42_frame_rx.md R145). -/
theorem frameClose_concat {body : List Byte} (h : body ≠ []) (c : Byte) :
    frameClose (body ++ [c]) =
      if checksum (Config.frameStart :: body) = c then .frame body else .error .ckerr := by
  have hlen : ¬ (body ++ [c]).length ≤ 1 := by simpa using h
  rw [frameClose, if_neg hlen, List.dropLast_concat, List.getLastD_concat]

/-- What a well-formed receiver has collected before its last byte is a frame `FRO` may hold (10_state.md R32). -/
theorem frameOk_of_collected {depth : Nat} {st : FrState} {body : List Byte} {c : Byte} (hne : body ≠ [])
    (h : Receiver.Wf depth ⟨st, body ++ [c]⟩) : FrameOk depth body := by
  obtain ⟨hlen, -, hend⟩ := h
  have hlen : body.length + 1 ≤ depth := by simpa using hlen
  exact ⟨List.length_pos_iff.2 hne, by omega, fun hmem => hend (List.mem_append_left _ hmem)⟩

/-! ### `FR.PUSH` by the receiver's own step -/

section
variable {s : State} {u : Byte} {r : Receiver}

theorem held_frPush_iff_frames : held (.frPush u) s = false ↔
    (s.fr.step s.params.frDepth u).2.frames.length ≤ s.fro.free s.params.froDepth := by
  rw [held_frPush, framesClosed_cons, framesClosed_nil, Nat.add_zero]

/-- `FR.PUSH` with room for the frame it may close does what the receiver's step says (42_frame_rx.md R140, R149). -/
theorem exec_frPush_accepted {e : RxEvent} (h : s.fr.step s.params.frDepth u = (r, e))
    (hroom : e.frames.length ≤ s.fro.free s.params.froDepth) :
    exec (.frPush u) s =
      .next { s with fr := r, fro := s.fro.append e.frames, status := s.status ||| e.bits, port := none } := by
  have hh : held (.frPush u) s = false := by rwa [held_frPush_iff_frames, h]
  rw [exec_accepted hh, effect, frStep_eq, release_fr, release_params, h]
  rfl

theorem exec_frPush_silent (h : s.fr.step s.params.frDepth u = (r, .none)) :
    exec (.frPush u) s = .next { s with fr := r, port := none } := by
  simpa [RxEvent.frames, RxEvent.bits] using exec_frPush_accepted h (Nat.zero_le _)

theorem exec_frPush_error {b : StatusBit} (h : s.fr.step s.params.frDepth u = (r, .error b)) :
    exec (.frPush u) s = .next { s with fr := r, status := s.status ||| b.mask, port := none } := by
  simpa [RxEvent.frames, RxEvent.bits] using exec_frPush_accepted h (Nat.zero_le _)

theorem exec_frPush_frame {f : List Byte} (h : s.fr.step s.params.frDepth u = (r, .frame f))
    (hroom : 1 ≤ s.fro.free s.params.froDepth) :
    exec (.frPush u) s = .next { s with fr := r, fro := s.fro.append [f], port := none } := by
  simpa [RxEvent.frames, RxEvent.bits] using exec_frPush_accepted h hroom

/-- `FR.PUSH` of a value that closes a valid frame is held while `FRO` is full (42_frame_rx.md R149). -/
theorem exec_frPush_frame_held {f : List Byte} (h : s.fr.step s.params.frDepth u = (r, .frame f))
    (hfull : s.fro.free s.params.froDepth = 0) : exec (.frPush u) s = .next s := by
  refine exec_of_not held_frPush_iff_frames ?_
  rw [h, hfull]
  exact Nat.not_succ_le_zero 0

end

/-- Settles O48: each arm's equation, given to `exec_frPush_silent` or, for the overrun, to `exec_frPush_error`. -/
theorem receiverArms : Obligations.ReceiverArms :=
  ⟨fun u => encode_eq_or (.frPush u) .frPush rfl (by decide),
    fun _ h => exec_frPush_silent (step_idle_start h),
    fun _ _ h hu => exec_frPush_silent (step_idle_skip h hu),
    fun _ _ h hu hroom => exec_frPush_silent (step_collecting_byte h hu hroom),
    fun _ _ h hu hfull => exec_frPush_error (step_collecting_full h hu hfull.ge),
    fun _ h => exec_frPush_silent (step_overrun_end h),
    fun _ _ h hu => exec_frPush_silent (step_overrun_skip h hu)⟩

/-! ### Values given one `FR.PUSH` each -/

/-- With room for the frames they close, values pushed one by one are accepted whole (42_frame_rx.md R149). -/
theorem acceptAll_frPush {us : List Byte} {s : State} (hp : s.port = none)
    (hroom : s.fr.framesClosed s.params.frDepth us ≤ s.fro.free s.params.froDepth) :
    acceptAll (us.map .frPush) s = some (s.frSteps us) := by
  induction us generalizing s with
  | nil => rfl
  | cons u us ih =>
    rw [framesClosed_cons] at hroom
    have hh : held (.frPush u) s = false := held_frPush_iff_frames.2 (by omega)
    have hrest : (s.frStep u).fr.framesClosed (s.frStep u).params.frDepth us ≤
        (s.frStep u).fro.free (s.frStep u).params.froDepth := by
      rw [frStep_eq]
      simp only [Fifo.free, append_entries, List.length_append] at hroom ⊢
      omega
    rw [List.map_cons, acceptAll_cons, hh, release_of_port hp, frSteps_cons]
    exact ih ((frStep_port s u).trans hp) hrest

/-- From reset, with room for the frames they close, values pushed one by one leave the receiver and `FRO` as
`Receiver.run` says. -/
theorem frPush_fromReset {us : List Byte} {p : Params} {r : Receiver} {frames : List (List Byte)} {bits : BitVec 5}
    (hrun : Receiver.run p.frDepth ⟨.idle, []⟩ us = (r, frames, bits)) (hroom : frames.length ≤ p.froDepth) :
    ∃ t, acceptAll (us.map .frPush) (State.resetWith p) = some t ∧ t.fr = r ∧ t.fro.entries = frames := by
  have hclosed : Receiver.framesClosed p.frDepth ⟨.idle, []⟩ us ≤ p.froDepth := by
    rwa [← run_frames_length, hrun]
  have hreset : (State.resetWith p).fr.run (State.resetWith p).params.frDepth us = (r, frames, bits) := hrun
  have haccept := acceptAll_frPush (s := State.resetWith p) rfl hclosed
  rw [frSteps_eq_run, hreset] at haccept
  exact ⟨_, haccept, rfl, rfl⟩

/-- `FR_ST` shows the receiver's state above its length (10_state.md R33). -/
theorem readReg_fr {s : State} {r : Receiver} (h : s.fr = r) :
    s.readReg 5 = 0#6 ++ r.state.code ++ BitVec.ofNat 8 r.buf.length := by
  have hreg : s.readReg 5 = s.frSt := rfl
  rw [hreg, State.frSt, h]

/-! ### A whole frame -/

/-- Bytes that fit the buffer are collected, the frame start byte among them (42_frame_rx.md R143). -/
theorem run_collecting {depth : Nat} {us : List Byte} (hne : ∀ u ∈ us, u ≠ Config.frameEnd) (buf : List Byte)
    (hroom : buf.length + us.length ≤ depth) :
    Receiver.run depth ⟨.collecting, buf⟩ us = (⟨.collecting, buf ++ us⟩, [], 0) := by
  induction us generalizing buf with
  | nil => simp [Receiver.run]
  | cons u us ih =>
    obtain ⟨hu, hus⟩ := List.forall_mem_cons.1 hne
    rw [List.length_cons] at hroom
    have hstep : Receiver.step depth ⟨.collecting, buf⟩ u = (⟨.collecting, buf ++ [u]⟩, .none) :=
      step_collecting_byte rfl hu (show buf.length < depth by omega)
    have hrest := ih hus (buf ++ [u]) (by simp; omega)
    simp [Receiver.run, hstep, hrest, RxEvent.frames, RxEvent.bits]

theorem run_append (depth : Nat) (r : Receiver) (us vs : List Byte) :
    r.run depth (us ++ vs) =
      (((r.run depth us).1.run depth vs).1, (r.run depth us).2.1 ++ ((r.run depth us).1.run depth vs).2.1,
        (r.run depth us).2.2 ||| ((r.run depth us).1.run depth vs).2.2) := by
  induction us generalizing r with
  | nil => simp [Receiver.run]
  | cons u us ih => simp [Receiver.run, ih, BitVec.or_assoc]

/-- An idle receiver opens a frame at the frame start byte and collects what follows (42_frame_rx.md R141, R143). -/
theorem run_open {depth : Nat} {r : Receiver} {us : List Byte} (h : r.state = .idle)
    (hne : ∀ u ∈ us, u ≠ Config.frameEnd) (hroom : us.length ≤ depth) :
    r.run depth (Config.frameStart :: us) = (⟨.collecting, us⟩, [], 0) := by
  have hrest := run_collecting hne [] (by simpa using hroom)
  simp [Receiver.run, step_idle_start h, hrest, RxEvent.frames, RxEvent.bits]

/-- A whole frame given to an idle receiver brings about what its close does (42_frame_rx.md R144). -/
theorem run_wholeFrame {depth : Nat} {r : Receiver} {us : List Byte} (h : r.state = .idle)
    (hne : ∀ u ∈ us, u ≠ Config.frameEnd) (hroom : us.length ≤ depth) :
    r.run depth (Config.frameStart :: us ++ [Config.frameEnd]) =
      (⟨.idle, []⟩, (frameClose us).frames, (frameClose us).bits) := by
  rw [run_append, run_open h hne hroom]
  simp [Receiver.run, step_collecting_close]

/-- Settles O49: the three outcomes of `frameClose`, and for the example the whole frame of `run_wholeFrame`. -/
theorem frameCloses : Obligations.FrameClose := by
  refine ⟨fun s h hlen => ?short, fun body c s hfr hne => ⟨fun hck hroom => ?valid, ?fits, fun hck hfull => ?full,
    fun hck => ?mismatch⟩, fun p hdepth hp => ?fromReset⟩
  case short => exact exec_frPush_error ((step_collecting_close h).trans (by rw [frameClose_short hlen]))
  case fits =>
    rw [hfr]
    exact frameOk_of_collected hne
  case fromReset =>
    obtain ⟨-, -, -, -, hfro, -⟩ := hp
    have hclose : frameClose [5, 1, 2, 14] = .frame [5, 1, 2] := by decide
    have hrun := run_wholeFrame (depth := p.frDepth) (r := ⟨.idle, []⟩) (us := [5, 1, 2, 14]) rfl (by decide) hdepth
    rw [hclose] at hrun
    obtain ⟨t, ht, hreceiver, hframes⟩ := frPush_fromReset hrun hfro
    refine (congrArg (Option.map _) ht).trans ?_
    rw [Option.map_some, hframes, readReg_fr hreceiver]
    decide
  all_goals
    have hstep := step_collecting_close (depth := s.params.frDepth) (r := s.fr) (by rw [hfr])
    rw [hfr, frameClose_concat hne, ← hfr] at hstep
  case valid => exact exec_frPush_frame (hstep.trans (congrArg _ (if_pos hck))) hroom
  case full => exact exec_frPush_frame_held (hstep.trans (congrArg _ (if_pos hck))) hfull
  case mismatch => exact exec_frPush_error (hstep.trans (congrArg _ (if_neg hck)))

/-- Settles O50: `FR.ABORT` is never held, and before it the example's frame is open. -/
theorem frAbort : Obligations.FrAbort := by
  refine ⟨by decide, fun s => exec_accepted (held_frAbort s), fun p hp => ?_⟩
  obtain ⟨hdepth, -⟩ := hp
  have hrun := run_open (depth := p.frDepth) (r := ⟨.idle, []⟩) (us := [5]) rfl (by decide) (by simp; omega)
  obtain ⟨t, ht, hreceiver, hframes⟩ := frPush_fromReset hrun (Nat.zero_le _)
  have habort : acceptAll [.frPush 2, .frPush 5, .frAbort] (State.resetWith p) = acceptAll [.frAbort] t :=
    (acceptAll_append ([2, 5].map .frPush) [.frAbort] _).trans (congrArg (Option.bind · _) ht)
  constructor
  · refine (congrArg (Option.map _) ht).trans ?_
    rw [Option.map_some, readReg_fr hreceiver]
    decide
  · rw [habort, acceptAll_cons, held_frAbort, if_neg Bool.false_ne_true, acceptAll_nil, Option.map_some, effect,
      readReg_fr (r := ⟨.idle, []⟩) rfl, release_fro, hframes]
    decide

/-! ### How little one command and one value bring about -/

theorem demand_fro_le_one (i : Instr) (s : State) : (demand i s).fro ≤ 1 := by
  cases i with
  | rxPush b =>
    refine framesClosed_le_one _ _ _ ?_
    rw [unpackStep_length]
    split <;> omega
  | rxEnd f =>
    refine framesClosed_le_one _ _ _ ?_
    rw [unpackEnd_length]
    split <;> omega
  | frPush u => exact framesClosed_le_one _ _ [u] (by simp)
  | _ => exact Nat.zero_le 1

/-- One value sets no STATUS bit or one of `CKERR`, `SHORT` and `OVF` (42_frame_rx.md R153). -/
theorem step_bits_cases (depth : Nat) (r : Receiver) (u : Byte) :
    (r.step depth u).2.bits = 0 ∨ (r.step depth u).2.bits = StatusBit.ckerr.mask ∨
      (r.step depth u).2.bits = StatusBit.short.mask ∨ (r.step depth u).2.bits = StatusBit.ovf.mask := by
  by_cases hu : u = Config.frameEnd
  · subst hu
    cases hst : r.state with
    | idle => simp [step_idle_skip hst (show Config.frameEnd ≠ Config.frameStart by decide), RxEvent.bits]
    | collecting =>
      rcases frameClose_cases r.buf with ⟨-, h⟩ | ⟨-, h⟩ | ⟨-, h⟩ <;> simp [step_collecting_close hst, h, RxEvent.bits]
    | overrun => simp [step_overrun_end hst, RxEvent.bits]
  · rcases step_of_ne_frameEnd depth r hu with h | h <;> simp [h, RxEvent.bits]

/-- Settles O51: a command appends to `FRO` what its demand counts, at most one frame; a value's STATUS bits are those
of `step_bits_cases`. -/
theorem oneFramePerCommand : Obligations.OneFramePerCommand := by
  refine ⟨fun i s t h => ?frames, fun s u => ?bits⟩
  case frames =>
    rcases exec_next_iff.1 h with ⟨-, rfl⟩ | ⟨-, rfl⟩
    · exact ⟨[], (List.append_nil _).symm, Nat.zero_le 1⟩
    · obtain ⟨-, -, ⟨fs, hfro, hlen⟩, -⟩ := effect_growsBy_demand i s.release
      exact ⟨fs, congrArg Fifo.entries hfro, hlen.trans_le (demand_fro_le_one i _)⟩
  case bits =>
    rw [frStep_eq]
    rcases step_bits_cases s.params.frDepth s.fr u with h | h | h | h <;> simp only [h]
    · exact .inl BitVec.or_zero
    · exact .inr (.inl rfl)
    · exact .inr (.inr (.inl rfl))
    · exact .inr (.inr (.inr rfl))

end Sys2Proof.Machine

namespace Sys2Proof.Machine

/-!
PROOFS. The frame transmitter (43_frame_tx.md). While a frame is open, `FT.x` is the fold of the bytes sent since
`FT.START` and `FTO` has grown by those bytes, whatever other units do; the start, each payload byte and the end keep
this (`effect_ftStart_closed`, `effect_ftData_append`, `effect_ftEnd_append`). The loopback then gives the bytes sent to
the packer and, by the round trips of 40_bitpack.md, to the receiver.
-/

/-! ### The bytes of an outbound frame -/

theorem xorfold_concat (w : List Byte) (b : Byte) : xorfold (w ++ [b]) = xorfold w ^^^ b := List.foldl_concat ..

theorem xorfold_singleton (b : Byte) : xorfold [b] = b := BitVec.zero_xor

/-- An outbound frame is the bytes its checksum covers, then the checksum and the end marker (43_frame_tx.md R170). -/
theorem outboundFrame_eq (txform : Bool) (id : Byte) (p : List Byte) :
    outboundFrame txform id p =
      coveredBytes txform id p ++ [checksum (coveredBytes txform id p), Config.frameEnd] := by cases txform <;> rfl

/-- The payload follows the bytes of `FT.START` (43_frame_tx.md R170). -/
theorem coveredBytes_eq_append (txform : Bool) (id : Byte) (p : List Byte) :
    coveredBytes txform id p = coveredBytes txform id [] ++ p := by cases txform <;> rfl

theorem coveredBytes_nil_length (txform : Bool) (id : Byte) :
    (coveredBytes txform id []).length = if txform then 2 else 1 := by cases txform <;> rfl

theorem append_append {α : Type} (q : Fifo α) (vs ws : List α) : (q.append vs).append ws = q.append (vs ++ ws) := by
  simp [Fifo.append]

/-! ### The transmitter's commands on a frame -/

section
variable {s : State} {q : Fifo Byte} {w : List Byte}

/-- With no frame open, `FT.START` sends the bytes that come before the payload (43_frame_tx.md R171). -/
theorem effect_ftStart_closed {id : Byte} {form : Bool} (hft : s.ft.opened = false) (hform : s.txform = form) :
    effect (.ftStart id) s.release =
      { s with
        ft := ⟨true, xorfold (coveredBytes form id [])⟩
        fto := s.fto.append (coveredBytes form id []), port := none } := by
  cases form
  · rw [effect_ftStart_plain (s := s.release) hft hform, coveredBytes, if_neg Bool.false_ne_true, xorfold_singleton]
    rfl
  · rw [effect_ftStart_framed (s := s.release) hft hform, coveredBytes, if_pos rfl, xorfold_cons, xorfold_singleton]
    rfl

/-- `FT.DATA` sends one more byte of the frame (43_frame_tx.md R172). -/
theorem effect_ftData_append (b : Byte) (hft : s.ft = ⟨true, xorfold w⟩) (hfto : s.fto = q.append w) :
    effect (.ftData b) s.release =
      { s with ft := ⟨true, xorfold (w ++ [b])⟩, fto := q.append (w ++ [b]), port := none } := by
  rw [effect_ftData_open (s := s.release) (congrArg _ hft), xorfold_concat, ← append_append, ← hfto, release_ft, hft]
  rfl

/-- `FT.END` sends the checksum of the bytes sent and the end marker (43_frame_tx.md R173). -/
theorem effect_ftEnd_append (hft : s.ft = ⟨true, xorfold w⟩) (hfto : s.fto = q.append w) :
    effect .ftEnd s.release =
      { s with
        ft := ⟨false, xorfold w⟩
        fto := q.append (w ++ [checksum w, Config.frameEnd]), port := none } := by
  rw [effect_ftEnd_open (s := s.release) (congrArg _ hft), ← append_append, ← hfto, release_ft, hft]
  rfl

end

/-! ### Frames among other units' commands -/

/-- What every command of a sequence keeps, the sequence keeps. -/
theorem acceptAll_keeps {α : Type} {field : State → α} {cs : List Instr} {s t : State}
    (hkeep : ∀ i ∈ cs, ∀ u, field (effect i u.release) = field u) (h : acceptAll cs s = some t) :
    field t = field s := by
  induction cs generalizing s with
  | nil =>
    obtain rfl : s = t := by simpa using h
    rfl
  | cons i cs ih =>
    obtain ⟨hi, hcs⟩ := List.forall_mem_cons.1 hkeep
    obtain ⟨-, hrest⟩ := acceptAll_cons_eq_some.1 h
    exact (ih hcs hrest).trans (hi s)

/-- Commands of other units but `SYS.SRESET` leave the transmitter and `FTO` alone (10_state.md R30, R32). -/
theorem effect_of_not_isFt {i : Instr} (hi : i.isFt = false) (hreset : i ≠ .sysSreset) (s : State) :
    (effect i s).ft = s.ft ∧ (effect i s).fto = s.fto := by
  obtain ⟨-, -, -, -, -, -, hft, -⟩ := effect_units_frame i s
  obtain ⟨-, -, -, hgrows⟩ := effect_growsBy_demand i s
  obtain ⟨-, -, -, hdemand⟩ := demand_of_not_writes i s
  obtain ⟨-, -, hfto⟩ := growsBy_frame hgrows hdemand
  have hop : i.op ≠ .sysSreset := by
    cases i with
    | sysSreset => contradiction
    | _ => simp [Instr.op]
  exact ⟨hft.resolve_right (by simp [hi, hop]), hfto.resolve_right (by simp [Instr.writes, hi])⟩

/-- The payload and the end of an open frame send the rest of it, other units' commands between them or not
(43_frame_tx.md R174). -/
theorem acceptAll_payload {cs : List Instr} {p w : List Byte} {q : Fifo Byte} {s t : State}
    (hft : s.ft = ⟨true, xorfold w⟩) (hfto : s.fto = q.append w)
    (hcs : cs.filter Instr.isFt = p.map .ftData ++ [.ftEnd]) (hreset : .sysSreset ∉ cs)
    (h : acceptAll cs s = some t) :
    t.ft = ⟨false, xorfold (w ++ p)⟩ ∧ t.fto = q.append (w ++ p ++ [checksum (w ++ p), Config.frameEnd]) := by
  induction cs generalizing s w p with
  | nil => simp at hcs
  | cons i cs ih =>
    obtain ⟨hi, hrest⟩ := List.ne_and_not_mem_of_not_mem_cons hreset
    obtain ⟨-, h⟩ := acceptAll_cons_eq_some.1 h
    cases hown : i.isFt with
    | false =>
      rw [List.filter_cons_of_neg (by simp [hown])] at hcs
      obtain ⟨kft, kfto⟩ := effect_of_not_isFt hown (Ne.symm hi) s.release
      exact ih (kft.trans hft) (kfto.trans hfto) hcs hrest h
    | true =>
      rw [List.filter_cons_of_pos hown] at hcs
      cases p with
      | nil =>
        obtain ⟨rfl, hothers⟩ := List.cons.inj hcs
        rw [effect_ftEnd_append hft hfto] at h
        have hkeep := acceptAll_keeps (field := fun u => (u.ft, u.fto)) (fun j hj u => ?_) h
        · obtain ⟨kft, kfto⟩ := Prod.mk.inj hkeep
          simp [kft, kfto]
        · have hj' : j.isFt = false := by simpa using List.filter_eq_nil_iff.1 hothers j hj
          obtain ⟨kft, kfto⟩ := effect_of_not_isFt hj' (fun e => hrest (e ▸ hj)) u.release
          exact Prod.ext kft kfto
      | cons b p =>
        obtain ⟨rfl, hpayload⟩ := List.cons.inj hcs
        rw [effect_ftData_append b hft hfto] at h
        simpa using ih rfl rfl hpayload hrest h

/-! ### A frame by itself -/

theorem acceptAll_cons_of_room {i : Instr} {s : State} (cs : List Instr) (hh : held i s = false) :
    acceptAll (i :: cs) s = acceptAll cs (effect i s.release) := by
  rw [acceptAll_cons, hh, if_neg Bool.false_ne_true]

/-- `FT.START` with no frame open and room for its bytes is accepted (43_frame_tx.md R171). -/
theorem acceptAll_ftStart (id : Byte) (cs : List Instr) {form : Bool} {s : State} (hft : s.ft.opened = false)
    (hform : s.txform = form) (hroom : (coveredBytes form id []).length ≤ s.fto.free s.params.ftoDepth) :
    acceptAll (.ftStart id :: cs) s =
      acceptAll cs
        { s with
          ft := ⟨true, xorfold (coveredBytes form id [])⟩
          fto := s.fto.append (coveredBytes form id []), port := none } := by
  have hh : held (.ftStart id) s = false := by
    rw [held_ftStart, hft, if_neg Bool.false_ne_true, hform, ← coveredBytes_nil_length form id]
    exact hroom
  rw [acceptAll_cons_of_room cs hh, effect_ftStart_closed hft hform]

/-- `FT.DATA` on an open frame with room for its byte is accepted (43_frame_tx.md R172). -/
theorem acceptAll_ftData (b : Byte) (cs : List Instr) {w : List Byte} {q : Fifo Byte} {s : State}
    (hft : s.ft = ⟨true, xorfold w⟩) (hfto : s.fto = q.append w) (hroom : 1 ≤ s.fto.free s.params.ftoDepth) :
    acceptAll (.ftData b :: cs) s =
      acceptAll cs { s with ft := ⟨true, xorfold (w ++ [b])⟩, fto := q.append (w ++ [b]), port := none } := by
  have hh : held (.ftData b) s = false := by simpa [held_ftData, hft] using hroom
  rw [acceptAll_cons_of_room cs hh, effect_ftData_append b hft hfto]

/-- The whole next state of the payload and the end of an open frame, with room for them. -/
theorem acceptAll_payload_of_room (p : List Byte) {w : List Byte} {q : Fifo Byte} {s : State}
    (hft : s.ft = ⟨true, xorfold w⟩) (hfto : s.fto = q.append w)
    (hroom : p.length + 2 ≤ s.fto.free s.params.ftoDepth) :
    acceptAll (p.map .ftData ++ [.ftEnd]) s =
      some { s with
        ft := ⟨false, xorfold (w ++ p)⟩
        fto := q.append (w ++ p ++ [checksum (w ++ p), Config.frameEnd]), port := none } := by
  induction p generalizing s w with
  | nil =>
    have hh : held .ftEnd s = false := by simpa [held_ftEnd, hft] using hroom
    rw [List.map_nil, List.nil_append, acceptAll_cons_of_room [] hh, effect_ftEnd_append hft hfto, acceptAll_nil,
      List.append_nil]
  | cons b p ih =>
    rw [List.length_cons] at hroom
    rw [List.map_cons, List.cons_append, acceptAll_ftData b _ hft hfto (by omega), ih rfl rfl ?_]
    · simp
    · rw [hfto] at hroom
      simp only [Fifo.free, append_entries, List.length_append, List.length_singleton] at hroom ⊢
      omega

/-- The whole next state of an outbound frame, with room for it (43_frame_tx.md R174). -/
theorem acceptAll_txframeCommands (id : Byte) (p : List Byte) {form : Bool} {s : State} (hft : s.ft.opened = false)
    (hform : s.txform = form) (hroom : (outboundFrame form id p).length ≤ s.fto.free s.params.ftoDepth) :
    acceptAll (txframeCommands id p) s =
      some { s with
        ft := ⟨false, xorfold (coveredBytes form id p)⟩
        fto := s.fto.append (outboundFrame form id p), port := none } := by
  rw [outboundFrame_eq, coveredBytes_eq_append] at hroom ⊢
  simp only [List.length_append, List.length_cons, List.length_nil] at hroom
  rw [txframeCommands, List.cons_append, acceptAll_ftStart id _ hft hform (by omega),
    acceptAll_payload_of_room p rfl rfl]
  simp only [Fifo.free, append_entries, List.length_append] at hroom ⊢
  omega

/-- Settles O55: the bytes of `FT.START` are the start of the frame that `acceptAll_payload` completes. -/
theorem txFrame : Obligations.TxFrame := by
  refine ⟨fun cs id p s t hft hcs hreset h => ?_, fun id p s hft hroom => ?_⟩
  · obtain ⟨-, h⟩ := acceptAll_cons_eq_some.1 h
    rw [effect_ftStart_closed hft rfl] at h
    obtain ⟨ht, hfto⟩ := acceptAll_payload rfl rfl hcs hreset h
    rw [← coveredBytes_eq_append, ← outboundFrame_eq] at hfto
    rw [← coveredBytes_eq_append] at ht
    simp [ht, hfto]
  · exact ⟨_, acceptAll_txframeCommands id p hft rfl hroom⟩

/-! ### Single commands -/

/-- `FT_ST` shows whether a frame is open above `FT.x` (10_state.md R33). -/
theorem readReg_ft (s : State) : s.readReg 6 = 0#7 ++ BitVec.ofBool s.ft.opened ++ s.ft.x := rfl

theorem resetWith_txform (p : Params) : (State.resetWith p).txform = false :=
  (by decide : (0 : BitVec 2).getLsbD 1 = false)

/-- Settles O52: the two forms of the start and the `SEQ` case under the hold of `held_ftStart`. -/
theorem ftStart : Obligations.FtStart := by
  refine ⟨fun i => encode_eq_or (.ftStart i) .ftStart rfl (by decide), fun i s ho => ?seq,
    fun i s ho hx hfree => ?plain, fun i s ho hx hfree => ?framed, fun i s ho hfull => ?held, fun p hp => ?fromReset⟩
  case seq =>
    have hh : held (.ftStart i) s = false := by simp [held_ftStart, ho]
    rw [exec_accepted hh, effect_ftStart_seq (s := s.release) ho]
    rfl
  case plain =>
    have hh : held (.ftStart i) s = false := by simpa [held_ftStart, ho, hx] using hfree
    rw [exec_accepted hh, effect_ftStart_plain (s := s.release) ho hx]
    rfl
  case framed =>
    have hh : held (.ftStart i) s = false := by simpa [held_ftStart, ho, hx] using hfree
    rw [exec_accepted hh, effect_ftStart_framed (s := s.release) ho hx]
    rfl
  case held => exact exec_of_not (held_ftStart s i) (by rw [ho, if_neg Bool.false_ne_true]; omega)
  case fromReset =>
    obtain ⟨-, -, -, -, -, hroom⟩ := hp
    constructor
    · have hone : 1 ≤ p.ftoDepth := by omega
      have hstart := acceptAll_ftStart 5 [] (s := State.resetWith p) rfl (resetWith_txform p) hone
      have hopen : (coveredBytes false 5 [], (0#7 ++ BitVec.ofBool true ++ xorfold [5] : Word)) = ([5], 0x0105) :=
        by decide
      exact (congrArg (Option.map _) hstart).trans (congrArg some hopen)
    · have hctrl := acceptAll_cons_of_room [.ftStart 5] (held_sysWrctrl (State.resetWith p) 2)
      have hform : State.txform { State.resetWith p with ctrl := 2 } = true :=
        (by decide : (2 : BitVec 2).getLsbD 1 = true)
      have hstart := acceptAll_ftStart 5 [] (s := { State.resetWith p with ctrl := 2 }) rfl hform hroom
      have hopen : (coveredBytes true 5 [], (0#7 ++ BitVec.ofBool true ++ xorfold [2, 5] : Word)) = ([2, 5], 0x0107) :=
        by decide
      exact (congrArg (Option.map _) (hctrl.trans hstart)).trans (congrArg some hopen)

/-- Settles O53: the payload byte and the `SEQ` case under the hold of `held_ftData`. -/
theorem ftData : Obligations.FtData := by
  refine ⟨fun b => encode_eq_or (.ftData b) .ftData rfl (by decide), fun b s ho => ?seq, fun b s ho hfree => ?sent,
    fun b s ho hfull => ?held, fun p hp => ?fromReset⟩
  case seq =>
    have hh : held (.ftData b) s = false := by simp [held_ftData, ho]
    rw [exec_accepted hh, effect_ftData_seq (s := s.release) ho]
    rfl
  case sent =>
    have hh : held (.ftData b) s = false := by simpa [held_ftData, ho] using hfree
    rw [exec_accepted hh, effect_ftData_open (s := s.release) ho, release_ft]
    simp only [ho]
    rfl
  case held => exact exec_of_not (held_ftData s b) (by simp [ho, hfull])
  case fromReset =>
    obtain ⟨-, -, -, -, -, hroom⟩ := hp
    have hfirst : 1 ≤ p.ftoDepth := by omega
    have hsecond : 1 ≤ p.ftoDepth - 1 := by omega
    have hstart := acceptAll_ftStart 5 [.ftData 65] (s := State.resetWith p) rfl (resetWith_txform p) hfirst
    have hdata := hstart.trans (acceptAll_ftData 65 [] rfl rfl hsecond)
    have hopen : (coveredBytes false 5 [65], (0#7 ++ BitVec.ofBool true ++ xorfold [5, 65] : Word)) =
        ([5, 65], 0x0144) := by decide
    exact (congrArg (Option.map _) hdata).trans (congrArg some hopen)

/-- Settles O54: the end of a frame and the `SEQ` case under the hold of `held_ftEnd`; the examples are whole frames. -/
theorem ftEnd : Obligations.FtEnd := by
  refine ⟨by decide, fun s ho => ?seq, fun s ho hfree => ?sent, fun s ho hfull => ?held, fun x => ?range,
    fun i p _ hroom => ?empty, fun p _ hroom => ?fromReset⟩
  case seq =>
    have hh : held .ftEnd s = false := by simp [held_ftEnd, ho]
    rw [exec_accepted hh, effect_ftEnd_seq (s := s.release) ho]
    rfl
  case sent =>
    have hh : held .ftEnd s = false := by simpa [held_ftEnd, ho] using hfree
    rw [exec_accepted hh, effect_ftEnd_open (s := s.release) ho]
    rfl
  case held => exact exec_of_not (held_ftEnd s) (by simpa [ho] using hfull)
  case range =>
    have hlt := x.isLt
    rw [ck10_toNat]
    split <;> omega
  case empty =>
    have hframe := acceptAll_txframeCommands i [] (s := State.resetWith p) rfl (resetWith_txform p) hroom
    exact congrArg (Option.map _) hframe
  case fromReset =>
    have hframe := acceptAll_txframeCommands 5 [65] (s := State.resetWith p) rfl (resetWith_txform p) hroom
    have hend : (outboundFrame false 5 [65], (0#7 ++ BitVec.ofBool false ++ xorfold [5, 65] : Word)) =
        ([5, 65, 68, 3], 0x0044) := by decide
    exact (congrArg (Option.map _) hframe).trans (congrArg some hend)

/-! ### The loopback -/

/-- The framed outbound form as the receiver sees it: start, id, payload, checksum and end (43_frame_tx.md R170). -/
theorem outboundFrame_framed (id : Byte) (p : List Byte) :
    outboundFrame true id p =
      Config.frameStart :: (id :: p ++ [checksum (Config.frameStart :: id :: p)]) ++ [Config.frameEnd] := by
  simp [outboundFrame]

theorem outboundFrame_length (id : Byte) (p : List Byte) : (outboundFrame true id p).length = p.length + 4 := by
  simp [outboundFrame]

/-- The bytes between the delimiters of a frame of bytes below 128 other than 3 are of that kind too (41_checksum.md
R131). -/
theorem framed_bytes {id : Byte} {p : List Byte} (h : ∀ b ∈ id :: p, b.toNat < 128 ∧ b ≠ 3) :
    ∀ b ∈ id :: p ++ [checksum (Config.frameStart :: id :: p)], b.toNat < 128 ∧ b ≠ Config.frameEnd := by
  obtain ⟨-, -, -, hbelow, -, hdelimiter, -⟩ := checksumFunction
  obtain ⟨-, hne⟩ := hdelimiter (Config.frameStart :: id :: p)
  have hlt := hbelow (Config.frameStart :: id :: p)
    (List.forall_mem_cons.2 ⟨by decide, fun b hb => (h b hb).1⟩)
  exact List.forall_mem_append.2 ⟨h, List.forall_mem_singleton.2 ⟨by omega, hne⟩⟩

/-- A frame of bytes below 128 is its data bits with tag 0 (40_bitpack.md R108). -/
theorem outboundFrame_dataBits {id : Byte} {p : List Byte} (h : ∀ b ∈ id :: p, b.toNat < 128 ∧ b ≠ 3) :
    outboundFrame true id p = ((outboundFrame true id p).map dataBits).map (BitVec.ofBool false ++ ·) := by
  have hbit : ∀ b : Byte, b.toNat < 128 → b.getLsbD 7 = false := by decide
  refine eq_map_dataBits fun b hb => hbit b ?_
  rw [outboundFrame_framed, List.mem_append, List.mem_cons, List.mem_singleton] at hb
  rcases hb with (rfl | hb) | rfl
  · decide
  · exact (framed_bytes h b hb).1
  · decide

/-- The receiver's values of a frame packed and unpacked with flush: the frame, and a 0 after it at most
(40_bitpack.md R115). -/
theorem unpack_pack_flushed {id : Byte} {p : List Byte} (h : ∀ b ∈ id :: p, b.toNat < 128 ∧ b ≠ 3) :
    ∃ pad, unpack8to7 (pack7to8 ((outboundFrame true id p).map dataBits) true) true false =
        outboundFrame true id p ++ pad ∧ (pad = [] ∨ pad = [0]) := by
  rw [roundTripFlush, ← outboundFrame_dataBits h]
  refine ⟨_, rfl, ?_⟩
  split
  · exact .inl rfl
  · exact .inr rfl

/-- A framed frame given to an idle receiver with room for it closes as its id and payload (42_frame_rx.md R147). -/
theorem run_outboundFrame {depth : Nat} {r : Receiver} {id : Byte} {p : List Byte}
    (h : ∀ b ∈ id :: p, b.toNat < 128 ∧ b ≠ 3) (hroom : p.length + 2 ≤ depth) (hr : r.state = .idle) :
    r.run depth (outboundFrame true id p) = (⟨.idle, []⟩, [id :: p], 0) := by
  have hne := fun b hb => (framed_bytes h b hb).2
  rw [outboundFrame_framed, run_wholeFrame hr hne (by simpa [Nat.succ_le_iff] using hroom),
    frameClose_concat (by simp), if_pos rfl]
  rfl

/-- An idle receiver skips a 0 after the frame (42_frame_rx.md R141). -/
theorem run_idle_pad {depth : Nat} {pad : List Byte} (hpad : pad = [] ∨ pad = [0]) :
    Receiver.run depth ⟨.idle, []⟩ pad = (⟨.idle, []⟩, [], 0) := by
  have hskip : Receiver.step depth ⟨.idle, []⟩ 0#8 = (⟨.idle, []⟩, .none) := step_idle_skip rfl (by decide)
  rcases hpad with rfl | rfl
  · rfl
  · simp [Receiver.run, hskip, RxEvent.frames, RxEvent.bits]

/-- Commands of `PK` change the packer and `PKO` alone (10_state.md R25, R32). -/
theorem acceptAll_pk_frame {cs : List Instr} {s t : State} (hpk : ∀ i ∈ cs, i.isPk = true)
    (h : acceptAll cs s = some t) :
    (t.params, t.status, t.rx, t.fr, t.fro, t.fto) = (s.params, s.status, s.rx, s.fr, s.fro, s.fto) := by
  refine acceptAll_keeps (field := fun u => (u.params, u.status, u.rx, u.fr, u.fro, u.fto)) (fun i hi u => ?_) h
  have hi := hpk i hi
  cases i with
  | pkPush | pkEnd => rfl
  | _ => simp [Instr.isPk] at hi

/-- A packing call with room for its bytes sends them and changes the packer and `PKO` alone (40_bitpack.md R104). -/
theorem acceptAll_packCommands {vs : List U7} {f : Bool} {s : State} (hn : s.pk.n = 0)
    (hroom : (pack7to8 vs f).length ≤ s.pko.free s.params.pkoDepth) :
    ∃ t, acceptAll (packCommands vs f) s = some t ∧ t.pko = s.pko.append (pack7to8 vs f) ∧
      (t.params, t.status, t.rx, t.fr, t.fro, t.fto) = (s.params, s.status, s.rx, s.fr, s.fro, s.fto) := by
  obtain ⟨-, haccepted⟩ := packEquivalence
  obtain ⟨t, ht⟩ := haccepted vs f s hn hroom
  obtain ⟨-, hpko⟩ := acceptAll_regroup packerUnit ht
  refine ⟨t, ht, hpko.trans (congrArg _ (congrArg Prod.snd (regroup_packCommands hn vs f))),
    acceptAll_pk_frame (fun i hi => ?_) ht⟩
  simp only [packCommands, List.mem_append, List.mem_map, List.mem_singleton] at hi
  rcases hi with ⟨v, -, rfl⟩ | rfl <;> rfl

/-- An accepted message does to the receiver what the run over its values says (40_bitpack.md R111). -/
theorem acceptAll_rxmsg_eq {bs : List Byte} {f : Bool} {s t : State} {r : Receiver} {frames : List (List Byte)}
    {bits : BitVec 5} (hn : s.rx.n = 0) (h : acceptAll (rxmsgCommands bs f) s = some t)
    (hrun : s.fr.run s.params.frDepth (unpack8to7 bs f false) = (r, frames, bits)) :
    t = { s with
      rx := ⟨0, 0⟩, fr := r, fro := s.fro.append frames, status := s.status ||| bits, port := none } := by
  obtain ⟨hall, -⟩ := rxEquivalence
  have ht := hall bs f s t hn h
  have hfold : (unpack8to7 bs f false).foldl State.frStep s = s.frSteps (unpack8to7 bs f false) := rfl
  rw [hfold, frSteps_eq_run, hrun] at ht
  exact ht

/-- Settles O56: the frame is sent (`acceptAll_txframeCommands`), packed (`acceptAll_packCommands`) and, since the values
come back (`unpack_pack_flushed`), received (`run_outboundFrame`). -/
theorem loopback : Obligations.Loopback := by
  intro id p s h hdepth hx hopen hpk hrx hfr hfto hpko hfro
  obtain ⟨-, haccepted⟩ := rxEquivalence
  obtain ⟨pad, hvalues, hpad⟩ := unpack_pack_flushed h
  obtain ⟨-, hbytes⟩ := pack7to8_length ((outboundFrame true id p).map dataBits)
  rw [List.length_map, outboundFrame_length] at hbytes
  have hsend := acceptAll_txframeCommands id p hopen hx ((outboundFrame_length id p).trans_le hfto)
  obtain ⟨u, hu, hupko, huframe⟩ := acceptAll_packCommands (vs := (outboundFrame true id p).map dataBits) (f := true)
    (s := { s with
      ft := ⟨false, xorfold (coveredBytes true id p)⟩, fto := s.fto.append (outboundFrame true id p), port := none })
    hpk (by rw [hbytes]; exact le_trans (by omega) hpko)
  simp only [Prod.mk.injEq] at huframe
  obtain ⟨uparams, ustatus, urx, ufr, ufro, ufto⟩ := huframe
  have hrun : u.fr.run u.params.frDepth
      (unpack8to7 (pack7to8 ((outboundFrame true id p).map dataBits) true) true false) =
        (⟨.idle, []⟩, [id :: p], 0) := by
    rw [hvalues, ufr, uparams, run_append, run_outboundFrame h hdepth hfr, run_idle_pad hpad]
    simp
  obtain ⟨t, ht⟩ := haccepted _ true u (urx ▸ hrx) (by rw [← run_frames_length, hrun, ufro, uparams]; exact hfro)
  refine ⟨t, ?_, ?_⟩
  · rw [List.append_assoc, acceptAll_append, hsend, Option.bind_some, acceptAll_append, hu, Option.bind_some, ht]
  · rw [acceptAll_rxmsg_eq (urx ▸ hrx) ht hrun]
    simp [ustatus, ufro, ufto, hupko]

/-! ### Without the flush -/

/-- The receiver's values of a sequence packed without flush and unpacked with it: the sequence if its length is a
multiple of 8, else all but its last value; then at most one value, not `frameEnd` (40_bitpack.md R110, R114). -/
theorem unpack_pack_unflushed (vs : List U7) :
    ∃ pad, unpack8to7 (pack7to8 vs false) true false =
        (vs.map (BitVec.ofBool false ++ ·)).take (if vs.length % 8 = 0 then vs.length else vs.length - 1) ++ pad ∧
      pad.length ≤ 1 ∧ ∀ u ∈ pad, u ≠ Config.frameEnd := by
  obtain ⟨hround, -⟩ := roundTripNoFlush
  obtain ⟨hvalues, -⟩ := hround vs
  obtain ⟨out, r, hn, hout, -⟩ := unpack8to7_bitStream (pack7to8 vs false) false
  have hcount : 8 * (7 * vs.length / 8) / 7 = if vs.length % 8 = 0 then vs.length else vs.length - 1 := by
    split
    · omega
    · have hbytes : 7 * vs.length / 8 = vs.length - 1 - vs.length / 8 := by omega
      omega
  have hzero : ∀ v : U7, v.setWidth 8 = BitVec.ofBool false ++ v := by decide
  have hfirst : out = unpack8to7 (pack7to8 vs false) false false := by simp [hout, unpackEnd_none]
  refine ⟨unpackEnd r true false, ?_, ?_, unpackEnd_ne_frameEnd hn true⟩
  · rw [hout, hfirst, hvalues, hcount, List.map_congr_left fun v _ => hzero v]
  · rw [unpackEnd_length]
    split <;> omega

/-- Settles O57: a frame whose length is a multiple of 8 comes back whole (`run_outboundFrame`); of any other the end is
missing, and the receiver is still collecting (`run_open`). -/
theorem loopbackUnflushed : Obligations.LoopbackUnflushed := by
  intro id p s t h hdepth hrx hfr ht
  obtain ⟨pad, hvalues, hlen, hend⟩ := unpack_pack_unflushed ((outboundFrame true id p).map dataBits)
  rw [← outboundFrame_dataBits h, List.length_map, outboundFrame_length] at hvalues
  constructor
  · intro h8
    rw [if_pos h8, List.take_of_length_le (outboundFrame_length id p).le] at hvalues
    obtain ⟨hpad, -⟩ := run_of_ne_frameEnd s.params.frDepth ⟨.idle, []⟩ hend
    have hrun := run_append s.params.frDepth s.fr (outboundFrame true id p) pad
    rw [run_outboundFrame h (by omega) hfr, hpad, ← hvalues] at hrun
    rw [acceptAll_rxmsg_eq hrx ht hrun]
    rfl
  · intro h8
    have hbody : (outboundFrame true id p).take (p.length + 4 - 1) =
        Config.frameStart :: (id :: p ++ [checksum (Config.frameStart :: id :: p)]) := by
      rw [outboundFrame_framed, List.take_left' (by simp)]
    have hne := List.forall_mem_append.2 ⟨fun b hb => (framed_bytes h b hb).2, hend⟩
    have hrun := run_open (depth := s.params.frDepth) hfr hne (by simp; omega)
    rw [if_neg h8, hbody, List.cons_append] at hvalues
    rw [← hvalues] at hrun
    rw [acceptAll_rxmsg_eq hrx ht hrun]
    simp

end Sys2Proof.Machine

namespace Sys2Proof.Machine

/-!
PROOFS. The system commands (44_system.md): none of them is ever held, so each has its whole effect in every state, and
the words above their operands are illegal.
-/

/-- A word of a command's `UNIT` and `FUNC` whose `DATA` is past the operands of its form is illegal
(30_encoding.md R77). -/
theorem decode_past_operands (op : Op) {w : Word} {lo : Nat}
    (hz : ∀ d : Byte, lo ≤ d.toNat → d &&& op.form.mustBeZero ≠ 0)
    (h₁ : 4096 * op.unit.toNat + 256 * op.func.toNat + lo ≤ w.toNat)
    (h₂ : w.toNat ≤ 4096 * op.unit.toNat + 256 * op.func.toNat + 255) : decode w = .illegal .mustBeZeroBitSet := by
  have hfunc := op.func.isLt
  have hu : (unitField w).toNat = op.unit.toNat := by rw [unitField_toNat]; omega
  have hf : (funcField w).toNat = op.func.toNat := by
    simp only [funcField, BitVec.extractLsb'_toNat, Nat.shiftRight_eq_div_pow]
    omega
  have hd : lo ≤ (dataField w).toNat := by
    simp only [dataField, BitVec.extractLsb'_toNat, Nat.shiftRight_eq_div_pow]
    omega
  exact decode_mustBeZeroBitSet (BitVec.eq_of_toNat_eq hu) (BitVec.eq_of_toNat_eq hf) (hz _ hd)

/-- The state after a command that is not held is its effect on the state with the port released. -/
theorem eq_effect_of_exec {i : Instr} {s t : State} (hh : held i s = false) (h : exec i s = .next t) :
    t = effect i s.release := Host.Outcome.next.inj (h.symm.trans (exec_accepted hh))

/-- A STATUS bit just set is 1 (60_exceptions.md R200). -/
theorem stat_setstat (b : StatusBit) (s : State) : (s.setstat b).stat b = true := by
  have hmask : b.mask.getLsbD b.code = true := by cases b <;> decide
  simp [State.stat, hmask]

/-- The two bits of a `c2` operand are the new `CTRL` (44_system.md R191). -/
theorem newTxform_append_newTag (c : BitVec 2) : newTxform c ++ newTag c = c := by
  revert c; decide

theorem effect_sysWrctrl (c : BitVec 2) (s : State) : effect (.sysWrctrl c) s = { s with ctrl := c } := by
  rw [effect, newTxform_append_newTag]

/-- `CTRL` is read as it stands (10_state.md R33). -/
theorem readReg_ctrl (s : State) : s.readReg 0 = s.ctrl.setWidth 16 := rfl

/-- `STATUS` is read as it stands (10_state.md R33). -/
theorem readReg_status (s : State) : s.readReg 1 = s.status.setWidth 16 := rfl

/-- Settles O18: its effect is the identity, and the registers do not show the port. -/
theorem sysNop : Obligations.SysNop := by
  refine ⟨by decide, fun w => decode_past_operands .sysNop (lo := 1) (by decide),
    fun s => exec_accepted (held_sysNop s), fun s t h => ?_⟩
  rw [eq_effect_of_exec (held_sysNop s) h]
  rfl

/-- Settles O19: the effect is `effect_sysWrctrl`; an illegal word's step is `State.acceptIllegal`, which keeps `CTRL`. -/
theorem sysWrctrl : Obligations.SysWrctrl := by
  refine ⟨fun c => ?encoding, fun s w h₁ h₂ hp => ?illegal, fun c s => ?written, fun s t h => ?readBack⟩
  case encoding =>
    rw [encode_eq_or (.sysWrctrl c) .sysWrctrl (high := 0x0100) rfl (by decide), Instr.data,
      setWidth_byte_word (by decide)]
  case illegal =>
    have hd := decode_past_operands .sysWrctrl (lo := 4) (by decide) h₁ h₂
    exact ⟨hd, _, step_illegal hp hd, stat_setstat .ill s.release, rfl⟩
  case written =>
    have hx := exec_accepted (held_sysWrctrl s c)
    rw [effect_sysWrctrl] at hx
    exact ⟨_, hx, rfl, rfl, rfl⟩
  case readBack =>
    rw [eq_effect_of_exec (held_sysWrctrl s 3) h, effect_sysWrctrl, readReg_ctrl]
    exact (by decide : (3 : BitVec 2).setWidth 16 = 0x0003#16)

/-- Settles O20: the effect is `State.clrstat`; an illegal word's step only sets `ILL`. -/
theorem sysClrstat : Obligations.SysClrstat := by
  refine ⟨fun m => ?encoding, fun s w h₁ h₂ hp => ?illegal, fun m s => ?cleared, fun s t hstatus h => ?readBack⟩
  case encoding =>
    rw [encode_eq_or (.sysClrstat m) .sysClrstat (high := 0x0200) rfl (by decide), Instr.data,
      setWidth_byte_word (by decide)]
  case illegal =>
    have hd := decode_past_operands .sysClrstat (lo := 32) (by decide) h₁ h₂
    exact ⟨_, step_illegal hp hd, stat_setstat .ill s.release, fun b => stat_of_status_or (s := s) rfl⟩
  case cleared =>
    refine ⟨_, exec_accepted (held_sysClrstat s m), fun i hi => ?_, rfl⟩
    simp [effect, hi]
  case readBack =>
    have hexample : ∀ x : BitVec 5, x.setWidth 16 = 0x0019#16 → (x &&& ~~~0x09#5).setWidth 16 = 0x0010#16 := by decide
    rw [eq_effect_of_exec (held_sysClrstat s 0x09) h, readReg_status]
    exact hexample s.status hstatus

/-- Settles O21: the effect is `State.resetUnits`, and the registers do not show the FIFOs (`resetWith_registers`). -/
theorem sysSreset : Obligations.SysSreset := by
  refine ⟨by decide, fun s => exec_accepted (held_sysSreset s), fun s t h => ?_⟩
  obtain rfl := eq_effect_of_exec (held_sysSreset s) h
  exact ⟨rfl, resetWith_registers s.params⟩

end Sys2Proof.Machine

namespace Sys2Proof.Machine

/-!
PROOFS. Error events and what the host sees (60_exceptions.md): every state has a next state, a step raises at most one
event and only for a word that may raise it, and the registers show the units. The heart is `step_raises`, which says
once what a step can add to STATUS.
-/

/-! ### Every state has a next state -/

theorem hostTurn_params (s : State) : (hostTurn s).params = s.params := by
  rcases hostTurn_cases s with e | ⟨w, rest, e⟩ | ⟨a, rest, e⟩ | ⟨f, rest, e⟩ | ⟨rest, -, e⟩ <;> rw [e]
  case inr.inr.inr.inl => cases f <;> rfl
  all_goals rfl

theorem takeWord_params (w : Word) (s : State) : (takeWord w s).params = s.params := by
  cases hd : decode w with
  | illegal e => rw [takeWord_illegal hd]; rfl
  | command i => rw [takeWord_command hd]; exact (effect_host_side i s.release).1

/-- Settles O15: a step is the host's turn or takes the word on the port, and neither changes the parameters. -/
theorem stepAlwaysAnswers : Obligations.StepAlwaysAnswers := by
  intro s
  rcases step_hostTurn_or_takes s with h | ⟨w, -, h⟩
  · exact ⟨_, h, hostTurn_params s⟩
  · exact ⟨_, h, takeWord_params w s⟩

/-! ### The events of the receive step -/

/-- Only a receiver that is collecting raises an event, and then it collects no longer (42_frame_rx.md R145 to R148). -/
theorem collecting_of_bits_ne_zero {depth : Nat} {r : Receiver} {u : Byte} (h : (r.step depth u).2.bits ≠ 0) :
    r.state = .collecting ∧ (r.step depth u).1.state ≠ .collecting := by
  rcases step_receiver_cases depth r u with ⟨-, -, e⟩ | ⟨-, -, e⟩ | ⟨hst, -, e⟩ | ⟨-, -, -, e⟩ | ⟨hst, -, -, e⟩ |
    ⟨-, -, e⟩ | ⟨-, -, e⟩
  case inr.inr.inl => exact ⟨hst, by simp [e]⟩
  case inr.inr.inr.inr.inl => exact ⟨hst, by simp [e]⟩
  all_goals exact absurd (congrArg (fun o => o.2.bits) e) h

/-- One or two values set no STATUS bit or one of `CKERR`, `SHORT` and `OVF`: after an event the receiver is not
collecting, and the second value raises none (60_exceptions.md R207). -/
theorem run_bits_cases (depth : Nat) (r : Receiver) {us : List Byte} (h : us.length ≤ 2) :
    (r.run depth us).2.2 = 0 ∨ (r.run depth us).2.2 = StatusBit.ckerr.mask ∨
      (r.run depth us).2.2 = StatusBit.short.mask ∨ (r.run depth us).2.2 = StatusBit.ovf.mask := by
  match us, h with
  | [], _ => exact .inl rfl
  | [u], _ => simpa [Receiver.run] using step_bits_cases depth r u
  | [u, v], _ =>
    by_cases hu : (r.step depth u).2.bits = 0
    · simpa [Receiver.run, hu] using step_bits_cases depth (r.step depth u).1 v
    · have hv : ((r.step depth u).1.step depth v).2.bits = 0 :=
        by_contra fun hv => (collecting_of_bits_ne_zero hu).2 (collecting_of_bits_ne_zero hv).1
      simpa [Receiver.run, hv] using step_bits_cases depth r u

/-! ### What a command adds to STATUS -/

/-- The commands that may raise an event (60_exceptions.md R200, column "raised by"); `effect_raisesAtMostOne` ties it
to what they do. Only an illegal word raises `ILL`. -/
def StatusBit.raisedBy (i : Instr) : StatusBit → Bool
  | .ill => false
  | .seq => i.isFt
  | .ckerr | .short | .ovf => i.feedsReceiver

/-- A command that feeds the receiver gives it at most two values, and sets the bits those set. -/
theorem effect_status_of_feedsReceiver {i : Instr} (h : i.feedsReceiver = true) (s : State) :
    ∃ us : List Byte, us.length ≤ 2 ∧ (effect i s).status = s.status ||| (s.fr.run s.params.frDepth us).2.2 := by
  cases i with
  | rxPush b =>
    refine ⟨(unpackStep s.rx b false).2, ?_, by rw [effect, frSteps_eq_run]⟩
    rw [unpackStep_length]
    split <;> omega
  | rxEnd f =>
    refine ⟨unpackEnd s.rx f false, ?_, by rw [effect, frSteps_eq_run]⟩
    rw [unpackEnd_length]
    split <;> omega
  | frPush u => exact ⟨[u], by simp, by rw [effect, frStep_eq_run]⟩
  | _ => simp [Instr.feedsReceiver] at h

/-- A command of `FT` sets `SEQ` or leaves STATUS as it is (60_exceptions.md R205). -/
theorem effect_status_of_isFt {i : Instr} (h : i.isFt = true) (s : State) :
    (effect i s).status = s.status ∨ (effect i s).status = s.status ||| StatusBit.seq.mask := by
  cases i with
  | ftStart d =>
    cases hopen : s.ft.opened with
    | true => exact .inr (by rw [effect_ftStart_seq hopen]; rfl)
    | false =>
      cases hx : s.txform with
      | true => exact .inl (by rw [effect_ftStart_framed hopen hx]; rfl)
      | false => exact .inl (by rw [effect_ftStart_plain hopen hx]; rfl)
  | ftData b =>
    cases hopen : s.ft.opened with
    | true => exact .inl (by rw [effect_ftData_open hopen]; rfl)
    | false => exact .inr (by rw [effect_ftData_seq hopen]; rfl)
  | ftEnd =>
    cases hopen : s.ft.opened with
    | true => exact .inl (by rw [effect_ftEnd_open hopen]; rfl)
    | false => exact .inr (by rw [effect_ftEnd_seq hopen]; rfl)
  | _ => simp [Instr.isFt] at h

theorem stat_of_status_eq {s t : State} (h : t.status = s.status) (b : StatusBit) : t.stat b = s.stat b :=
  congrArg (·.getLsbD b.code) h

/-- A command sets no STATUS bit that was 0, or the bit of one event that it may raise and no other. -/
abbrev RaisesAtMostOne (i : Instr) (s : State) : Prop :=
  (∀ b, (effect i s).stat b = true → s.stat b = true) ∨
    ∃ b : StatusBit, b.raisedBy i = true ∧ (effect i s).status = s.status ||| b.mask

theorem raisesAtMostOne_of_feedsReceiver {i : Instr} (h : i.feedsReceiver = true) (s : State) :
    RaisesAtMostOne i s := by
  obtain ⟨us, hlen, hbits⟩ := effect_status_of_feedsReceiver h s
  rcases run_bits_cases s.params.frDepth s.fr hlen with hr | hr | hr | hr <;> rw [hr] at hbits
  · exact .inl fun b hb => (stat_of_status_eq (hbits.trans BitVec.or_zero) b).symm.trans hb
  · exact .inr ⟨.ckerr, h, hbits⟩
  · exact .inr ⟨.short, h, hbits⟩
  · exact .inr ⟨.ovf, h, hbits⟩

theorem raisesAtMostOne_of_isFt {i : Instr} (h : i.isFt = true) (s : State) : RaisesAtMostOne i s := by
  rcases effect_status_of_isFt h s with hkept | hseq
  · exact .inl fun b hb => (stat_of_status_eq hkept b).symm.trans hb
  · exact .inr ⟨.seq, h, hseq⟩

/-- Every command raises at most one event, and one that it may raise (60_exceptions.md R200, R207). -/
theorem effect_raisesAtMostOne (i : Instr) (s : State) : RaisesAtMostOne i s := by
  cases i with
  | rxPush | rxEnd | frPush => exact raisesAtMostOne_of_feedsReceiver rfl s
  | ftStart | ftData | ftEnd => exact raisesAtMostOne_of_isFt rfl s
  | sysClrstat m => exact .inl fun b => by simp +contextual [effect, State.stat]
  | sysSreset => exact .inl fun b => by simp [effect, State.stat]
  | _ => exact .inl fun _ hb => hb

/-! ### What a step adds to STATUS -/

/-- The host's turn sets no STATUS bit: only a reset changes STATUS, and it clears every bit. -/
theorem hostTurn_raises_none {s : State} {b : StatusBit} (h : (hostTurn s).stat b = true) : s.stat b = true := by
  rcases hostTurn_status s with e | ⟨rest, he⟩
  · rwa [State.stat, e] at h
  · simp [hostTurn, he, State.stat] at h

/-- A step sets no STATUS bit that was 0, or exactly one: `ILL` for an illegal word, or an event that the command it
accepts may raise (60_exceptions.md R200, R207). -/
theorem step_raises {s t : State} (h : step s = .next t) :
    (∀ b, t.stat b = true → s.stat b = true) ∨
    (∃ w e, s.port = some w ∧ decode w = .illegal e ∧ t.status = s.status ||| StatusBit.ill.mask) ∨
    ∃ w i, ∃ b : StatusBit, s.port = some w ∧ decode w = .command i ∧ held i s = false ∧ b.raisedBy i = true ∧
      t.status = s.status ||| b.mask := by
  rcases step_cases h with ⟨-, rfl⟩ | ⟨w, e, hp, hd, rfl⟩ | ⟨w, i, hp, hd, hh, rfl⟩
  · exact .inl fun _ => hostTurn_raises_none
  · exact .inr (.inl ⟨w, e, hp, hd, rfl⟩)
  · rcases effect_raisesAtMostOne i s.release with hnone | ⟨b, hb, hstatus⟩
    · exact .inl hnone
    · exact .inr (.inr ⟨w, i, b, hp, hd, hh, hb, hstatus⟩)

/-- Setting one bit makes 1 no other bit that was 0. -/
theorem eq_of_status_or_mask {s t : State} {b c : StatusBit} (h : t.status = s.status ||| b.mask)
    (hs : s.stat c = false) (ht : t.stat c = true) : c = b := by
  have hmask : b.mask.getLsbD c.code = true := by
    simp only [State.stat] at hs ht
    simpa [h, hs] using ht
  revert hmask
  cases b <;> cases c <;> decide

/-- Settles O22: a step sets at most the one bit of `step_raises`. -/
theorem atMostOneStatusBit : Obligations.AtMostOneStatusBit := by
  intro s t b c h hb hb' hc hc'
  have same {d : StatusBit} (hd : t.status = s.status ||| d.mask) : b = c :=
    (eq_of_status_or_mask hd hb hb').trans (eq_of_status_or_mask hd hc hc').symm
  rcases step_raises h with hnone | ⟨_, _, -, -, hd⟩ | ⟨_, _, _, -, -, -, -, hd⟩
  · simp [hnone b hb'] at hb
  · exact same hd
  · exact same hd

/-- Settles O24: the bit a step sets is that of `step_raises`, and `StatusBit.raisedBy` says which commands raise it. -/
theorem statusCauses : Obligations.StatusCauses := by
  intro s t b h hb hb'
  rcases step_raises h with hnone | ⟨w, e, hp, hd, hstatus⟩ | ⟨w, i, d, hp, hd, hh, hraise, hstatus⟩
  · simp [hnone b hb'] at hb
  · obtain rfl := eq_of_status_or_mask hstatus hb hb'
    exact ⟨w, hp, e, hd⟩
  · obtain rfl := eq_of_status_or_mask hstatus hb hb'
    refine ⟨w, hp, ?_⟩
    cases b with
    | ill => simp [StatusBit.raisedBy] at hraise
    | seq | ckerr | short | ovf => exact ⟨i, hd, hh, hraise⟩

/-! ### The registers show the units -/

/-- States with the same registers answer every read alike (20_memory.md R52). -/
theorem readReg_eq_of_registers {s t : State} (h : s.registers = t.registers) (a : BitVec 3) :
    s.readReg a = t.readReg a := by
  have hread : ∀ b ∈ List.range 8, s.readReg (BitVec.ofNat 3 b) = t.readReg (BitVec.ofNat 3 b) := List.map_inj_left.1 h
  simpa using hread a.toNat (List.mem_range.2 a.isLt)

/-- A register that is one field shows it: `CTRL` and `STATUS`. -/
theorem eq_of_setWidth_eq {k : Nat} {x y : BitVec k} (hk : k ≤ 16) (h : x.setWidth 16 = y.setWidth 16) : x = y := by
  have h := congrArg BitVec.toNat h
  rw [BitVec.toNat_setWidth_of_le hk, BitVec.toNat_setWidth_of_le hk] at h
  exact BitVec.eq_of_toNat_eq h

/-- A register of two fields, the lower one within its byte, shows both. -/
theorem fields_eq_of_sum_eq {lo lo' hi hi' : Nat} (h : lo + 256 * hi = lo' + 256 * hi') (hlo : lo < 256)
    (hlo' : lo' < 256) : lo = lo' ∧ hi = hi' := by omega

theorem pk_eq_of_pkSt {s t : State} (h : s.pkSt = t.pkSt) : s.pk = t.pk := by
  have h := congrArg BitVec.toNat h
  rw [pkSt_toNat, pkSt_toNat] at h
  obtain ⟨hn, hacc⟩ := fields_eq_of_sum_eq h (by omega) (by omega)
  exact congrArg₂ Packer.mk (BitVec.eq_of_toNat_eq hacc) (BitVec.eq_of_toNat_eq hn)

/-- `UP_ST` and `RX_ST` show the residual bits of their unpacker. -/
theorem unpacker_eq_of_st {r r' : Unpacker} (h : 0#2 ++ r.acc ++ 0#5 ++ r.n = 0#2 ++ r'.acc ++ 0#5 ++ r'.n) :
    r = r' := by
  have h := congrArg BitVec.toNat h
  rw [unpackerSt_toNat, unpackerSt_toNat] at h
  obtain ⟨hn, hacc⟩ := fields_eq_of_sum_eq h (by omega) (by omega)
  exact congrArg₂ Unpacker.mk (BitVec.eq_of_toNat_eq hacc) (BitVec.eq_of_toNat_eq hn)

theorem code_injective : Function.Injective FrState.code := by
  intro a b
  cases a <;> cases b <;> decide

/-- The buffer of a legal depth has a length that `FR_ST` can show (00_scope.md R8). -/
theorem buf_length_le {s : State} (h : s.Inv) : s.fr.buf.length ≤ 255 := by
  obtain ⟨-, hdepth, -⟩ := h.legal
  exact h.fr.1.trans hdepth

/-- `FR_ST` shows the receiver's state and how many bytes it has collected. -/
theorem fr_alike_of_frSt {s t : State} (hs : s.fr.buf.length ≤ 255) (ht : t.fr.buf.length ≤ 255) (h : s.frSt = t.frSt) :
    s.fr.state = t.fr.state ∧ s.fr.buf.length = t.fr.buf.length := by
  have h := congrArg BitVec.toNat h
  rw [frSt_toNat hs, frSt_toNat ht] at h
  obtain ⟨hlen, hcode⟩ := fields_eq_of_sum_eq h (by omega) (by omega)
  exact ⟨code_injective (BitVec.eq_of_toNat_eq hcode), hlen⟩

theorem ft_eq_of_ftSt {s t : State} (h : s.ftSt = t.ftSt) : s.ft = t.ft := by
  have h := congrArg BitVec.toNat h
  rw [ftSt_toNat, ftSt_toNat] at h
  obtain ⟨hx, hopen⟩ := fields_eq_of_sum_eq h (by omega) (by omega)
  have bool_eq : ∀ a b : Bool, a.toNat = b.toNat → a = b := by decide
  exact congrArg₂ Transmitter.mk (bool_eq _ _ hopen) (BitVec.eq_of_toNat_eq hx)

theorem ck_eq_of_ckSt {s t : State} (h : s.ckSt = t.ckSt) : s.ck = t.ck := by
  have h := congrArg BitVec.toNat h
  rw [ckSt_toNat, ckSt_toNat] at h
  exact BitVec.eq_of_toNat_eq (fields_eq_of_sum_eq h (by omega) (by omega)).1

/-- Settles O17: each register shows its unit; the invariant bounds `FR.len` to what its field holds. -/
theorem registersShowUnits : Obligations.RegistersShowUnits := by
  intro s t hs ht hregs
  have hread : ∀ a, t.readReg a = s.readReg a := readReg_eq_of_registers hregs.symm
  obtain ⟨hstate, hlen⟩ := fr_alike_of_frSt (buf_length_le ht) (buf_length_le hs) (hread 5)
  exact ⟨eq_of_setWidth_eq (by decide) (hread 0), eq_of_setWidth_eq (by decide) (hread 1), pk_eq_of_pkSt (hread 2),
    unpacker_eq_of_st (hread 3), unpacker_eq_of_st (hread 4), hstate, hlen, ft_eq_of_ftSt (hread 6),
    ck_eq_of_ckSt (hread 7)⟩

end Sys2Proof.Machine

namespace Sys2Proof.Machine

/-!
PROOFS. Reset and hazards (70_reset_and_hazards.md): what reset leaves, when a command is held, and that the host alone
ends a hold. Every FIFO grows by what the table of R240 counts (`effect_growsBy_demand`), so a command is held exactly
when it would not fit; and while the host leaves the FIFOs a held command writes to as they are, the hold stays.
-/

/-! ### Reset -/

/-- Reset on hardware with legal parameters meets the invariant. -/
theorem resetWith_inv {p : Params} (h : p.Legal) : (State.resetWith p).Inv :=
  ⟨h, packer_clear_wf, unpacker_clear_wf, unpacker_clear_wf, receiver_idle_wf _, Nat.zero_le _, Nat.zero_le _,
    Nat.zero_le _, Nat.zero_le _, by simp [State.resetWith, Fifo.emitted]⟩

/-- Settles O60: nothing is held anywhere, and the parameters of `State.reset` are legal. -/
theorem resetInv : Obligations.ResetInv := ⟨fun _ => resetWith_inv, resetWith_inv (by decide)⟩

theorem hostTurn_reset {s : State} {rest : List HostEvent} (he : s.hostEvents = .reset :: rest) :
    hostTurn s = State.hardReset { s with hostEvents := rest } := by simp [hostTurn, he]

/-- After a hardware reset the registers show what they show after `State.resetWith` (10_state.md R33). -/
theorem hardReset_registers (s : State) : s.hardReset.registers = [0, 0, 0, 0, 0, 0, 0, 0x0A00] :=
  resetWith_registers s.params

/-- Settles O14: the host's turn is `State.hardReset`, whatever the state it starts from. -/
theorem hostReset : Obligations.HostReset := by
  intro s rest ha he
  refine ⟨State.hardReset { s with hostEvents := rest }, by rw [step_awaits ha, hostTurn_reset he], ?tag, ?txform,
    fun b => ?stat, rfl, rfl, rfl, rfl, rfl, rfl, rfl, rfl, rfl, rfl, rfl, rfl, rfl, rfl, rfl, hardReset_registers _,
    rfl, rfl⟩
  case tag | txform | stat => exact BitVec.getLsbD_zero

/-! ### When a command is held -/

/-- A command is held when it demands more of some FIFO than that FIFO has free. -/
theorem held_true_iff (i : Instr) (s : State) :
    held i s = true ↔
      s.pko.free s.params.pkoDepth < (demand i s).pko ∨ s.upo.free s.params.upoDepth < (demand i s).upo ∨
      s.fro.free s.params.froDepth < (demand i s).fro ∨ s.fto.free s.params.ftoDepth < (demand i s).fto := by
  rw [← Bool.not_eq_false, held_false_iff]
  simp only [not_and_or, not_le]

/-- No command demands more than the smallest legal FIFOs have (00_scope.md R8). -/
theorem demand_le (i : Instr) (s : State) :
    (demand i s).pko ≤ 1 ∧ (demand i s).upo ≤ 2 ∧ (demand i s).fro ≤ 1 ∧ (demand i s).fto ≤ 2 := by
  refine ⟨?pko, ?upo, demand_fro_le_one i s, ?fto⟩
  case pko =>
    cases i with
    | pkPush | pkEnd => simp only [demand]; split <;> decide
    | _ => exact Nat.zero_le 1
  case upo =>
    cases i with
    | upPush | upEnd => simp only [demand]; split <;> decide
    | _ => exact Nat.zero_le 2
  case fto =>
    cases i with
    | ftStart => simp only [demand]; split_ifs <;> decide
    | ftData | ftEnd => simp only [demand]; split <;> decide
    | _ => exact Nat.zero_le 2

/-- With legal parameters every command has room in empty FIFOs. -/
theorem held_of_empty (i : Instr) {s : State} (hp : s.params.Legal) (h1 : s.pko.entries = []) (h2 : s.upo.entries = [])
    (h3 : s.fro.entries = []) (h4 : s.fto.entries = []) : held i s = false := by
  obtain ⟨-, -, hpko, hupo, hfro, hfto⟩ := hp
  obtain ⟨d1, d2, d3, d4⟩ := demand_le i s
  rw [held_false_iff]
  simp only [Fifo.free, h1, h2, h3, h4, List.length_nil, Nat.sub_zero]
  exact ⟨d1.trans hpko, d2.trans hupo, d3.trans hfro, d4.trans hfto⟩

theorem growsBy_length {α : Type} {q q' : Fifo α} {n : Nat} (h : q.GrowsBy q' n) :
    q'.entries.length = q.entries.length + n := by
  obtain ⟨vs, rfl, rfl⟩ := h
  exact List.length_append

/-- With room in every FIFO a command appends to each what it demands where there may be none. -/
theorem effect_roomy_growsBy (i : Instr) (s : State) :
    s.pko.GrowsBy (effect i s.roomy.release).pko (demand i s).pko ∧
    s.upo.GrowsBy (effect i s.roomy.release).upo (demand i s).upo ∧
    s.fro.GrowsBy (effect i s.roomy.release).fro (demand i s).fro ∧
    s.fto.GrowsBy (effect i s.roomy.release).fto (demand i s).fto := by
  have hd : demand i s.roomy.release = demand i s := by cases i <;> rfl
  have h := effect_growsBy_demand i s.roomy.release
  rwa [hd] at h

/-- The depths of the FIFOs change nothing of what an accepted command does. -/
theorem effect_roomy (i : Instr) (s : State) :
    { effect i s.roomy.release with params := s.params } = effect i s.release := by
  have h := takeWord_command (decode_encode i) s
  simpa only [takeWord, decode_encode, exec_accepted (held_roomy i s)] using h

/-- Settles O9: with room a command appends what it demands (`effect_roomy_growsBy`), and it is held when some FIFO has
less free (`held_true_iff`). -/
theorem holdRule : Obligations.HoldRule := by
  refine ⟨fun i s => ?emits, fun s w e hp hd => ⟨_, step_illegal hp hd, rfl⟩, fun s b ho => by simp [held_ftStart, ho],
    fun s b ho => by simp [held_ftData, held_ftEnd, ho], fun i s => held_of_empty i⟩
  obtain ⟨-, hport, -, -⟩ := effect_host_side i s.roomy.release
  obtain ⟨g1, g2, g3, g4⟩ := effect_roomy_growsBy i s
  obtain ⟨-, -, d3, -⟩ := demand_of_not_writes i s
  obtain ⟨-, -, kfro⟩ := growsBy_frame g3 d3
  obtain ⟨-, kupo⟩ := effect_fifos_frame i s.roomy.release
  have l1 := growsBy_length g1
  have l2 := growsBy_length g2
  have l3 := growsBy_length g3
  have l4 := growsBy_length g4
  refine ⟨_, exec_accepted (held_roomy i s), hport, l1.trans ?pko, fun hn => l2.trans ?upo, kupo,
    ⟨?fro, fun hi => ?froKept⟩, l4.trans ?fto, ?held, exec_held, fun hh => ?accepted⟩
  case pko | fto => cases i <;> rfl
  case upo =>
    have hsix : 6 ≤ s.up.n.toNat ↔ s.up.n = 6 := by
      rw [← BitVec.toNat_inj, show (6 : BitVec 3).toNat = 6 from rfl]
      omega
    cases i with
    | upPush b => simp only [demand, hsix]
    | _ => rfl
  case fro => rw [l3]; exact Nat.add_le_add_left (demand_fro_le_one i s) _
  case froKept => exact kfro.resolve_right (by simp [Instr.writes, hi])
  case held => rw [held_true_iff, l1, l2, l3, l4]; simp only [Nat.add_sub_cancel_left]
  case accepted => rw [exec_accepted hh, effect_roomy]

/-! ### A hold that stays -/

/-- The host's actions that leave a command's FIFOs as they are: presenting, reading, and removing from others. -/
abbrev HostEvent.Spares (i : Instr) (e : HostEvent) : Prop :=
  (∃ v, e = .present v) ∨ (∃ a, e = .read a) ∨ ∃ f, e = .remove f ∧ i.writes f = false

/-- Two states hold the same in one FIFO, and the same of it has been removed. -/
def State.SameFifo (s t : State) : FifoId → Prop
  | .pko => t.pko = s.pko
  | .upo => t.upo = s.upo
  | .fro => t.fro = s.fro
  | .fto => t.fto = s.fto

/-- What stays of a state while a command is held and the host spares the command's FIFOs. -/
structure State.StillHolding (i : Instr) (s t : State) : Prop where
  params : t.params = s.params
  port   : t.port = s.port
  alike  : s.Alike t
  fifos  : ∀ f, i.writes f = true → s.SameFifo t f

theorem sameFifo_refl (s : State) (f : FifoId) : s.SameFifo s f := by cases f <;> rfl

theorem sameFifo_trans {s t u : State} {f : FifoId} (h : s.SameFifo t f) (g : t.SameFifo u f) : s.SameFifo u f := by
  cases f <;> exact Eq.trans g h

theorem sameFifo_removeHead (s : State) {f g : FifoId} (h : f ≠ g) : s.SameFifo (s.removeHead f) g := by
  cases f <;> cases g <;> simp_all [State.SameFifo, State.removeHead]

theorem stillHolding_refl (i : Instr) (s : State) : s.StillHolding i s :=
  ⟨rfl, rfl, alike_refl s, fun f _ => sameFifo_refl s f⟩

theorem stillHolding_trans {i : Instr} {s t u : State} (h : s.StillHolding i t) (g : t.StillHolding i u) :
    s.StillHolding i u :=
  ⟨g.params.trans h.params, g.port.trans h.port, alike_trans h.alike g.alike,
    fun f hw => sameFifo_trans (h.fifos f hw) (g.fifos f hw)⟩

/-- What a command demands depends on the units alone. -/
theorem demand_congr (i : Instr) {s t : State} (h : s.UnitsAgree t) : demand i t = demand i s := by
  obtain ⟨⟩ := h
  cases i <;> simp [demand, State.txform, *]

/-- A FIFO that has too little room for a demand still has too little if it stays as it is where it is written. -/
theorem free_lt_of_kept {α : Type} {q q' : Fifo α} {n depth : Nat} {written : Bool} (hkept : written = true → q' = q)
    (hdemand : written = false → n = 0) (h : q.free depth < n) : q'.free depth < n := by
  cases written with
  | true => rwa [hkept rfl]
  | false => exact absurd (hdemand rfl) (by omega)

theorem held_of_stillHolding {i : Instr} {s t : State} (h : s.StillHolding i t) (hh : held i s = true) :
    held i t = true := by
  obtain ⟨d1, d2, d3, d4⟩ := demand_of_not_writes i s
  rw [held_true_iff] at hh ⊢
  rw [demand_congr i h.alike.units, h.params]
  exact hh.imp (free_lt_of_kept (h.fifos .pko) d1) (.imp (free_lt_of_kept (h.fifos .upo) d2)
    (.imp (free_lt_of_kept (h.fifos .fro) d3) (free_lt_of_kept (h.fifos .fto) d4)))

/-- While a word is on the port, a host whose list spares a command's FIFOs leaves everything else as it is, too. -/
theorem hostTurn_spares {i : Instr} {s : State} {w : Word} (hp : s.port = some w)
    (he : ∀ e ∈ s.hostEvents, e.Spares i) :
    s.StillHolding i (hostTurn s) ∧ (hostTurn s).hostEvents ⊆ s.hostEvents := by
  have hreset : .reset ∉ s.hostEvents := fun h => by simpa [HostEvent.Spares] using he .reset h
  obtain ⟨halike, -, -⟩ := hostTurn_alike s hreset
  suffices h : (hostTurn s).port = s.port ∧ (∀ f, i.writes f = true → s.SameFifo (hostTurn s) f) ∧
      (hostTurn s).hostEvents ⊆ s.hostEvents by
    obtain ⟨hport, hfifos, hsub⟩ := h
    exact ⟨⟨hostTurn_params s, hport, halike, hfifos⟩, hsub⟩
  unfold hostTurn
  split
  · exact ⟨rfl, fun f _ => sameFifo_refl s f, List.Subset.refl _⟩
  · rw [if_pos (by simp [hp])]
    exact ⟨rfl, fun f _ => sameFifo_refl s f, List.Subset.refl _⟩
  · next a rest hev => exact ⟨rfl, fun f _ => sameFifo_refl s f, hev ▸ List.subset_cons_self ..⟩
  · next g rest hev =>
    have hg : i.writes g = false := by
      simpa [HostEvent.Spares] using he (.remove g) (by simp [hev])
    refine ⟨by cases g <;> rfl, fun f hw => ?_, ?_⟩
    · have hne : g ≠ f := fun h => by simp [h, hw] at hg
      exact sameFifo_removeHead _ hne
    · rw [hev]
      cases g <;> exact List.subset_cons_self ..
  · next rest hev => simp [hev] at hreset

/-- However many steps pass, a held command stays held while the host spares its FIFOs. -/
theorem run_stillHolding (k : Nat) {s : State} {w : Word} {i : Instr} (hp : s.port = some w)
    (hd : decode w = .command i) (hh : held i s = true) (he : ∀ e ∈ s.hostEvents, e.Spares i) :
    ∃ t, Host.Core.run Sys2Proof.core k s = .next t ∧ s.StillHolding i t := by
  induction k generalizing s with
  | zero => exact ⟨s, rfl, stillHolding_refl i s⟩
  | succ k ih =>
    obtain ⟨hturn, hsub⟩ := hostTurn_spares hp he
    obtain ⟨t, hrun, ht⟩ :=
      ih (hturn.port.trans hp) (held_of_stillHolding hturn hh) fun e hm => he e (hsub hm)
    exact ⟨t, (run_succ (step_awaits (.inr ⟨w, i, hp, hd, hh⟩))).trans hrun, stillHolding_trans hturn ht⟩

/-- Settles O10: what the run keeps (`run_stillHolding`) is enough for the hold (`held_of_stillHolding`). -/
theorem heldForever : Obligations.HeldForever := by
  intro k s w i hp hd hh he
  obtain ⟨t, hrun, h⟩ := run_stillHolding k hp hd hh he
  obtain ⟨⟨-, hc, hs, hpk, hup, hrx, hfr, hft, hck⟩, e1, e2, e3, e4⟩ := h.alike
  exact ⟨t, hrun, h.port.trans hp, held_of_stillHolding h hh,
    ⟨h.params, hc, hs, hpk, hup, hrx, hfr, hft, hck, rfl, rfl, rfl, rfl⟩, e1, e2, e3, e4,
    h.fifos .pko, h.fifos .upo, h.fifos .fro, h.fifos .fto⟩

end Sys2Proof.Machine
